-- ==== Sys2Proof/Word.lean ====
section
/-! DEFINITION. The one word type of the engine: every access, operand and operation code is a byte
(rules R10 and R59 of spec/). -/

namespace Sys2Proof

/-- A byte, bit 0 the least significant (R10). -/
abbrev Byte := BitVec 8

end Sys2Proof
end

