-- ==== Sys2Proof/Config.lean ====
section
/-! DEFINITION. What an implementation fixes (the parameters of rules R6, R8, R9 of spec/00_scope.md and R203 of
spec/45_config_and_wait.md) and the free values: the answers of the chip and of the interrupt
line, on which the spec puts no law (R15), and the clock's, which R208 has come true in the end.  The numbers the source itself fixes (0x12, 0x77, 0x1B, 2000, 255 ...)
are no parameters: they stand beside the rules that use them, in Machine/Operands.lean and Machine/Flags.lean. -/

namespace Sys2Proof

/-- How one entry of `INIT_SEQ` reaches its register (R201): `RegWrite` or `SetBits`. -/
inductive InitKind where
  | write
  | set
deriving DecidableEq, Repr

/-- The operand of one entry of `INIT_SEQ` (R201): a literal byte, or `GAIN`, which stands for `gain << 4`. -/
inductive InitArg where
  | literal (b : Byte)
  | gain
deriving DecidableEq, Repr

/-- One register access of `INIT_SEQ` (R201, R203). -/
structure InitEntry where
  kind : InitKind
  addr : Byte
  arg  : InitArg
deriving DecidableEq, Repr

/-- The chip-specific parameters (R8, R9, R203).  The source gives none of their values, so they are fields:
every claim over all states is a claim over all of them. -/
structure Config where
  aCommand        : Byte
  aIrqEn          : Byte
  aIrq            : Byte
  aDivIrq         : Byte
  aError          : Byte
  aStatus         : Byte
  aFifoData       : Byte
  aFifoLevel      : Byte
  aControl        : Byte
  aBitFraming     : Byte
  aCrcResultHi    : Byte
  aCrcResultLo    : Byte
  aRfCfg          : Byte
  cmdIdle         : Byte
  cmdCalcCrc      : Byte
  cmdTransceive   : Byte
  cmdAuthent      : Byte
  cmdSoftReset    : Byte
  irqTimer        : Byte
  e1Mask          : Byte
  ienOr           : Byte
  irqClearMask    : Byte
  fifoFlush       : Byte
  startSend       : Byte
  lastBitsMask    : Byte
  crcDone         : Byte
  framing7bit     : Byte
  framingFull     : Byte
  waitIrqClear    : Byte
  waitIen         : Byte
  waitFraming     : Byte
  /-- `FIFO_CAPACITY`; no rule of the engine reads it (R9, R52, D44). -/
  fifoCapacity    : Nat
  /-- `INIT_SEQ`, the register accesses of INIT (R8, R201). -/
  initSeq         : List InitEntry
deriving DecidableEq, Repr

/-- The defaults the spec offers (R8, R9, R203), taken from the MFRC522 register map and marked there
`[from general knowledge, not in source]`.  PRESUMED, unsafe: log entry 2. -/
def Config.mfrc522 : Config where
  aCommand      := 0x01
  aIrqEn        := 0x02
  aIrq          := 0x04
  aDivIrq       := 0x05
  aError        := 0x06
  aStatus       := 0x08
  aFifoData     := 0x09
  aFifoLevel    := 0x0A
  aControl      := 0x0C
  aBitFraming   := 0x0D
  aCrcResultHi  := 0x21
  aCrcResultLo  := 0x22
  aRfCfg        := 0x26
  cmdIdle       := 0x00
  cmdCalcCrc    := 0x03
  cmdTransceive := 0x0C
  cmdAuthent    := 0x0E
  cmdSoftReset  := 0x0F
  irqTimer      := 0x01
  e1Mask        := 0x01
  ienOr         := 0x80
  irqClearMask  := 0x80
  fifoFlush     := 0x80
  startSend     := 0x80
  lastBitsMask  := 0x07
  crcDone       := 0x04
  framing7bit   := 0x07
  framingFull   := 0x00
  waitIrqClear  := 0x00
  waitIen       := 0xA0
  waitFraming   := 0x87
  fifoCapacity  := 64
  initSeq       :=
    [ ⟨.write, 0x01, .literal 0x0F⟩, ⟨.write, 0x2A, .literal 0x8D⟩, ⟨.write, 0x2B, .literal 0x3E⟩,
      ⟨.write, 0x2D, .literal 0x1E⟩, ⟨.write, 0x2C, .literal 0x00⟩, ⟨.write, 0x15, .literal 0x40⟩,
      ⟨.write, 0x11, .literal 0x3D⟩, ⟨.write, 0x26, .gain⟩,         ⟨.set,   0x14, .literal 0x03⟩ ]

/-- The construction parameters (R6): the engine's share of what a session is built from. -/
structure SessionParams where
  csPresent  : Bool
  irqPresent : Bool
  /-- `RST_CFG`, the reset line's pin, `none` when the caller configured none (R6, R228). -/
  rstCfg     : Option Nat
  /-- `PIN_MODE_OK` (R6, R229). -/
  pinModeOk  : Bool
  /-- `GAIN_INIT`, an integer the construction checks against 0 to 7 (R6, R262). -/
  gainInit   : Int
  chip       : Config
deriving DecidableEq, Repr

/-- The parameters `State.reset` is built from.  R6 leaves them open and offers 4 for the gain.
DESIGN CHOICE, unsafe: log entry 1. -/
def SessionParams.usual : SessionParams where
  csPresent  := false
  irqPresent := true
  rstCfg     := some 0
  pinModeOk  := true
  gainInit   := 4
  chip       := Config.mfrc522

/-- Free value: the second response byte of a read frame once the scripted answers of the environment are used
up, `Draw(chip)` of R15.  Nothing constrains it; the argument numbers the free draws (log entry 3, safe). -/
opaque Config.freeChip : Nat → Byte

/-- Free value: how many passes of a WAIT_FOR_TAG begin before its deadline, beyond the scripted ones.  Every number is one of the
sequences of `Draw(deadline)` R208 allows, and they are all: false so many times, and then true (log entries 3 and 5, safe). -/
opaque Config.freePasses : Nat → Nat

/-- Free value: `Draw(irq)` of a slice wait, R207 (log entry 3, safe). -/
opaque Config.freeIrq : Nat → Bool

/-- Free value: whether the interrupt line's edge came since the last step, R24 and R233 (log entries 3 and 6, safe). -/
opaque Config.freeEdge : Nat → Bool

end Sys2Proof
end

