-- ==== Sys2Proof/Syntax.lean ====
section
/-! DEFINITION. The operations: one constructor for each of the 37 rows of spec/opcode_table.json, in its order
and in its four formats (rules R84 to R94 of spec/30_encoding.md), and the words the port carries. -/

namespace Sys2Proof

/-- The four formats of the opcode table (R94).  An operation word of the host port has format `host`; the other three are
the layers below it, each decoded from the rows of its own format alone.  That a word of those layers can be offered to the
machine by itself is the model's own access port: DESIGN CHOICE, log entry 7. -/
inductive Layer where
  | host
  | bus
  | tag
  | chip
deriving DecidableEq, Repr

/-- One word offered to the machine: its layer and its bytes, first byte first (R84, R86, R80). -/
structure PortWord where
  layer : Layer
  bytes : List Byte
deriving DecidableEq, Repr

/-- The instructions.  Operands whose length the layout fixes are byte lists; `Instr.wellFormed` holds the lengths
(R97), and a meaning given another length rejects the word (D30). -/
inductive Instr where
  -- format HOST: the twenty operations of R85
  | regWrite (addr value : Byte)
  | regRead (addr : Byte)
  | setBits (addr mask : Byte)
  | clearBits (addr mask : Byte)
  | computeCrc (data : List Byte)
  | cardWrite (command : Byte) (data : List Byte)
  | request (mode : Byte)
  | anticoll
  | anticoll2
  | selectTag (uid : List Byte)
  | readId (asNumber : Bool)
  | cardAuth (mode block : Byte) (key uid : List Byte)
  | read (block : Byte)
  | write (block : Byte) (data : List Byte)
  | halt
  | stopCrypto
  | setAntennaGain (gain : Byte)
  | init
  | cleanup
  | waitForTag (timeout : BitVec 16)
  -- format BUS16: the two frames of R80 and R81
  | busWriteFrame (address : BitVec 6) (value : Byte)
  | busReadFrame (address : BitVec 6)
  -- format TAG: the tag command frames of R87
  | tagRequest (mode : Byte)
  | tagAnticoll1
  | tagAnticoll2
  | tagSelect (uid : List Byte) (crcLo crcHi : Byte)
  | tagAuthA (block : Byte) (key uid : List Byte)
  | tagAuthB (block : Byte) (key uid : List Byte)
  | tagRead (block crcLo crcHi : Byte)
  | tagWritePhase1 (block crcLo crcHi : Byte)
  | tagWritePhase2 (data : List Byte) (crcLo crcHi : Byte)
  | tagHalt (crcLo crcHi : Byte)
  -- format CHIPCMD: the command codes the engine writes to the command register (R31, R94)
  | cmdIdle
  | cmdCalcCrc
  | cmdTransceive
  | cmdAuthent
  | cmdSoftReset
deriving DecidableEq, Repr

end Sys2Proof
end

