-- ==== Sys2Proof/WellFormed.lean ====
section
/-! DEFINITION. Which terms of `Instr` an operation word can spell (rules R84, R85, R97 of spec/30_encoding.md):
the `len` operands are one byte, and the key, the data block and the uids have the layout's length. -/

namespace Sys2Proof

/-- `KEY_LEN` of R7. -/
def keyLen : Nat := 6

/-- `BLOCK_LEN` of R7. -/
def blockLen : Nat := 16

/-- `ANTICOLL_LEN` of R7: the uid operand of SELECT_TAG, check byte included. -/
def anticollLen : Nat := 5

/-- The uid operand of CARD_AUTH: the four identifier bytes (R97, R180). -/
def authUidLen : Nat := 4

/-- The lengths R85 and R97 fix. -/
def Instr.wellFormed : Instr → Bool
  | .computeCrc data          => decide (data.length ≤ 255)
  | .cardWrite _ data         => decide (data.length ≤ 255)
  | .selectTag uid            => decide (uid.length = anticollLen)
  | .cardAuth _ _ key uid     => decide (key.length = keyLen) && decide (uid.length = authUidLen)
  | .write _ data             => decide (data.length = blockLen)
  | .tagSelect uid _ _        => decide (uid.length = anticollLen)
  | .tagAuthA _ key uid       => decide (key.length = keyLen) && decide (uid.length = authUidLen)
  | .tagAuthB _ key uid       => decide (key.length = keyLen) && decide (uid.length = authUidLen)
  | .tagWritePhase2 data _ _  => decide (data.length = blockLen)
  | .regWrite _ _       => true
  | .regRead _          => true
  | .setBits _ _        => true
  | .clearBits _ _      => true
  | .request _          => true
  | .anticoll           => true
  | .anticoll2          => true
  | .readId _           => true
  | .read _             => true
  | .halt               => true
  | .stopCrypto         => true
  | .setAntennaGain _   => true
  | .init               => true
  | .cleanup            => true
  | .waitForTag _       => true
  | .busWriteFrame _ _  => true
  | .busReadFrame _     => true
  | .tagRequest _       => true
  | .tagAnticoll1       => true
  | .tagAnticoll2       => true
  | .tagRead _ _ _      => true
  | .tagWritePhase1 _ _ _ => true
  | .tagHalt _ _        => true
  | .cmdIdle            => true
  | .cmdCalcCrc         => true
  | .cmdTransceive      => true
  | .cmdAuthent         => true
  | .cmdSoftReset       => true

end Sys2Proof
end

