-- ==== Sys2Proof/Machine/Operands.lean ====
section
/-! DEFINITION. Every operand form and computed field: address bytes, masks, the gain field, the response bit
length, the UID as bytes and as a number (rules R89 to R93 of spec/30_encoding.md), and the bytes of the tag command frames
(rule R87). -/

namespace Sys2Proof.Machine

open Sys2Proof

/-! ### The bus -/

/-- `addr_byte(a, rd)`: bits 5 to 0 of the address in bits 6 to 1, the direction in bit 7 (R89).  `FRAME_ADDR_MASK` is
0x7E and `FRAME_READ_FLAG` 0x80 (R9). -/
def addrByte (a : Byte) (rd : Bool) : Byte := ((a <<< 1) &&& 0x7E) ||| (if rd then 0x80 else 0x00)

/-- The location an address operand names: its low six bits (R51). -/
def location (a : Byte) : Nat := (a &&& 0x3F).toNat

/-- The byte SET_BITS writes back (R112). -/
def withBits (v mask : Byte) : Byte := v ||| mask

/-- The byte CLEAR_BITS writes back, the complement taken in 8 bits (R113). -/
def withoutBits (v mask : Byte) : Byte := v &&& (0xFF ^^^ mask)

/-! ### The gain -/

/-- The range of `gain` (R97, R200, R230). -/
def gainInRange (g : Int) : Bool := decide (0 ≤ g) && decide (g ≤ 7)

/-- The gain operand of the host port is a byte taken as a two's-complement value (R200). -/
def gainOperand (g : Byte) : Int := g.toInt

/-- The register value of a gain: `gain << 4` (R42, R90). -/
def gainField (g : BitVec 3) : Byte := (g.setWidth 8) <<< 4

/-- The byte one entry of `INIT_SEQ` carries (R201). -/
def initByte (gain : BitVec 3) : InitArg → Byte
  | .literal b => b
  | .gain      => gainField gain

/-! ### The response of the executor -/

/-- `MAX_RESPONSE_BYTES` (R7). -/
def maxResponseBytes : Nat := 16

/-- The response bit length, an integer that may be negative and does not wrap (R91, D16). -/
def responseBits (level lastBits : Byte) : Int :=
  if lastBits ≠ 0 then ((level.toNat : Int) - 1) * 8 + lastBits.toNat else (level.toNat : Int) * 8

/-- The number of bytes drained: clamped above, with no floor (R91, R151, D17). -/
def drainCount (level : Byte) : Nat := min level.toNat maxResponseBytes

/-! ### The UID -/

/-- `CASCADE_TAG` (R9, R165). -/
def cascadeTag : Byte := 0x88

/-- The request byte of READ_ID and of the re-arm, the default `mode` of REQUEST (R101, R165, R205). -/
def requestMode : Byte := 0x26

/-- The first four bytes of a stage response: a 4-byte UID (R165). -/
def uidOfStage (r : List Byte) : List Byte := r.take 4

/-- The 7-byte UID: bytes 1 to 3 of stage 1, then bytes 0 to 3 of stage 2 (R166). -/
def uidOfStages (r1 r2 : List Byte) : List Byte := (r1.drop 1).take 3 ++ r2.take 4

/-- The big-endian number of a byte sequence (R56, R92). -/
def number (u : List Byte) : Nat := u.foldl (fun n b => n * 256 + b.toNat) 0

/-- The number as the result channel carries it: `k`, then a 7-byte field, high byte first (R92, D43). -/
def numberField (k n : Nat) : List Byte :=
  BitVec.ofNat 8 k :: (List.range 7).map fun i => BitVec.ofNat 8 (n / 256 ^ (6 - i))

/-! ### The tag command frames, without their checksum (R87) -/

/-- The select codes of the two anti-collision stages (R161, R162). -/
def selectCode1 : Byte := 0x93
def selectCode2 : Byte := 0x95

/-- The request frame (R160). -/
def requestFrame (mode : Byte) : List Byte := [mode]

/-- An anti-collision frame (R163). -/
def anticollFrame (sel : Byte) : List Byte := [sel, 0x20]

/-- The select frame (R164). -/
def selectBody (uid : List Byte) : List Byte := [0x93, 0x70] ++ uid

/-- The mode bytes for key A and key B (R87, R180). -/
def authKeyA : Byte := 0x60
def authKeyB : Byte := 0x61

/-- The authentication frame, which has no checksum (R180). -/
def authFrame (mode block : Byte) (key uid : List Byte) : List Byte := [mode, block] ++ key ++ uid

/-- The read frame (R181). -/
def readBody (block : Byte) : List Byte := [0x30, block]

/-- The frame of phase 1 of WRITE (R182). -/
def writeBody (block : Byte) : List Byte := [0xA0, block]

/-- The halt frame (R184). -/
def haltBody : List Byte := [0x50, 0x00]

/-- A frame with its checksum, low byte first (R55). -/
def withCrc (body : List Byte) (crc : Byte × Byte) : List Byte := body ++ [crc.1, crc.2]

end Sys2Proof.Machine
end

