-- ==== Sys2Proof/Machine/Bus.lean ====
section
/-! DEFINITION. What the engine puts on the bus and leaves in the chip: the events of a trace (rules R16, R114, R249 of spec/), the
chip's register space as written (rules R30, R50, R51), and what the INIT of construction leaves of both (rules R45, R201,
R263, R264), which the state after reset is made of. -/

namespace Sys2Proof.Machine

open Sys2Proof

/-- The events of a trace (R16, R114, R249).  An `xferWrite` is `W aa vv`, an `xferRead` is `R aa 00 -> rr`
with the byte sent second kept as `tx1`; the response bytes the engine discards are not part of an event (D4, log entry 4). -/
inductive Event where
  | csAssert
  | csRelease
  | xferWrite (tx0 tx1 : Byte)
  | xferRead (tx0 tx1 rx1 : Byte)
  | signalClear
  | signalWait (fired : Bool)
  | logE1
deriving DecidableEq, Repr

/-- One transfer with its chip-select window, when the line is configured (R114). -/
def window (csPresent : Bool) (xfer : Event) : List Event :=
  if csPresent then [.csAssert, xfer, .csRelease] else [xfer]

/-! ### The register space as written -/

/-- The chip's register space as the engine has written it: (location, last byte written) pairs, locations rising, none
twice; a location not listed is one the engine has not written, and it has no value (R30, R50, R51; log entry 10). -/
abbrev Memory := List Host.Cell

/-- The canonical form: locations strictly rising, each below 64 (R51).  A location not listed has no value, so no
entry can equal what an unlisted one reads as. -/
def Memory.wf : Memory → Bool
  | []            => true
  | [c]           => decide (c.1 < 64)
  | c :: d :: m   => decide (c.1 < d.1) && Memory.wf (d :: m)

/-- The last byte written to a location, `none` where nothing has been. -/
def Memory.get (a : Nat) : Memory → Option Byte
  | []     => none
  | c :: m => if c.1 = a then some c.2 else Memory.get a m

/-- Write one location, keeping the form. -/
def Memory.set (a : Nat) (b : Byte) : Memory → Memory
  | []     => [(a, b)]
  | c :: m => if a < c.1 then (a, b) :: c :: m else if c.1 = a then (a, b) :: m else c :: Memory.set a b m

/-! ### The INIT of construction

INIT itself is `init` of Machine/ConfigWait.lean, over a whole state.  The state after reset is data of State.lean, which stands before
every operation, so what INIT leaves there is said here of the bus side alone; Laws/Reset.lean proves the two the same. -/

/-- The bus side of a session: the register space as written, the trace, and how many free answers were taken. -/
structure BusSide where
  chipRegs : Memory
  trace    : List Event
  asked    : Nat
deriving DecidableEq, Repr

/-- A write frame in its window (R110). -/
def busWrite (csPresent : Bool) (addr value : Byte) (b : BusSide) : BusSide :=
  { b with chipRegs := Memory.set (location addr) value b.chipRegs,
           trace := b.trace ++ window csPresent (.xferWrite (addrByte addr false) value) }

/-- A read frame in its window, its answer free, then the write of `SetBits` (R111, R112). -/
def busSet (csPresent : Bool) (addr mask : Byte) (b : BusSide) : BusSide :=
  busWrite csPresent addr (withBits (Config.freeChip b.asked) mask)
    { b with trace := b.trace ++ window csPresent (.xferRead (addrByte addr true) 0x00 (Config.freeChip b.asked)),
             asked := b.asked + 1 }

/-- The entries of `INIT_SEQ`, in order (R201), every answer free. -/
def busInit (csPresent : Bool) (gain : BitVec 3) : List InitEntry → BusSide → BusSide
  | [], b        => b
  | e :: rest, b =>
    busInit csPresent gain rest
      (match e.kind with
        | .write => busWrite csPresent e.addr (initByte gain e.arg) b
        | .set   => busSet csPresent e.addr (initByte gain e.arg) b)

end Sys2Proof.Machine
end

