-- ==== Sys2Proof/Machine/State.lean ====
section
/-! DEFINITION. The state of the machine as plain data (rules R20 to R46 of spec/10_state.md), the results of an
operation (rules R14, R220 of spec/), the reasons a step could stop, and the state after reset
(rules R45, R264). -/

namespace Sys2Proof.Machine

open Sys2Proof

/-- `pstate`, the six values of the state machine over the physical tag (R22). -/
inductive PState where
  | idle
  | requested
  | uidPartial
  | selected
  | authenticated
  | halted
deriving DecidableEq, Repr

/-- The cause table (R220), runtime causes first, then the rejections. -/
inductive Cause where
  | eNone
  | ePollTimeout
  | eChipError
  | eSoftE1
  | eShape
  | eChecksum
  | eAck
  | eNoCrypto
  | missingResetLine
  | pinNamingMode
  | gainRange
  | noInterruptLine
  | unknownOp
deriving DecidableEq, Repr

/-- What an operation hands back on the result channel (the `result` column of R85).  A rejection is a form of its own, so
that the host cannot mistake it for a result with `error = true` (R241). -/
inductive Result where
  /-- none -/
  | done
  /-- REG_READ: the register's value -/
  | value (b : Byte)
  /-- COMPUTE_CRC: `[crc_lo, crc_hi]` -/
  | crc (lo hi : Byte)
  /-- CARD_WRITE, and a tag frame sent by itself: `(error, resp, rlen)` -/
  | executed (error : Bool) (resp : List Byte) (rlen : Int)
  /-- REQUEST: `(error, rlen)` -/
  | answered (error : Bool) (rlen : Int)
  /-- ANTICOLL, ANTICOLL2, READ: `(error, resp)` -/
  | bytes (error : Bool) (resp : List Byte)
  /-- SELECT_TAG, CARD_AUTH, WRITE: `error` -/
  | flag (error : Bool)
  /-- READ_ID: `(false, uid)` -/
  | uid (u : List Byte)
  /-- READ_ID with `as_number`: `(false, number)`, with the number of uid bytes the host port adds (R92) -/
  | number (k : Nat) (n : Nat)
  /-- READ_ID that failed: `(true, none)` -/
  | noUid
  /-- WAIT_FOR_TAG: `fired` -/
  | fired (b : Bool)
  /-- the immediate rejection of the call (R241); its cause says which -/
  | rejected
deriving DecidableEq, Repr

/-- A result with the optional cause of R14, which no rule reads. -/
structure Completion where
  result : Result
  cause  : Cause
deriving DecidableEq, Repr

/-- The environment's part in one pass of WAIT_FOR_TAG: `Draw(deadline)`, ignored where it is not asked, and `Draw(irq)` (R207, R208). -/
structure SliceDraw where
  deadline : Bool
  irq      : Bool
deriving DecidableEq, Repr

/-- The draws (R15), the model's own fields: the answers the environment will give, next first.  Once a list is used up, the
free values of Config answer, and `asked` counts them (log entry 3). -/
structure Env where
  /-- second response bytes of the coming read frames, `Draw(chip)` -/
  chip   : List Byte
  /-- the coming passes of WAIT_FOR_TAG -/
  slices : List SliceDraw
  /-- whether the interrupt line's edge comes before each coming step (R24, R233) -/
  edges  : List Bool
  asked  : Nat
deriving DecidableEq, Repr

/-- A WAIT_FOR_TAG that has begun and not ended (R205; log entry 5). -/
structure Waiting where
  /-- the `timeout` operand, in slices, 0 for none -/
  timeout : BitVec 16
  /-- how many more passes begin before the deadline, of those no script answers: a number, so `Draw(deadline)` is true after finitely many
  passes (R15 (d), R208).  Not looked at when `timeout = 0`. -/
  left    : Nat
deriving DecidableEq, Repr

/-- The state. -/
structure State where
  /-- the chip-specific parameters of R8 and R9, fixed at construction -/
  cfg        : Config
  /-- configuration registers, written once at construction (R23) -/
  csPresent  : Bool
  irqPresent : Bool
  rstCfg     : Nat
  /-- the Authenticated flag (R20) -/
  authed     : Bool
  /-- the antenna gain, 3 bits (R21) -/
  gain       : BitVec 3
  /-- the procedure state (R22) -/
  pstate     : PState
  /-- the wait signal (R24) -/
  signal     : Bool
  /-- the running WAIT_FOR_TAG, if one waits between two steps (R28, R205, R279) -/
  waiting    : Option Waiting
  /-- the command channel: words offered and not yet taken, oldest first (R84, R248) -/
  port       : List PortWord
  /-- the result channel, oldest first (R84) -/
  results    : List Completion
  /-- the trace of bus and signal events, oldest first (R16, R64) -/
  trace      : List Event
  /-- what the engine has written to the chip's registers (R50) -/
  chipRegs   : Memory
  /-- the environment's answers (R15) -/
  env        : Env
deriving DecidableEq, Repr

/-- Reasons a step stops with a fault.  There is none: "Errors are returned as values; nothing traps" (spec/INDEX.md),
and a rejected call is an answer on the result channel (R240, R241).  The type has no value, so no step can fault. -/
inductive Fault where
deriving DecidableEq, Repr

/-- Reasons a step is refused. -/
inductive Refusal where
  /-- Raised by exec for an instruction with no meaning yet; safe.  No arm raises it. -/
  | notModelled (mnemonic : String)
deriving DecidableEq, Repr

/-- An environment none of whose answers is scripted: all are free values. -/
def Env.free : Env where
  chip   := []
  slices := []
  edges  := []
  asked  := 0

/-- The engine's registers as construction sets them, the table of R45, before the INIT of R263: no word offered, no result, no event. -/
def State.beforeInit (p : SessionParams) (env : Env) : State where
  cfg        := p.chip
  csPresent  := p.csPresent
  irqPresent := p.irqPresent
  rstCfg     := p.rstCfg.getD 0
  authed     := false
  gain       := BitVec.ofInt 3 p.gainInit
  pstate     := .idle
  signal     := false
  waiting    := none
  port       := []
  results    := []
  trace      := []
  chipRegs   := []
  env        := env

/-- The state right after the construction of a session with these parameters, the checks of R262 passed and every answer of the chip
free: the registers, and then what one INIT puts on the bus and writes to the chip (R45, R263, R264). -/
def State.constructed (p : SessionParams) : State :=
  let b := busInit p.csPresent (BitVec.ofInt 3 p.gainInit) p.chip.initSeq ⟨[], [], 0⟩
  { State.beforeInit p Env.free with
    trace := b.trace, chipRegs := b.chipRegs, env := { Env.free with asked := b.asked } }

/-- Reset is the construction of a session (R260); the parameters R6 leaves open are log entry 1's. -/
def State.reset : State := State.constructed SessionParams.usual

end Sys2Proof.Machine
end

