-- ==== Sys2Proof/Machine/Flags.lean ====
section
/-! DEFINITION. Every status computation: the masks of the executor and the tests of its status poll, the
error-register test and E1 (rules R141, R146, R149, R150 of spec/42_command_executor.md), the shape tests of the procedures
(rule R88, R183), and the codes of the causes (rule R220). -/

namespace Sys2Proof.Machine

open Sys2Proof

/-! ### The executor's masks and tests -/

/-- `AUTH_IEN`, `AUTH_WAIT`, `TRX_IEN`, `TRX_WAIT`, `ERR_MASK`, `CRYPTO_ON`: the masks the source gives (R9). -/
def authIen  : Byte := 0x12
def authWait : Byte := 0x10
def trxIen   : Byte := 0x77
def trxWait  : Byte := 0x30
def errMask  : Byte := 0x1B
def cryptoOn : Byte := 0x08

/-- `MAX_COMMAND_POLL_ITERS` and `MAX_CRC_POLL_ITERS` (R7). -/
def maxCommandPolls : Nat := 2000
def maxCrcPolls : Nat := 255

/-- Step 1, the interrupt-enable mask; of two equal codes the second assignment wins (R141). -/
def irqEnOf (cfg : Config) (command : Byte) : Byte :=
  if command = cfg.cmdTransceive then trxIen else if command = cfg.cmdAuthent then authIen else 0x00

/-- Step 1, the wait-for pattern (R141). -/
def waitOf (cfg : Config) (command : Byte) : Byte :=
  if command = cfg.cmdTransceive then trxWait else if command = cfg.cmdAuthent then authWait else 0x00

/-- A byte has a bit of the mask set. -/
def anyBit (v mask : Byte) : Bool := decide (v &&& mask ≠ 0)

/-- Step 4, the exit test of the status poll: the timer-expiry bit, or any bit of the wait-for pattern (R146, D12). -/
def commandDone (cfg : Config) (wait n : Byte) : Bool := anyBit n cfg.irqTimer || anyBit n wait

/-- The exit test of the CRC poll (R131). -/
def crcFlag (cfg : Config) (n : Byte) : Bool := anyBit n cfg.crcDone

/-- Step 7, a fault of the error register (R149). -/
def chipError (e : Byte) : Bool := anyBit e errMask

/-- Step 8, the soft warning: the bit is in the observed byte and among the enabled interrupts (R150, D14). -/
def softE1 (cfg : Config) (irqEn n : Byte) : Bool := decide (n &&& irqEn &&& cfg.e1Mask ≠ 0)

/-- The crypto-unit-active confirmation in the status register (R36, R180). -/
def cryptoActive (s : Byte) : Bool := anyBit s cryptoOn

/-! ### The executor's result and the tests of the procedures -/

/-- The universal result: `(error, resp, rlen, cause)` (R14, R152). -/
structure Exec where
  error : Bool
  resp  : List Byte
  rlen  : Int
  cause : Cause
deriving DecidableEq, Repr

/-- A hard failure of the executor: error with empty response (R148, R149, D15). -/
def failed (c : Cause) : Exec := ⟨true, [], 0, c⟩

/-- A procedure's own test failed.  An error the executor already reported keeps its cause (R239). -/
def failWith (c : Cause) (r : Exec) : Exec :=
  { r with error := true, cause := if r.error then r.cause else c }

/-- REQUEST and SELECT_TAG: exactly this response bit length (R160, R164, R224). -/
def requireBits (bits : Int) (r : Exec) : Exec :=
  if r.error then r else if r.rlen = bits then r else failWith .eShape r

/-- READ: exactly 16 response bytes, tested whatever the executor reported (R181, R88). -/
def requireBlock (r : Exec) : Exec := if r.resp.length = blockLen then r else failWith .eShape r

/-- The anti-collision check byte is the exclusive or of the four before it (R93, R163). -/
def checkByteGood (resp : List Byte) : Bool :=
  decide (resp.getD 0 0 ^^^ resp.getD 1 0 ^^^ resp.getD 2 0 ^^^ resp.getD 3 0 = resp.getD 4 0)

/-- ANTICOLL: length before checksum, both only when the executor reported no error (R163, R239). -/
def requireUid (r : Exec) : Exec :=
  if r.error then r
  else if r.resp.length = anticollLen then
    if checkByteGood r.resp then r else failWith .eChecksum r
  else failWith .eShape r

/-- `ACK_NIBBLE` (R9) in the low nibble of the first response byte (R93). -/
def ackNibble (resp : List Byte) : Bool := decide (resp.getD 0 0 &&& 0x0F = 0x0A)

/-- The acknowledge test of WRITE: `rlen = 4` and a byte drained, then the nibble (R183, R226, R239). -/
def requireAck (r : Exec) : Exec :=
  if r.error then r
  else if r.rlen = 4 ∧ r.resp ≠ [] then
    if ackNibble r.resp then r else failWith .eAck r
  else failWith .eShape r

/-- CARD_AUTH: the crypto bit of the status byte, applied after the executor (R180, R227, R239). -/
def requireCrypto (status : Byte) (r : Exec) : Exec := if cryptoActive status then r else failWith .eNoCrypto r

/-- The numeric codes of the cause table (R220). -/
def causeCode : Cause → Nat
  | .eNone            => 0
  | .ePollTimeout     => 1
  | .eChipError       => 2
  | .eSoftE1          => 3
  | .eShape           => 4
  | .eChecksum        => 5
  | .eAck             => 6
  | .eNoCrypto        => 7
  | .missingResetLine => 16
  | .pinNamingMode    => 17
  | .gainRange        => 18
  | .noInterruptLine  => 32
  | .unknownOp        => 33

end Sys2Proof.Machine
end

