-- ==== Sys2Proof/Machine/Ops.lean ====
section
/-! DEFINITION. The named operations every meaning is written over: the draws, the bus transaction and the four register accesses (spec/40_register_access.md), the bounded poll (rules R131 and
R146), the completion of an operation, and the immediate rejection, which stands where a processor takes an exception
(rules R240, R241, R243 of spec/60_exceptions.md: nothing is entered, so there is no return from it). -/

namespace Sys2Proof.Machine

open Sys2Proof

/-! ### Draws and events -/

/-- `Draw(chip)`: the next scripted answer, or a free value (R15). -/
def drawChip (s : State) : Byte × State :=
  match s.env.chip with
  | b :: rest => (b, { s with env := { s.env with chip := rest } })
  | []        => (Config.freeChip s.env.asked, { s with env := { s.env with asked := s.env.asked + 1 } })

/-- Put events on the trace, in order (R16). -/
def emit (evs : List Event) (s : State) : State := { s with trace := s.trace ++ evs }

/-! ### Register access -/

/-- `RegWrite(addr, value)`: one write frame, both response bytes discarded (R110, R80). -/
def regWrite (addr value : Byte) (s : State) : State :=
  emit (window s.csPresent (.xferWrite (addrByte addr false) value))
    { s with chipRegs := Memory.set (location addr) value s.chipRegs }

/-- `RegRead(addr)`: one read frame; the second response byte is the value (R111, R81, R82). -/
def regRead (addr : Byte) (s : State) : Byte × State :=
  let r := drawChip s
  (r.1, emit (window s.csPresent (.xferRead (addrByte addr true) 0x00 r.1)) r.2)

/-- `SetBits(addr, mask)`: one read, then one write, always both (R112, D10). -/
def setBits (addr mask : Byte) (s : State) : State :=
  let r := regRead addr s
  regWrite addr (withBits r.1 mask) r.2

/-- `ClearBits(addr, mask)` (R113, D10). -/
def clearBits (addr mask : Byte) (s : State) : State :=
  let r := regRead addr s
  regWrite addr (withoutBits r.1 mask) r.2

/-- One `RegWrite` per byte, in order: the payload loops (R102, R130, R144). -/
def writeAll (addr : Byte) : List Byte → State → State
  | [], s        => s
  | b :: rest, s => writeAll addr rest (regWrite addr b s)

/-- `count` reads of one register, in order: the drain loop (R102, R151). -/
def readAll (addr : Byte) : Nat → State → List Byte × State
  | 0, s         => ([], s)
  | count + 1, s =>
    let r := regRead addr s
    let t := readAll addr count r.2
    (r.1 :: t.1, t.2)

/-! ### The bounded poll -/

/-- The working registers of a poll loop: the last byte read, the reads made, and whether the exit test passed (R26). -/
structure Poll where
  n         : Byte
  pollI     : Nat
  completed : Bool
deriving DecidableEq, Repr

/-- At most `left` more reads; the first that passes the test ends the loop as completed, the last allowed one too (R131,
R146, D11, D18). -/
def pollLoop (addr : Byte) (stop : Byte → Bool) : Nat → Poll → State → Poll × State
  | 0, p, s        => (p, s)
  | left + 1, p, s =>
    let r := regRead addr s
    if stop r.1 then (⟨r.1, p.pollI + 1, true⟩, r.2)
    else pollLoop addr stop left ⟨r.1, p.pollI + 1, false⟩ r.2

/-- A poll of at most `budget` reads from its start. -/
def poll (addr : Byte) (stop : Byte → Bool) (budget : Nat) (s : State) : Poll × State :=
  pollLoop addr stop budget ⟨0x00, 0, false⟩ s

/-! ### How an operation ends -/

/-- An operation completes: its result goes to the result channel (R84, R240). -/
def complete (r : Result) (c : Cause) (s : State) : State := { s with results := s.results ++ [⟨r, c⟩] }

/-- The immediate rejection of a call, in place of a result: no transaction, no register changed (R231, R241). -/
def reject (c : Cause) (s : State) : State := complete .rejected c s

/-- `authed <- b` (R20). -/
def setAuthed (b : Bool) (s : State) : State := { s with authed := b }

/-- `pstate <- p` (R22). -/
def setPState (p : PState) (s : State) : State := { s with pstate := p }

/-- `gain <- g` (R21). -/
def setGain (g : BitVec 3) (s : State) : State := { s with gain := g }

/-- `signal <- b` (R24). -/
def setSignal (b : Bool) (s : State) : State := { s with signal := b }

/-! ### The interrupt line -/

/-- The line's edge, if one came since the last step, sets the signal; it exists only when the line is configured and it
does not count (R24, R233, R236). -/
def sampleLine (s : State) : State :=
  if s.irqPresent then
    match s.env.edges with
    | e :: rest => { s with signal := s.signal || e, env := { s.env with edges := rest } }
    | []        => { s with signal := s.signal || Config.freeEdge s.env.asked,
                            env := { s.env with asked := s.env.asked + 1 } }
  else s

end Sys2Proof.Machine
end

