-- ==== Sys2Proof/Machine/Crc.lean ====
section
/-! DEFINITION. The CRC engine: COMPUTE_CRC (rules R130 to R136 of spec/41_crc_engine.md). -/

namespace Sys2Proof.Machine

open Sys2Proof Host

/-- Clear the done flag, flush the FIFO, push the bytes, issue the command (R130). -/
def crcStart (data : List Byte) (s : State) : State :=
  regWrite s.cfg.aCommand s.cfg.cmdCalcCrc
    (writeAll s.cfg.aFifoData data
      (setBits s.cfg.aFifoLevel s.cfg.fifoFlush
        (clearBits s.cfg.aDivIrq s.cfg.crcDone s)))

/-- The CRC poll (R131). -/
def crcPoll (s : State) : Poll × State := poll s.cfg.aDivIrq (crcFlag s.cfg) maxCrcPolls s

/-- The two result bytes, low first, read whether or not the flag was seen (R132, R133). -/
def crcResult (s : State) : (Byte × Byte) × State :=
  let lo := regRead s.cfg.aCrcResultLo s
  let hi := regRead s.cfg.aCrcResultHi lo.2
  ((lo.1, hi.1), hi.2)

/-- `ComputeCrc(data)` (R130). -/
def computeCrc (data : List Byte) (s : State) : (Byte × Byte) × State := crcResult (crcPoll (crcStart data s)).2

/-- COMPUTE_CRC (R130): `[crc_lo, crc_hi]`, and never an error (R133, D19). -/
def execComputeCrc (data : List Byte) (s : State) : Outcome State Fault Refusal :=
  let r := computeCrc data s
  .next (complete (.crc r.1.1 r.1.2) .eNone r.2)

end Sys2Proof.Machine
end

