-- ==== Sys2Proof/Machine/Executor.lean ====
section
/-! DEFINITION. The command executor: CARD_WRITE, its nine steps (rules R140 to R155 of
spec/42_command_executor.md). -/

namespace Sys2Proof.Machine

open Sys2Proof Host

/-- Step 2: enable, clear the pending flag, flush, idle, payload, command (R142 to R144). -/
def issueCommand (command : Byte) (data : List Byte) (s : State) : State :=
  regWrite s.cfg.aCommand command
    (writeAll s.cfg.aFifoData data
      (regWrite s.cfg.aCommand s.cfg.cmdIdle
        (setBits s.cfg.aFifoLevel s.cfg.fifoFlush
          (clearBits s.cfg.aIrq s.cfg.irqClearMask
            (regWrite s.cfg.aIrqEn (irqEnOf s.cfg command ||| s.cfg.ienOr) s)))))

/-- Step 3: start-send, for transceive alone (R145). -/
def startSend (command : Byte) (s : State) : State :=
  if command = s.cfg.cmdTransceive then setBits s.cfg.aBitFraming s.cfg.startSend s else s

/-- Step 4: the status poll (R146). -/
def commandPoll (command : Byte) (s : State) : Poll × State :=
  poll s.cfg.aIrq (commandDone s.cfg (waitOf s.cfg command)) maxCommandPolls s

/-- Step 5: clear start-send, for every command (R147).  D15 names an idle write among 'the trailing writes of step 5'; the rules R140,
R147, R153, R155 and the vectors have none, and none is made (DEDUCED, unsafe: log entry 20). -/
def stopSend (s : State) : State := clearBits s.cfg.aBitFraming s.cfg.startSend s

/-- Step 9: level, control, then the bytes, for transceive alone (R151, D45, D46). -/
def drain (command : Byte) (s : State) : (List Byte × Int) × State :=
  if command = s.cfg.cmdTransceive then
    let level := regRead s.cfg.aFifoLevel s
    let control := regRead s.cfg.aControl level.2
    let lastBits := control.1 &&& s.cfg.lastBitsMask
    let resp := readAll s.cfg.aFifoData (drainCount level.1) control.2
    ((resp.1, responseBits level.1 lastBits), resp.2)
  else (([], 0), s)

/-- Steps 8 and 9, after an error register without a fault (R150, R151).  The warning is logged before the drain. -/
def warnAndDrain (command n : Byte) (s : State) : Exec × State :=
  let e1 := softE1 s.cfg (irqEnOf s.cfg command) n
  let d := drain command (if e1 then emit [.logE1] s else s)
  (⟨e1, d.1.1, d.1.2, if e1 then .eSoftE1 else .eNone⟩, d.2)

/-- Steps 6 to 9: exhaustion, the error register, the warning and the drain, in this priority (R148 to R151, R238). -/
def inspect (command : Byte) (p : Poll) (s : State) : Exec × State :=
  if p.completed then
    let e := regRead s.cfg.aError s
    if chipError e.1 then (failed .eChipError, e.2) else warnAndDrain command p.n e.2
  else (failed .ePollTimeout, s)

/-- `CardWrite(command, data)` (R140). -/
def cardWrite (command : Byte) (data : List Byte) (s : State) : Exec × State :=
  let p := commandPoll command (startSend command (issueCommand command data s))
  inspect command p.1 (stopSend p.2)

/-- CARD_WRITE (R140, R152): `(error, resp, rlen)` with its cause. -/
def execCardWrite (command : Byte) (data : List Byte) (s : State) : Outcome State Fault Refusal :=
  let r := cardWrite command data s
  .next (complete (.executed r.1.error r.1.resp r.1.rlen) r.1.cause r.2)

end Sys2Proof.Machine
end

