-- ==== Sys2Proof/Machine/Uid.lean ====
section
/-! DEFINITION. The UID sequencer: REQUEST, ANTICOLL, ANTICOLL2, SELECT_TAG, READ_ID (rules R160 to R169 of
spec/43_uid_sequencer.md). -/

namespace Sys2Proof.Machine

open Sys2Proof Host

/-- Run a frame by the transceive command (R86). -/
def transceive (frame : List Byte) (s : State) : Exec × State := cardWrite s.cfg.cmdTransceive frame s

/-- A frame with its checksum: compute it, append it, transceive (R55, R86, R87). -/
def transceiveWithCrc (body : List Byte) (s : State) : Exec × State :=
  let crc := computeCrc body s
  transceive (withCrc body crc.1) crc.2

/-- `pstate` moves on success only, from any value (R22, R168). -/
def advance (p : PState) (r : Exec × State) : Exec × State :=
  if r.1.error then r else (r.1, setPState p r.2)

/-- The request frame under 7-bit framing, and the test of its answer (R88, R160). -/
def sendRequest (mode : Byte) (s : State) : Exec × State :=
  let r := transceive (requestFrame mode) (regWrite s.cfg.aBitFraming s.cfg.framing7bit s)
  (requireBits 16 r.1, r.2)

/-- An anti-collision frame under full-byte framing, and the test of its answer (R88, R163). -/
def sendAnticoll (sel : Byte) (s : State) : Exec × State :=
  let r := transceive (anticollFrame sel) (regWrite s.cfg.aBitFraming s.cfg.framingFull s)
  (requireUid r.1, r.2)

/-- `Request(mode)` (R160). -/
def request (mode : Byte) (s : State) : Exec × State := advance .requested (sendRequest mode s)

/-- `AnticollBody(sel)` (R163). -/
def anticollBody (sel : Byte) (s : State) : Exec × State := advance .uidPartial (sendAnticoll sel s)

/-- `SelectTag(uid)` (R164). -/
def selectTag (uid : List Byte) (s : State) : Exec × State :=
  let r := transceiveWithCrc (selectBody uid) s
  advance .selected (requireBits 24 r.1, r.2)

/-- The result of READ_ID: bytes, or the number of the same bytes (R165, R92). -/
def uidResult (asNumber : Bool) (uid : List Byte) : Result :=
  if asNumber then .number uid.length (number uid) else .uid uid

/-- READ_ID after a first stage that began with the cascade tag: select, second stage, seven bytes (R165, R166). -/
def readCascade (asNumber : Bool) (uid1 : List Byte) (s : State) : State :=
  let sel := selectTag uid1 s
  if sel.1.error then complete .noUid sel.1.cause sel.2
  else
    let st2 := anticollBody selectCode2 sel.2
    if st2.1.error then complete .noUid st2.1.cause st2.2
    else complete (uidResult asNumber (uidOfStages uid1 st2.1.resp)) .eNone st2.2

/-- `ReadId(as_number)`: the first failing step ends it (R165, D23, D24). -/
def readId (asNumber : Bool) (s : State) : State :=
  let req := request requestMode s
  if req.1.error then complete .noUid req.1.cause req.2
  else
    let st1 := anticollBody selectCode1 req.2
    if st1.1.error then complete .noUid st1.1.cause st1.2
    else if st1.1.resp.getD 0 0 = cascadeTag then readCascade asNumber st1.1.resp st1.2
    else complete (uidResult asNumber (uidOfStage st1.1.resp)) .eNone st1.2

/-- REQUEST (R160): `(false, 16)` or `(true, 0)`; the two answer bytes are dropped (D20). -/
def execRequest (mode : Byte) (s : State) : Outcome State Fault Refusal :=
  let r := request mode s
  .next (complete (.answered r.1.error (if r.1.error then 0 else r.1.rlen)) r.1.cause r.2)

/-- ANTICOLL (R161): `(error, resp)`, the bytes also with an error (D21). -/
def execAnticoll (s : State) : Outcome State Fault Refusal :=
  let r := anticollBody selectCode1 s
  .next (complete (.bytes r.1.error r.1.resp) r.1.cause r.2)

/-- ANTICOLL2 (R162). -/
def execAnticoll2 (s : State) : Outcome State Fault Refusal :=
  let r := anticollBody selectCode2 s
  .next (complete (.bytes r.1.error r.1.resp) r.1.cause r.2)

/-- SELECT_TAG (R164): `error`; a uid of another length than five is rejected with no transaction (R97, D30). -/
def execSelectTag (uid : List Byte) (s : State) : Outcome State Fault Refusal :=
  if uid.length = anticollLen then
    let r := selectTag uid s
    .next (complete (.flag r.1.error) r.1.cause r.2)
  else .next (reject .unknownOp s)

/-- READ_ID (R165). -/
def execReadId (asNumber : Bool) (s : State) : Outcome State Fault Refusal := .next (readId asNumber s)

end Sys2Proof.Machine
end

