-- ==== Sys2Proof/Machine/AuthBlock.lean ====
section
/-! DEFINITION. Sector authentication and block access: CARD_AUTH, READ, WRITE, HALT, STOP_CRYPTO (rules R180
to R187 of spec/44_auth_block_rw.md). -/

namespace Sys2Proof.Machine

open Sys2Proof Host

/-- The authentication frame by the authenticate command, then one read of the status register whatever the executor
reported (R180, D26). -/
def sendAuth (mode block : Byte) (key uid : List Byte) (s : State) : Exec × State :=
  let r := cardWrite s.cfg.cmdAuthent (authFrame mode block key uid) s
  let st := regRead r.2.cfg.aStatus r.2
  (requireCrypto st.1 r.1, st.2)

/-- `CardAuth(mode, block, key, uid)`: `authed` and `pstate` on success only (R180, D27). -/
def cardAuth (mode block : Byte) (key uid : List Byte) (s : State) : Exec × State :=
  let r := sendAuth mode block key uid s
  if r.1.error then r else (r.1, setPState .authenticated (setAuthed true r.2))

/-- `Read(block)` (R181). -/
def readBlock (block : Byte) (s : State) : Exec × State :=
  let r := transceiveWithCrc (readBody block) s
  (requireBlock r.1, r.2)

/-- One phase of WRITE: a frame with its checksum and the acknowledge test (R182, R183). -/
def writePhase (body : List Byte) (s : State) : Exec × State :=
  let r := transceiveWithCrc body s
  (requireAck r.1, r.2)

/-- `Write(block, data)`: phase 2 only when phase 1 was acknowledged (R182, R186). -/
def writeBlock (block : Byte) (data : List Byte) (s : State) : Exec × State :=
  let p1 := writePhase (writeBody block) s
  if p1.1.error then p1 else writePhase data p1.2

/-- `Halt()`: checksum, clear of the crypto bit, transceive with the response ignored, then the two registers (R184). -/
def halt (s : State) : State :=
  let crc := computeCrc haltBody s
  let clr := clearBits crc.2.cfg.aStatus cryptoOn crc.2
  let r := transceive (withCrc haltBody crc.1) clr
  setPState .halted (setAuthed false r.2)

/-- `StopCrypto()` (R185): Authenticated falls back to Selected, every other value stays (D32). -/
def stopCrypto (s : State) : State :=
  let c := setAuthed false (clearBits s.cfg.aStatus cryptoOn s)
  if c.pstate = .authenticated then setPState .selected c else c

/-- CARD_AUTH (R180): `error`; a key or uid of another length is rejected with no transaction (R97, D30). -/
def execCardAuth (mode block : Byte) (key uid : List Byte) (s : State) : Outcome State Fault Refusal :=
  if key.length = keyLen ∧ uid.length = authUidLen then
    let r := cardAuth mode block key uid s
    .next (complete (.flag r.1.error) r.1.cause r.2)
  else .next (reject .unknownOp s)

/-- READ (R181): `(error, resp)`.  `authed` is not checked (U1). -/
def execRead (block : Byte) (s : State) : Outcome State Fault Refusal :=
  let r := readBlock block s
  .next (complete (.bytes r.1.error r.1.resp) r.1.cause r.2)

/-- WRITE (R182): `error`; data of another length than sixteen is rejected with no transaction (R97, D30). -/
def execWrite (block : Byte) (data : List Byte) (s : State) : Outcome State Fault Refusal :=
  if data.length = blockLen then
    let r := writeBlock block data s
    .next (complete (.flag r.1.error) r.1.cause r.2)
  else .next (reject .unknownOp s)

/-- HALT (R184): no result, and no failure. -/
def execHalt (s : State) : Outcome State Fault Refusal := .next (complete .done .eNone (halt s))

/-- STOP_CRYPTO (R185): no result. -/
def execStopCrypto (s : State) : Outcome State Fault Refusal := .next (complete .done .eNone (stopCrypto s))

end Sys2Proof.Machine
end

