-- ==== Sys2Proof/Machine/ChipCommands.lean ====
section
/-! DEFINITION. The chip command codes issued by themselves (rules R8, R31, R94; format CHIPCMD of the opcode table): the
engine's part is one write of the code to the command register.  What the chip then does is the chip's (R5, R30). -/

namespace Sys2Proof.Machine

open Sys2Proof Host

/-- One whole-byte write to the command register (R31). -/
def issueCode (code : Byte) (s : State) : Outcome State Fault Refusal :=
  .next (complete .done .eNone (regWrite s.cfg.aCommand code s))

/-- CMD_IDLE (R31, R143). -/
def execCmdIdle (s : State) : Outcome State Fault Refusal := issueCode s.cfg.cmdIdle s

/-- CMD_CALC_CRC (R31, R130). -/
def execCmdCalcCrc (s : State) : Outcome State Fault Refusal := issueCode s.cfg.cmdCalcCrc s

/-- CMD_TRANSCEIVE (R31, R205). -/
def execCmdTransceive (s : State) : Outcome State Fault Refusal := issueCode s.cfg.cmdTransceive s

/-- CMD_AUTHENT (R31, R144). -/
def execCmdAuthent (s : State) : Outcome State Fault Refusal := issueCode s.cfg.cmdAuthent s

/-- CMD_SOFT_RESET (R31, R203). -/
def execCmdSoftReset (s : State) : Outcome State Fault Refusal := issueCode s.cfg.cmdSoftReset s

end Sys2Proof.Machine
end

