-- ==== Sys2Proof/Machine/ConfigWait.lean ====
section
/-! DEFINITION. SET_ANTENNA_GAIN, INIT, CLEANUP, WAIT_FOR_TAG (rules R200 to R210 of spec/45_config_and_wait.md),
and the construction of a session (rules R260 to R264 of spec/70_reset_and_hazards.md). -/

namespace Sys2Proof.Machine

open Sys2Proof Host

/-! ### INIT -/

/-- One entry of `INIT_SEQ` (R201). -/
def initStep (e : InitEntry) (s : State) : State :=
  match e.kind with
  | .write => regWrite e.addr (initByte s.gain e.arg) s
  | .set   => setBits e.addr (initByte s.gain e.arg) s

/-- Entries of `INIT_SEQ`, in order (R201). -/
def initSteps : List InitEntry → State → State
  | [], s        => s
  | e :: rest, s => initSteps rest (initStep e s)

/-- `Init()` (R201): no engine register changes. -/
def init (s : State) : State := initSteps s.cfg.initSeq s

/-! ### The wait -/

/-- The re-arm of one pass: INIT, the request byte, the command, the framing (R205, R209). -/
def rearm (s : State) : State :=
  let i := init s
  regWrite i.cfg.aBitFraming i.cfg.waitFraming
    (regWrite i.cfg.aCommand i.cfg.cmdTransceive
      (regWrite i.cfg.aFifoData requestMode i))

/-- `SignalWait`: the line may set the signal, which is not cleared; what it then holds is the answer (R207). -/
def signalWait (irq : Bool) (s : State) : State :=
  emit [.signalWait (s.signal || irq)] (setSignal (s.signal || irq) s)

/-- The end of WAIT_FOR_TAG: "always re-initializes the chip on return" (R205). -/
def finishWait (fired : Bool) (s : State) : State :=
  complete (.fired fired) .eNone { init s with waiting := none }

/-- The loop of WAIT_FOR_TAG over the environment's scripted passes: deadline first, never asked when `timeout = 0`, then
the re-arm and the slice wait (R205, R207, R208).  When the script ends before the loop does, the operation goes on waiting, with
`left` more passes before its deadline (R279; log entry 5). -/
def waitLoop (timeout : BitVec 16) (left : Nat) : List SliceDraw → State → State
  | [], s        => { s with waiting := some ⟨timeout, left⟩, env := { s.env with slices := [] } }
  | d :: rest, s =>
    let t := { s with env := { s.env with slices := rest } }
    if timeout ≠ 0 ∧ d.deadline then finishWait false t
    else
      let w := signalWait d.irq (rearm t)
      if w.signal then finishWait true w else waitLoop timeout left rest w

/-- Before the loop: INIT, the one clear of the signal, then the two enabling writes (R205, D36). -/
def waitPrologue (s : State) : State :=
  let i := emit [.signalClear] (setSignal false (init s))
  regWrite i.cfg.aIrqEn i.cfg.waitIen (regWrite i.cfg.aIrq i.cfg.waitIrqClear i)

/-- The wait begins: the prologue, then the passes, the number of those the script does not answer being a free value (R15 (d), R208). -/
def beginWait (timeout : BitVec 16) (s : State) : State :=
  let p := waitPrologue { s with env := { s.env with asked := s.env.asked + 1 } }
  waitLoop timeout (Config.freePasses s.env.asked) p.env.slices p

/-- The draws of the next pass of a waiting operation that no script answers: the deadline has passed when no pass is left before it, and
the edge is a free value (R207, R208). -/
def nextPass (w : Waiting) (s : State) : SliceDraw := ⟨decide (w.left = 0), Config.freeIrq s.env.asked⟩

/-- A waiting operation goes on: the passes the environment has answered since, or else one more (R15, R208). -/
def resumeWait (w : Waiting) (s : State) : State :=
  match s.env.slices with
  | [] => waitLoop w.timeout (w.left - 1) [nextPass w s] { s with env := { s.env with asked := s.env.asked + 1 } }
  | ds => waitLoop w.timeout w.left ds s

/-! ### The operations -/

/-- SET_ANTENNA_GAIN (R200): out of range, the rejection before any transaction; else the register and the chip (D33). -/
def execSetAntennaGain (gain : Byte) (s : State) : Outcome State Fault Refusal :=
  if gainInRange (gainOperand gain) then
    let g := setGain (gain.setWidth 3) s
    .next (complete .done .eNone (regWrite g.cfg.aRfCfg (gainField g.gain) g))
  else .next (reject .gainRange s)

/-- INIT (R201): no result. -/
def execInit (s : State) : Outcome State Fault Refusal := .next (complete .done .eNone (init s))

/-- CLEANUP (R204): STOP_CRYPTO when `authed`, else nothing. -/
def execCleanup (s : State) : Outcome State Fault Refusal :=
  .next (complete .done .eNone (if s.authed then stopCrypto s else s))

/-- WAIT_FOR_TAG (R205): without an interrupt line the rejection before any transaction (R206). -/
def execWaitForTag (timeout : BitVec 16) (s : State) : Outcome State Fault Refusal :=
  .next (if s.irqPresent then beginWait timeout s else reject .noInterruptLine s)

/-! ### Construction -/

/-- The thirteen addresses of the rules' roles (R8, R53, R63). -/
def addressRoles (c : Config) : List Byte :=
  [c.aCommand, c.aIrqEn, c.aIrq, c.aDivIrq, c.aError, c.aStatus, c.aFifoData, c.aFifoLevel, c.aControl, c.aBitFraming,
   c.aCrcResultLo, c.aCrcResultHi, c.aRfCfg]

/-- A configuration a model accepts: the addresses pairwise different and below 0x40 (R63, D5), the two commands told
apart (R141, D6), and the gain given back by INIT (R201). -/
def configValid (c : Config) : Bool :=
  decide ((addressRoles c).map location).Nodup && (addressRoles c).all (fun a => decide (a.toNat < 0x40)) &&
    decide (c.cmdAuthent ≠ c.cmdTransceive) && c.initSeq.contains ⟨.write, c.aRfCfg, .gain⟩

/-- What constructing a session comes to. -/
inductive Construction where
  /-- a session exists, and its chip has been initialised (R263) -/
  | session (s : State)
  /-- a configuration error: no session, no transaction (R228 to R230, R262) -/
  | rejected (c : Cause)
  /-- the model refuses the chip's parameters (R63, R141, R201): no session -/
  | unusable
deriving DecidableEq, Repr

/-- The construction of a session: the three checks in their order, the registers, then INIT (R260, R262, R263). -/
def construct (p : SessionParams) (env : Env) : Construction :=
  match p.rstCfg with
  | none => .rejected .missingResetLine
  | some _ =>
    if ¬ p.pinModeOk then .rejected .pinNamingMode
    else if ¬ gainInRange p.gainInit then .rejected .gainRange
    else if ¬ configValid p.chip then .unusable
    else .session (init (State.beforeInit p env))

end Sys2Proof.Machine
end

