-- ==== Sys2Proof/Machine/RegisterAccess.lean ====
section
/-! DEFINITION. REG_WRITE, REG_READ, SET_BITS, CLEAR_BITS (rules R110 to R113 of spec/40_register_access.md), and the
two bus frames sent by themselves (rules R80, R81 of spec/30_encoding.md). -/

namespace Sys2Proof.Machine

open Sys2Proof Host

/-- REG_WRITE (R110): no result. -/
def execRegWrite (addr value : Byte) (s : State) : Outcome State Fault Refusal :=
  .next (complete .done .eNone (regWrite addr value s))

/-- REG_READ (R111): the value read. -/
def execRegRead (addr : Byte) (s : State) : Outcome State Fault Refusal :=
  .next (complete (.value (regRead addr s).1) .eNone (regRead addr s).2)

/-- SET_BITS (R112): no result. -/
def execSetBits (addr mask : Byte) (s : State) : Outcome State Fault Refusal :=
  .next (complete .done .eNone (setBits addr mask s))

/-- CLEAR_BITS (R113): no result. -/
def execClearBits (addr mask : Byte) (s : State) : Outcome State Fault Refusal :=
  .next (complete .done .eNone (clearBits addr mask s))

/-- A write frame is one transaction whose answer is ignored (R80, R82). -/
def execBusWriteFrame (address : BitVec 6) (value : Byte) (s : State) : Outcome State Fault Refusal :=
  .next (complete .done .eNone (regWrite (address.setWidth 8) value s))

/-- A read frame is one transaction; byte 1 of its answer is the value (R81, R82). -/
def execBusReadFrame (address : BitVec 6) (s : State) : Outcome State Fault Refusal :=
  .next (complete (.value (regRead (address.setWidth 8) s).1) .eNone (regRead (address.setWidth 8) s).2)

end Sys2Proof.Machine
end

