-- ==== Sys2Proof/Machine/TagFrames.lean ====
section
/-! DEFINITION. The tag command frames sent by themselves (rules R86 to R88 of spec/30_encoding.md; format TAG of the
opcode table): the frame, its checksum bytes as given, goes out under the framing its sender sets and by the chip command
of its row, and its answer is tested as rule R88 says.  A frame is no operation of rule R168, so `pstate` and `authed`
stay: log entry 7. -/

namespace Sys2Proof.Machine

open Sys2Proof Host

/-- The answer to a frame: the executor's triple after the test of R88. -/
def answerFrame (r : Exec × State) : Outcome State Fault Refusal :=
  .next (complete (.executed r.1.error r.1.resp r.1.rlen) r.1.cause r.2)

/-- TAG_REQUEST: 7-bit framing, 16 response bits (R87, R88, R160). -/
def execTagRequest (mode : Byte) (s : State) : Outcome State Fault Refusal := answerFrame (sendRequest mode s)

/-- TAG_ANTICOLL_1: full-byte framing, five bytes with their check byte (R87, R88, R161). -/
def execTagAnticoll1 (s : State) : Outcome State Fault Refusal := answerFrame (sendAnticoll selectCode1 s)

/-- TAG_ANTICOLL_2 (R87, R88, R162). -/
def execTagAnticoll2 (s : State) : Outcome State Fault Refusal := answerFrame (sendAnticoll selectCode2 s)

/-- TAG_SELECT: framing inherited, 24 response bits (R87, R88, R164). -/
def execTagSelect (uid : List Byte) (crcLo crcHi : Byte) (s : State) : Outcome State Fault Refusal :=
  if uid.length = anticollLen then
    let r := transceive (withCrc (selectBody uid) (crcLo, crcHi)) s
    answerFrame (requireBits 24 r.1, r.2)
  else .next (reject .unknownOp s)

/-- TAG_AUTH_A: the authenticate command, then the crypto bit (R87, R88, R180). -/
def execTagAuthA (block : Byte) (key uid : List Byte) (s : State) : Outcome State Fault Refusal :=
  if key.length = keyLen ∧ uid.length = authUidLen then answerFrame (sendAuth authKeyA block key uid s)
  else .next (reject .unknownOp s)

/-- TAG_AUTH_B (R87, R88, R180). -/
def execTagAuthB (block : Byte) (key uid : List Byte) (s : State) : Outcome State Fault Refusal :=
  if key.length = keyLen ∧ uid.length = authUidLen then answerFrame (sendAuth authKeyB block key uid s)
  else .next (reject .unknownOp s)

/-- TAG_READ: sixteen response bytes (R87, R88, R181). -/
def execTagRead (block crcLo crcHi : Byte) (s : State) : Outcome State Fault Refusal :=
  let r := transceive (withCrc (readBody block) (crcLo, crcHi)) s
  answerFrame (requireBlock r.1, r.2)

/-- TAG_WRITE_PHASE1: the acknowledge (R87, R88, R182, R183). -/
def execTagWritePhase1 (block crcLo crcHi : Byte) (s : State) : Outcome State Fault Refusal :=
  let r := transceive (withCrc (writeBody block) (crcLo, crcHi)) s
  answerFrame (requireAck r.1, r.2)

/-- TAG_WRITE_PHASE2: the data frame, and the same acknowledge (R87, R88, R182, R183). -/
def execTagWritePhase2 (data : List Byte) (crcLo crcHi : Byte) (s : State) : Outcome State Fault Refusal :=
  if data.length = blockLen then
    let r := transceive (withCrc data (crcLo, crcHi)) s
    answerFrame (requireAck r.1, r.2)
  else .next (reject .unknownOp s)

/-- TAG_HALT: "response ignored", so the frame has no condition, no result and no failure (R87, R88, R184). -/
def execTagHalt (crcLo crcHi : Byte) (s : State) : Outcome State Fault Refusal :=
  .next (complete .done .eNone (transceive (withCrc haltBody (crcLo, crcHi)) s).2)

end Sys2Proof.Machine
end

