-- ==== Sys2Proof/Machine/Dispatch.lean ====
section
/-! DEFINITION. One arm for each constructor of `Instr`, one direct call of its meaning. -/

namespace Sys2Proof.Machine

open Sys2Proof

/-- What an instruction does to a state. -/
def exec (i : Instr) (s : State) : Host.Outcome State Fault Refusal :=
  match i with
  -- format HOST
  | .regWrite addr value => Sys2Proof.Machine.execRegWrite addr value s
  | .regRead addr => Sys2Proof.Machine.execRegRead addr s
  | .setBits addr mask => Sys2Proof.Machine.execSetBits addr mask s
  | .clearBits addr mask => Sys2Proof.Machine.execClearBits addr mask s
  | .computeCrc data => Sys2Proof.Machine.execComputeCrc data s
  | .cardWrite command data => Sys2Proof.Machine.execCardWrite command data s
  | .request mode => Sys2Proof.Machine.execRequest mode s
  | .anticoll => Sys2Proof.Machine.execAnticoll s
  | .anticoll2 => Sys2Proof.Machine.execAnticoll2 s
  | .selectTag uid => Sys2Proof.Machine.execSelectTag uid s
  | .readId asNumber => Sys2Proof.Machine.execReadId asNumber s
  | .cardAuth mode block key uid => Sys2Proof.Machine.execCardAuth mode block key uid s
  | .read block => Sys2Proof.Machine.execRead block s
  | .write block data => Sys2Proof.Machine.execWrite block data s
  | .halt => Sys2Proof.Machine.execHalt s
  | .stopCrypto => Sys2Proof.Machine.execStopCrypto s
  | .setAntennaGain gain => Sys2Proof.Machine.execSetAntennaGain gain s
  | .init => Sys2Proof.Machine.execInit s
  | .cleanup => Sys2Proof.Machine.execCleanup s
  | .waitForTag timeout => Sys2Proof.Machine.execWaitForTag timeout s
  -- format BUS16
  | .busWriteFrame address value => Sys2Proof.Machine.execBusWriteFrame address value s
  | .busReadFrame address => Sys2Proof.Machine.execBusReadFrame address s
  -- format TAG
  | .tagRequest mode => Sys2Proof.Machine.execTagRequest mode s
  | .tagAnticoll1 => Sys2Proof.Machine.execTagAnticoll1 s
  | .tagAnticoll2 => Sys2Proof.Machine.execTagAnticoll2 s
  | .tagSelect uid crcLo crcHi => Sys2Proof.Machine.execTagSelect uid crcLo crcHi s
  | .tagAuthA block key uid => Sys2Proof.Machine.execTagAuthA block key uid s
  | .tagAuthB block key uid => Sys2Proof.Machine.execTagAuthB block key uid s
  | .tagRead block crcLo crcHi => Sys2Proof.Machine.execTagRead block crcLo crcHi s
  | .tagWritePhase1 block crcLo crcHi => Sys2Proof.Machine.execTagWritePhase1 block crcLo crcHi s
  | .tagWritePhase2 data crcLo crcHi => Sys2Proof.Machine.execTagWritePhase2 data crcLo crcHi s
  | .tagHalt crcLo crcHi => Sys2Proof.Machine.execTagHalt crcLo crcHi s
  -- format CHIPCMD
  | .cmdIdle => Sys2Proof.Machine.execCmdIdle s
  | .cmdCalcCrc => Sys2Proof.Machine.execCmdCalcCrc s
  | .cmdTransceive => Sys2Proof.Machine.execCmdTransceive s
  | .cmdAuthent => Sys2Proof.Machine.execCmdAuthent s
  | .cmdSoftReset => Sys2Proof.Machine.execCmdSoftReset s

end Sys2Proof.Machine
end

