-- ==== Sys2Proof/Decode.lean ====
section
/-! DEFINITION. The decoder, total on any bytes and rejecting by name, the encoder written from the same tables
(rules R80, R81, R84, R85, R87, R94, R95, R98 of spec/30_encoding.md), and the reading of a row's bits as
spec/opcode_table.json numbers them. -/

namespace Sys2Proof

/-- Why a word spells no operation.  On the port all of these are the one rejection `Unsupported(UnknownOp)`
(R95, R220). -/
inductive DecodeError where
  /-- The word has no byte at all. -/
  | emptyWord
  /-- The operation code, or the fixed bits of the frame, are in no row of the table (R95). -/
  | unknownOp
  /-- Fewer or more operand bytes than the row has (R95, R220 code 33). -/
  | wrongLength
  /-- An operand value the row's layout does not have: `as_number` is "0 or 1" (R85; log entry 8). -/
  | badOperand
deriving DecidableEq, Repr

/-- The operand bytes of an operation word after its code `op` (R85). -/
def decodeHost (op : Byte) (args : List Byte) : Except DecodeError Instr :=
  match op.toNat with
  | 0x01 => match args with | [addr, value] => .ok (.regWrite addr value) | _ => .error .wrongLength
  | 0x02 => match args with | [addr] => .ok (.regRead addr) | _ => .error .wrongLength
  | 0x03 => match args with | [addr, mask] => .ok (.setBits addr mask) | _ => .error .wrongLength
  | 0x04 => match args with | [addr, mask] => .ok (.clearBits addr mask) | _ => .error .wrongLength
  | 0x05 => match args with
    | len :: data => if data.length = len.toNat then .ok (.computeCrc data) else .error .wrongLength
    | _ => .error .wrongLength
  | 0x06 => match args with
    | command :: len :: data =>
        if data.length = len.toNat then .ok (.cardWrite command data) else .error .wrongLength
    | _ => .error .wrongLength
  | 0x10 => match args with | [mode] => .ok (.request mode) | _ => .error .wrongLength
  | 0x11 => match args with | [] => .ok .anticoll | _ => .error .wrongLength
  | 0x12 => match args with | [] => .ok .anticoll2 | _ => .error .wrongLength
  | 0x13 => if args.length = anticollLen then .ok (.selectTag args) else .error .wrongLength
  | 0x14 => match args with
    | [n] => if n = 0x00 then .ok (.readId false) else if n = 0x01 then .ok (.readId true) else .error .badOperand
    | _ => .error .wrongLength
  | 0x20 => match args with
    | mode :: block :: rest =>
        if rest.length = keyLen + authUidLen then .ok (.cardAuth mode block (rest.take keyLen) (rest.drop keyLen))
        else .error .wrongLength
    | _ => .error .wrongLength
  | 0x21 => match args with | [block] => .ok (.read block) | _ => .error .wrongLength
  | 0x22 => match args with
    | block :: data => if data.length = blockLen then .ok (.write block data) else .error .wrongLength
    | _ => .error .wrongLength
  | 0x23 => match args with | [] => .ok .halt | _ => .error .wrongLength
  | 0x24 => match args with | [] => .ok .stopCrypto | _ => .error .wrongLength
  | 0x30 => match args with | [gain] => .ok (.setAntennaGain gain) | _ => .error .wrongLength
  | 0x31 => match args with | [] => .ok .init | _ => .error .wrongLength
  | 0x32 => match args with | [] => .ok .cleanup | _ => .error .wrongLength
  | 0x33 => match args with | [hi, lo] => .ok (.waitForTag (hi ++ lo)) | _ => .error .wrongLength
  | _ => .error .unknownOp

/-- A bus frame: bit 15 the direction, bits 14 to 9 the address, bit 8 zero, bits 7 to 0 the value, which is 0x00
in a read frame (R80, R81).  Byte 0 is sent first. -/
def decodeBus (b0 b1 : Byte) : Except DecodeError Instr :=
  if b0.getLsbD 0 then .error .unknownOp
  else if b0.getLsbD 7 then
    if b1 = 0x00 then .ok (.busReadFrame (b0.extractLsb' 1 6)) else .error .unknownOp
  else .ok (.busWriteFrame (b0.extractLsb' 1 6) b1)

/-- A tag command frame, told apart by its length and its leading fixed bytes (R87, R94).  The one-byte frame is the
request frame, whatever its mode byte ("any mode byte is sent as given"); the 18-byte frame is the data phase of
WRITE, which has no fixed byte. -/
def decodeTag (bytes : List Byte) : Except DecodeError Instr :=
  if bytes.length = blockLen + 2 then
    .ok (.tagWritePhase2 (bytes.take blockLen) (bytes.getD blockLen 0) (bytes.getD (blockLen + 1) 0))
  else match bytes with
  | [] => .error .emptyWord
  | [mode] => .ok (.tagRequest mode)
  | [b0, b1] =>
      if b0 = 0x93 ∧ b1 = 0x20 then .ok .tagAnticoll1
      else if b0 = 0x95 ∧ b1 = 0x20 then .ok .tagAnticoll2
      else .error .unknownOp
  | [b0, b1, lo, hi] =>
      if b0 = 0x30 then .ok (.tagRead b1 lo hi)
      else if b0 = 0xA0 then .ok (.tagWritePhase1 b1 lo hi)
      else if b0 = 0x50 ∧ b1 = 0x00 then .ok (.tagHalt lo hi)
      else .error .unknownOp
  | b0 :: b1 :: rest =>
      if rest.length = anticollLen + 2 then
        if b0 = 0x93 ∧ b1 = 0x70 then
          .ok (.tagSelect (rest.take anticollLen) (rest.getD anticollLen 0) (rest.getD (anticollLen + 1) 0))
        else .error .unknownOp
      else if rest.length = keyLen + authUidLen then
        if b0 = 0x60 then .ok (.tagAuthA b1 (rest.take keyLen) (rest.drop keyLen))
        else if b0 = 0x61 then .ok (.tagAuthB b1 (rest.take keyLen) (rest.drop keyLen))
        else .error .unknownOp
      else .error .wrongLength

/-- A chip command code; the values are parameters (R8, R94), so the decoder reads them from the configuration. -/
def decodeChip (cfg : Config) (code : Byte) : Except DecodeError Instr :=
  if code = cfg.cmdIdle then .ok .cmdIdle
  else if code = cfg.cmdCalcCrc then .ok .cmdCalcCrc
  else if code = cfg.cmdTransceive then .ok .cmdTransceive
  else if code = cfg.cmdAuthent then .ok .cmdAuthent
  else if code = cfg.cmdSoftReset then .ok .cmdSoftReset
  else .error .unknownOp

/-- The decoder: a word to its instruction, from the rows of the word's own layer alone (R94). -/
def decode (cfg : Config) (w : PortWord) : Except DecodeError Instr :=
  match w.layer with
  | .host => match w.bytes with
    | op :: args => decodeHost op args
    | [] => .error .emptyWord
  | .bus => match w.bytes with
    | [b0, b1] => decodeBus b0 b1
    | [] => .error .emptyWord
    | _ => .error .wrongLength
  | .tag => decodeTag w.bytes
  | .chip => match w.bytes with
    | [code] => decodeChip cfg code
    | [] => .error .emptyWord
    | _ => .error .wrongLength

/-! ### The encoder -/

/-- A `len` operand: one byte (R85). -/
def lenByte (data : List Byte) : Byte := BitVec.ofNat 8 data.length

/-- The `as_number` operand of READ_ID: 0 or 1 (R85). -/
def boolByte (b : Bool) : Byte := if b then 0x01 else 0x00

/-- Byte 0 of a bus frame: direction, six address bits, a zero (R80, R81). -/
def frameByte (rd : Bool) (address : BitVec 6) : Byte := BitVec.ofBool rd ++ address ++ 0#1

/-- The word of an instruction, written from the tables of R80, R81, R85 and R87. -/
def encode (cfg : Config) : Instr → PortWord
  | .regWrite addr value          => ⟨.host, [0x01, addr, value]⟩
  | .regRead addr                 => ⟨.host, [0x02, addr]⟩
  | .setBits addr mask            => ⟨.host, [0x03, addr, mask]⟩
  | .clearBits addr mask          => ⟨.host, [0x04, addr, mask]⟩
  | .computeCrc data              => ⟨.host, [0x05, lenByte data] ++ data⟩
  | .cardWrite command data       => ⟨.host, [0x06, command, lenByte data] ++ data⟩
  | .request mode                 => ⟨.host, [0x10, mode]⟩
  | .anticoll                     => ⟨.host, [0x11]⟩
  | .anticoll2                    => ⟨.host, [0x12]⟩
  | .selectTag uid                => ⟨.host, [0x13] ++ uid⟩
  | .readId asNumber              => ⟨.host, [0x14, boolByte asNumber]⟩
  | .cardAuth mode block key uid  => ⟨.host, [0x20, mode, block] ++ key ++ uid⟩
  | .read block                   => ⟨.host, [0x21, block]⟩
  | .write block data             => ⟨.host, [0x22, block] ++ data⟩
  | .halt                         => ⟨.host, [0x23]⟩
  | .stopCrypto                   => ⟨.host, [0x24]⟩
  | .setAntennaGain gain          => ⟨.host, [0x30, gain]⟩
  | .init                         => ⟨.host, [0x31]⟩
  | .cleanup                      => ⟨.host, [0x32]⟩
  | .waitForTag timeout           => ⟨.host, [0x33, timeout.extractLsb' 8 8, timeout.extractLsb' 0 8]⟩
  | .busWriteFrame address value  => ⟨.bus, [frameByte false address, value]⟩
  | .busReadFrame address         => ⟨.bus, [frameByte true address, 0x00]⟩
  | .tagRequest mode              => ⟨.tag, [mode]⟩
  | .tagAnticoll1                 => ⟨.tag, [0x93, 0x20]⟩
  | .tagAnticoll2                 => ⟨.tag, [0x95, 0x20]⟩
  | .tagSelect uid lo hi          => ⟨.tag, [0x93, 0x70] ++ uid ++ [lo, hi]⟩
  | .tagAuthA block key uid       => ⟨.tag, [0x60, block] ++ key ++ uid⟩
  | .tagAuthB block key uid       => ⟨.tag, [0x61, block] ++ key ++ uid⟩
  | .tagRead block lo hi          => ⟨.tag, [0x30, block, lo, hi]⟩
  | .tagWritePhase1 block lo hi   => ⟨.tag, [0xA0, block, lo, hi]⟩
  | .tagWritePhase2 data lo hi    => ⟨.tag, data ++ [lo, hi]⟩
  | .tagHalt lo hi                => ⟨.tag, [0x50, 0x00, lo, hi]⟩
  | .cmdIdle                      => ⟨.chip, [cfg.cmdIdle]⟩
  | .cmdCalcCrc                   => ⟨.chip, [cfg.cmdCalcCrc]⟩
  | .cmdTransceive                => ⟨.chip, [cfg.cmdTransceive]⟩
  | .cmdAuthent                   => ⟨.chip, [cfg.cmdAuthent]⟩
  | .cmdSoftReset                 => ⟨.chip, [cfg.cmdSoftReset]⟩

/-! ### A row's bits, as the opcode table numbers them -/

/-- The low `n` bytes of `w`, the least significant first: how the table numbers an operation word, whose `op` is
bits 7 to 0. -/
def littleBytes : Nat → Nat → List Byte
  | 0, _ => []
  | n + 1, w => BitVec.ofNat 8 w :: littleBytes n (w / 256)

/-- Zero operand bytes up to `n` bytes. -/
def padTo (n : Nat) (bytes : List Byte) : List Byte := bytes ++ List.replicate (n - bytes.length) 0x00

/-- The length in bytes of the operation word that begins with these bytes, absent ones read as zero (R85, R98). -/
def hostLength (bytes : List Byte) : Option Nat :=
  match (bytes.getD 0 0).toNat with
  | 0x01 => some 3
  | 0x02 => some 2
  | 0x03 => some 3
  | 0x04 => some 3
  | 0x05 => some (2 + (bytes.getD 1 0).toNat)
  | 0x06 => some (3 + (bytes.getD 2 0).toNat)
  | 0x10 => some 2
  | 0x11 => some 1
  | 0x12 => some 1
  | 0x13 => some 6
  | 0x14 => some 2
  | 0x20 => some 13
  | 0x21 => some 2
  | 0x22 => some 18
  | 0x23 => some 1
  | 0x24 => some 1
  | 0x30 => some 2
  | 0x31 => some 1
  | 0x32 => some 1
  | 0x33 => some 3
  | _ => none

/-- The tag frame that begins with this byte alone fixed, operand bytes zero (R87). -/
def tagFrameOf (bytes : List Byte) : Option PortWord :=
  match (bytes.getD 0 0).toNat with
  | 0x26 => some ⟨.tag, padTo 1 bytes⟩
  | 0x60 => some ⟨.tag, padTo 12 bytes⟩
  | 0x61 => some ⟨.tag, padTo 12 bytes⟩
  | 0x30 => some ⟨.tag, padTo 4 bytes⟩
  | 0xA0 => some ⟨.tag, padTo 4 bytes⟩
  | _ => none

/-- A row's bits as a word for the port.  A 16-bit row is one number whose high byte is sent first ("byte 0 (bits 15:8) is
sent first"; R80): a tag frame where all its fixed bits match, else a bus frame.  A shorter row is an operation word if it can be one,
else a tag frame, else a chip command; a row with no bits, or with all 18 bytes, is the data phase of WRITE.
The table gives the rows SET_ANTENNA_GAIN and TAG_READ, and SET_BITS and CMD_CALC_CRC, the same bits: log entry 9. -/
def tablePortWord (nbits w : Nat) : PortWord :=
  if nbits = 16 then
    match w with
    | 0x9320 => ⟨.tag, [0x93, 0x20]⟩
    | 0x9520 => ⟨.tag, [0x95, 0x20]⟩
    | 0x9370 => ⟨.tag, padTo 9 [0x93, 0x70]⟩
    | 0x5000 => ⟨.tag, padTo 4 [0x50, 0x00]⟩
    | _ => ⟨.bus, [BitVec.ofNat 8 (w / 256), BitVec.ofNat 8 w]⟩
  else if nbits = 0 ∨ nbits = 144 then ⟨.tag, littleBytes 18 w⟩
  else
    let bytes := littleBytes ((nbits + 7) / 8) w
    match hostLength bytes with
    | some n => if bytes.length ≤ n then ⟨.host, padTo n bytes⟩ else (tagFrameOf bytes).getD ⟨.host, bytes⟩
    | none => (tagFrameOf bytes).getD (if bytes.length = 1 then ⟨.chip, bytes⟩ else ⟨.host, bytes⟩)

/-- The instruction the decoder reads from a row's bits, with the default command codes the table prints. -/
def decodeTableWord (nbits w : Nat) : Option Instr :=
  match decode Config.mfrc522 (tablePortWord nbits w) with
  | .ok i => some i
  | .error _ => none

end Sys2Proof
end

