-- ==== Sys2Proof/Machine/Fetch.lean ====
section
/-! DEFINITION. Taking the next word from the command channel (rules R84, R95, R248 of spec/): what step calls. -/

namespace Sys2Proof.Machine

open Sys2Proof

/-- What the engine finds when it looks for work. -/
inductive Fetched where
  /-- a WAIT_FOR_TAG is still running: no word is taken while it runs (R248, R279) -/
  | resume (w : Waiting)
  /-- nothing is offered: the engine waits for the first operation (R264) -/
  | nothing
  /-- an operation, and the channel without its word -/
  | run (i : Instr) (rest : List PortWord)
  /-- a word that spells no operation (R95) -/
  | unknown (rest : List PortWord)
deriving DecidableEq, Repr

/-- Look for work: the running wait first, else the oldest word (D41). -/
def fetch (s : State) : Fetched :=
  match s.waiting with
  | some w => .resume w
  | none =>
    match s.port with
    | [] => .nothing
    | w :: rest =>
      match decode s.cfg w with
      | .ok i    => .run i rest
      | .error _ => .unknown rest

/-- The channel after a word was taken from it. -/
def takeWord (rest : List PortWord) (s : State) : State := { s with port := rest }

/-- Place one word as all that is offered, with no wait running, so that the next step runs it. -/
def placeWord (w : PortWord) (s : State) : State :=
  { s with port := [w], waiting := none }

end Sys2Proof.Machine
end

