-- ==== Sys2Proof/Machine/Step.lean ====
section
/-! DEFINITION. One step: the interrupt line's edge, if any, then one whole operation (rules R16, R233, R248 of spec/; D1
of spec/92_eei_decisions.md). -/

namespace Sys2Proof.Machine

open Sys2Proof

/-- One step.  With nothing offered the engine waits (R264); a word that spells no operation is answered with
`Unsupported(UnknownOp)` and changes no register (R95). -/
def step (s : State) : Host.Outcome State Fault Refusal :=
  match fetch (sampleLine s) with
  | .resume w     => .next (resumeWait w (sampleLine s))
  | .nothing      => .next (sampleLine s)
  | .run i rest   => exec i (takeWord rest (sampleLine s))
  | .unknown rest => .next (reject .unknownOp (takeWord rest (sampleLine s)))

/-- `s` with a row's bits placed as the one word offered, so that the next step runs it. -/
def State.withFetchWord (s : State) (nbits w : Nat) : State := placeWord (tablePortWord nbits w) s

end Sys2Proof.Machine
end

