-- ==== Sys2Proof/Safety.lean ====
section
/-! DEFINITION. The terms the claims use: the invariant every step keeps (rule R46 of spec/10_state.md), what "unchanged" means,
the part of a trace an operation adds and how its transactions are counted (rules R114, R135, R284), and which chip
registers an operation may write (rule R53). -/

namespace Sys2Proof.Machine

open Sys2Proof

/-! ### The invariant -/

/-- `pstate = Authenticated` implies `authed = 1` (R46 (b)), and the register space as written keeps its canonical
form.  R46 (a) holds by the type of `gain`; R46 (c) is `SameConfig` of a step. -/
def Inv (s : State) : Prop :=
  (s.pstate = .authenticated → s.authed = true) ∧ Memory.wf s.chipRegs = true

/-! ### What stays -/

/-- The configuration is the same (R23, R46 (c)). -/
def SameConfig (s t : State) : Prop :=
  t.cfg = s.cfg ∧ t.csPresent = s.csPresent ∧ t.irqPresent = s.irqPresent ∧ t.rstCfg = s.rstCfg

/-- The command channel, the running wait and the environment's coming passes and edges are the same. -/
def SamePorts (s t : State) : Prop :=
  t.port = s.port ∧ t.waiting = s.waiting ∧ t.env.slices = s.env.slices ∧ t.env.edges = s.env.edges

/-- Every engine register and every port is the same; the trace, the results, the register space as written and the coming answers
of the chip are not spoken of. -/
def SameEngine (s t : State) : Prop :=
  SameConfig s t ∧ SamePorts s t ∧ t.authed = s.authed ∧ t.gain = s.gain ∧ t.pstate = s.pstate ∧ t.signal = s.signal

/-- Everything of `SameEngine` but the two registers that follow the tag, `authed` and `pstate`. -/
def SameBesidesTag (s t : State) : Prop :=
  SameConfig s t ∧ SamePorts s t ∧ t.gain = s.gain ∧ t.signal = s.signal

/-- Everything but what WAIT_FOR_TAG moves: the signal, the running wait and the coming passes. -/
def SameBesidesWait (s t : State) : Prop :=
  SameConfig s t ∧ t.port = s.port ∧ t.env.edges = s.env.edges ∧ t.authed = s.authed ∧ t.gain = s.gain ∧ t.pstate = s.pstate

/-- The one result an operation hands back (R84). -/
def Delivers (r : Result) (c : Cause) (s t : State) : Prop := t.results = s.results ++ [⟨r, c⟩]

/-- Every chip register location outside the list was last written as before. -/
def OnlyWrites (locs : List Nat) (s t : State) : Prop :=
  ∀ a, a ∉ locs → Memory.get a t.chipRegs = Memory.get a s.chipRegs

/-! ### Traces -/

/-- A bus transaction: one `W` or one `R` (spec/95_test_vectors.md, section 0). -/
def isXfer : Event → Bool
  | .xferWrite _ _  => true
  | .xferRead _ _ _ => true
  | .csAssert       => false
  | .csRelease      => false
  | .signalClear    => false
  | .signalWait _   => false
  | .logE1          => false

/-- The number of bus transactions in a trace (R284). -/
def transactions (evs : List Event) : Nat := evs.countP isXfer

/-- Transactions on the bus, each in its own chip-select window when the line is configured (R114). -/
def onBus (csPresent : Bool) (xfers : List Event) : List Event := xfers.flatMap (window csPresent)

/-- A trace is made of whole windows and of events that are no part of a transaction: with the line configured every
transfer stands between its own assert and release (R83, R114), without it there is no chip-select event. -/
def windowed (csPresent : Bool) : List Event → Bool
  | [] => true
  | .csAssert :: e :: .csRelease :: rest => csPresent && isXfer e && windowed csPresent rest
  | .signalClear :: rest  => windowed csPresent rest
  | .signalWait _ :: rest => windowed csPresent rest
  | .logE1 :: rest        => windowed csPresent rest
  | e :: rest             => !csPresent && isXfer e && windowed csPresent rest

/-- What one event of a trace writes to the register space: a write frame stores its second byte at bits 6 to 1 of its first
(R80, R110); nothing else stores. -/
def written (m : Memory) : Event → Memory
  | .xferWrite tx0 tx1 => Memory.set (tx0 >>> 1).toNat tx1 m
  | .xferRead _ _ _ => m
  | .csAssert       => m
  | .csRelease      => m
  | .signalClear    => m
  | .signalWait _   => m
  | .logE1          => m

/-- The register space after the write frames of a trace, in order (R64). -/
def replay (evs : List Event) (m : Memory) : Memory := evs.foldl written m

/-- A write frame to a register, as an event: `W aa vv`. -/
def wr (addr value : Byte) : Event := .xferWrite ((addr <<< 1) &&& 0x7E) value

/-- A read frame from a register with its answer, as an event: `R aa 00 -> rr`. -/
def rd (addr answer : Byte) : Event := .xferRead (((addr <<< 1) &&& 0x7E) ||| 0x80) 0x00 answer

/-- The transactions of `SetBits` whose read was answered `v` (R112). -/
def setXfers (addr mask v : Byte) : List Event := [rd addr v, wr addr (v ||| mask)]

/-- The transactions of `ClearBits` whose read was answered `v` (R113). -/
def clearXfers (addr mask v : Byte) : List Event := [rd addr v, wr addr (v &&& (0xFF ^^^ mask))]

/-- The second response bytes an operation was given by the chip, in the order of its reads: the scripted ones first, and those
are used up; any byte where the script had ended (R15, R64). -/
def Answered (answers : List Byte) (s t : State) : Prop :=
  s.env.chip.take answers.length <+: answers ∧ t.env.chip = s.env.chip.drop answers.length

/-- What an operation leaves behind: the events it put on the trace, the answers it took, its one result, and the register
space, which changes by exactly the write frames of those events and at no location outside `locs`. -/
def Effect (locs : List Nat) (evs : List Event) (answers : List Byte) (r : Result) (c : Cause) (s t : State) : Prop :=
  t.trace = s.trace ++ evs ∧ Answered answers s t ∧ Delivers r c s t ∧ t.chipRegs = replay evs s.chipRegs ∧
    OnlyWrites locs s t

/-! ### The operations as the rules list them

Each relation below is the rule's own list of steps, with the answers of the chip as the only thing left open.  They are
written from the pseudocode and name no definition of the meanings, so that a claim holds the meaning against the rule. -/

/-- The reads of a bounded poll: `n` the last byte read, every byte before it failing the exit test; the loop ended either by
`n` passing it or by the budget (R131, R146). -/
def PollAnswers (stop : Byte → Bool) (budget : Nat) (polls : List Byte) (n : Byte) (completed : Bool) : Prop :=
  ∃ before, polls = before ++ [n] ∧ (∀ b ∈ before, stop b = false) ∧ stop n = completed ∧ polls.length ≤ budget ∧
    (completed = false → polls.length = budget)

/-- COMPUTE_CRC (R130): its events, the answers it took, and the two bytes it returns, which are the last two read, the
low one first, whether or not the poll saw the flag (R131 to R133). -/
def CrcRun (c : Config) (cs : Bool) (data : List Byte) (evs : List Event) (answers : List Byte) (lo hi : Byte) : Prop :=
  ∃ clr flush polls n completed,
    PollAnswers (fun b => decide (b &&& c.crcDone ≠ 0)) 255 polls n completed ∧
    evs = onBus cs (clearXfers c.aDivIrq c.crcDone clr ++ setXfers c.aFifoLevel c.fifoFlush flush
      ++ data.map (wr c.aFifoData) ++ [wr c.aCommand c.cmdCalcCrc]
      ++ polls.map (rd c.aDivIrq) ++ [rd c.aCrcResultLo lo, rd c.aCrcResultHi hi]) ∧
    answers = [clr, flush] ++ polls ++ [lo, hi]

/-- The interrupt-enable mask of step 1 (R141). -/
def chosenIen (c : Config) (command : Byte) : Byte :=
  if command = c.cmdTransceive then 0x77 else if command = c.cmdAuthent then 0x12 else 0x00

/-- The wait-for pattern of step 1 (R141). -/
def chosenWait (c : Config) (command : Byte) : Byte :=
  if command = c.cmdTransceive then 0x30 else if command = c.cmdAuthent then 0x10 else 0x00

/-- The exit test of step 4: the timer-expiry bit, or any bit of the wait-for pattern (R146). -/
def endsPoll (c : Config) (command n : Byte) : Bool :=
  decide (n &&& c.irqTimer ≠ 0) || decide (n &&& chosenWait c command ≠ 0)

/-- Steps 2 to 5 of CARD_WRITE (R140, R142 to R147): `frm` answers the read of start-send, which transceive alone makes, and
`stop` the read of step 5, which every command makes.  Step 5 has no idle write (log entry 20). -/
def executorXfers (c : Config) (command : Byte) (data : List Byte) (clr flush frm : Byte) (polls : List Byte)
    (stop : Byte) : List Event :=
  [wr c.aIrqEn (chosenIen c command ||| c.ienOr)] ++ clearXfers c.aIrq c.irqClearMask clr
    ++ setXfers c.aFifoLevel c.fifoFlush flush ++ [wr c.aCommand c.cmdIdle] ++ data.map (wr c.aFifoData)
    ++ [wr c.aCommand command]
    ++ (if command = c.cmdTransceive then setXfers c.aBitFraming c.startSend frm else [])
    ++ polls.map (rd c.aIrq) ++ clearXfers c.aBitFraming c.startSend stop

/-- The answers of those reads. -/
def executorAnswers (c : Config) (command : Byte) (clr flush frm : Byte) (polls : List Byte) (stop : Byte) : List Byte :=
  [clr, flush] ++ (if command = c.cmdTransceive then [frm] else []) ++ polls ++ [stop]

/-- Step 9 for transceive (R151): level, control, then `min(level, 16)` bytes; the bit length is an integer. -/
def DrainRun (c : Config) (evs : List Event) (answers resp : List Byte) (rlen : Int) : Prop :=
  ∃ level control, resp.length = min level.toNat 16 ∧
    rlen = (if control &&& c.lastBitsMask ≠ 0 then ((level.toNat : Int) - 1) * 8 + (control &&& c.lastBitsMask).toNat
      else (level.toNat : Int) * 8) ∧
    evs = [rd c.aFifoLevel level, rd c.aControl control] ++ resp.map (rd c.aFifoData) ∧
    answers = [level, control] ++ resp

/-- Steps 8 and 9 of CARD_WRITE after an error register without a fault (R150, R151): the warning is logged before the drain and
does not stop it. -/
def WarnRun (c : Config) (cs : Bool) (command n : Byte) (evs : List Event) (answers : List Byte) (r : Exec) : Prop :=
  ∃ devs, evs = (if r.error then [.logE1] else []) ++ onBus cs devs ∧
    r.error = decide (n &&& chosenIen c command &&& c.e1Mask ≠ 0) ∧
    r.cause = (if r.error then .eSoftE1 else .eNone) ∧
    (command = c.cmdTransceive → DrainRun c devs answers r.resp r.rlen) ∧
    (command ≠ c.cmdTransceive → devs = [] ∧ answers = [] ∧ r.resp = [] ∧ r.rlen = 0)

/-- CARD_WRITE (R140): its events, the answers it took, and its result.  Exhaustion comes first, then the error register, then
the warning (R238). -/
def CardWriteRun (c : Config) (cs : Bool) (command : Byte) (data : List Byte) (evs : List Event) (answers : List Byte)
    (r : Exec) : Prop :=
  ∃ clr flush frm polls stop n completed tail tailAnswers,
    PollAnswers (endsPoll c command) 2000 polls n completed ∧
    evs = onBus cs (executorXfers c command data clr flush frm polls stop) ++ tail ∧
    answers = executorAnswers c command clr flush frm polls stop ++ tailAnswers ∧
    ((completed = false ∧ tail = [] ∧ tailAnswers = [] ∧ r = ⟨true, [], 0, .ePollTimeout⟩) ∨
     (completed = true ∧ ∃ e, e &&& 0x1B ≠ 0 ∧ tail = onBus cs [rd c.aError e] ∧ tailAnswers = [e] ∧
        r = ⟨true, [], 0, .eChipError⟩) ∨
     (completed = true ∧ ∃ e wevs wans, e &&& 0x1B = 0 ∧ tail = onBus cs [rd c.aError e] ++ wevs ∧
        tailAnswers = e :: wans ∧ WarnRun c cs command n wevs wans r))

/-- A frame with its checksum: COMPUTE_CRC over the body, then the body and the two bytes, low first, by transceive (R55, R87). -/
def FrameRun (c : Config) (cs : Bool) (body : List Byte) (evs : List Event) (answers : List Byte) (r : Exec) : Prop :=
  ∃ cevs cans lo hi xevs xans, CrcRun c cs body cevs cans lo hi ∧
    CardWriteRun c cs c.cmdTransceive (body ++ [lo, hi]) xevs xans r ∧ evs = cevs ++ xevs ∧ answers = cans ++ xans

/-- The executor's own error comes first, then the procedure's test with its cause (R239); `eNone` is success. -/
def judge (r : Exec) (test : Bool) (c : Cause) : Cause := if r.error then r.cause else if test then .eNone else c

/-- The request frame under 7-bit framing, judged by `rlen = 16` (R160). -/
def RequestRun (c : Config) (cs : Bool) (mode : Byte) (evs : List Event) (answers : List Byte) (r : Exec) (v : Cause) : Prop :=
  ∃ xevs, evs = onBus cs [wr c.aBitFraming c.framing7bit] ++ xevs ∧
    CardWriteRun c cs c.cmdTransceive [mode] xevs answers r ∧ v = judge r (decide (r.rlen = 16)) .eShape

/-- The cause an anti-collision answer gets: length before checksum (R163, R239). -/
def uidVerdict (r : Exec) : Cause :=
  if r.error then r.cause
  else if r.resp.length ≠ 5 then .eShape
  else if r.resp.getD 0 0 ^^^ r.resp.getD 1 0 ^^^ r.resp.getD 2 0 ^^^ r.resp.getD 3 0 ≠ r.resp.getD 4 0 then .eChecksum
  else .eNone

/-- The anti-collision frame under full-byte framing (R163). -/
def AnticollRun (c : Config) (cs : Bool) (sel : Byte) (evs : List Event) (answers : List Byte) (r : Exec) (v : Cause) : Prop :=
  ∃ xevs, evs = onBus cs [wr c.aBitFraming c.framingFull] ++ xevs ∧
    CardWriteRun c cs c.cmdTransceive [sel, 0x20] xevs answers r ∧ v = uidVerdict r

/-- The select frame, judged by `rlen = 24` (R164). -/
def SelectRun (c : Config) (cs : Bool) (uid : List Byte) (evs : List Event) (answers : List Byte) (v : Cause) : Prop :=
  ∃ r, FrameRun c cs ([0x93, 0x70] ++ uid) evs answers r ∧ v = judge r (decide (r.rlen = 24)) .eShape

/-- The cause a phase of WRITE gets (R183, R226): the shape, then the nibble. -/
def ackVerdict (r : Exec) : Cause :=
  if r.error then r.cause
  else if r.rlen = 4 ∧ 1 ≤ r.resp.length then (if r.resp.getD 0 0 &&& 0x0F = 0x0A then .eNone else .eAck)
  else .eShape

/-- The authentication frame by the authenticate command, then the status register, read whatever the executor reported (R180). -/
def AuthRun (c : Config) (cs : Bool) (mode block : Byte) (key uid : List Byte) (evs : List Event) (answers : List Byte)
    (r : Exec) (v : Cause) : Prop :=
  ∃ xevs xans st, CardWriteRun c cs c.cmdAuthent ([mode, block] ++ key ++ uid) xevs xans r ∧
    evs = xevs ++ onBus cs [rd c.aStatus st] ∧ answers = xans ++ [st] ∧
    v = judge r (decide (st &&& 0x08 ≠ 0)) .eNoCrypto

/-- WRITE (R182, R186): phase 2 only when phase 1 was acknowledged, and no transaction otherwise. -/
def WriteRun (c : Config) (cs : Bool) (block : Byte) (data : List Byte) (evs : List Event) (answers : List Byte) (v : Cause) :
    Prop :=
  ∃ e1 a1 r1, FrameRun c cs [0xA0, block] e1 a1 r1 ∧
    ((ackVerdict r1 ≠ .eNone ∧ evs = e1 ∧ answers = a1 ∧ v = ackVerdict r1) ∨
     (ackVerdict r1 = .eNone ∧ ∃ e2 a2 r2, FrameRun c cs data e2 a2 r2 ∧ evs = e1 ++ e2 ∧ answers = a1 ++ a2 ∧
        v = ackVerdict r2))

/-- HALT (R184): the checksum, the clear of the crypto bit, then the frame, its result dropped. -/
def HaltRun (c : Config) (cs : Bool) (evs : List Event) (answers : List Byte) : Prop :=
  ∃ cevs cans lo hi st xevs xans r, CrcRun c cs [0x50, 0x00] cevs cans lo hi ∧
    CardWriteRun c cs c.cmdTransceive [0x50, 0x00, lo, hi] xevs xans r ∧
    evs = cevs ++ onBus cs (clearXfers c.aStatus 0x08 st) ++ xevs ∧ answers = cans ++ [st] ++ xans

/-- READ_ID (R165, R166): the steps in order, the first that fails ending it.  `p0` is the procedure state before and `p` the one its
sub-operations leave; `uid` is the identifier, if all went well. -/
def ReadIdRun (c : Config) (cs : Bool) (p0 : PState) (evs : List Event) (answers : List Byte) (p : PState)
    (uid : Option (List Byte)) (v : Cause) : Prop :=
  ∃ e1 a1 r1 v1, RequestRun c cs 0x26 e1 a1 r1 v1 ∧
    ((v1 ≠ .eNone ∧ evs = e1 ∧ answers = a1 ∧ p = p0 ∧ uid = none ∧ v = v1) ∨
     (v1 = .eNone ∧ ∃ e2 a2 r2 v2, AnticollRun c cs 0x93 e2 a2 r2 v2 ∧
       ((v2 ≠ .eNone ∧ evs = e1 ++ e2 ∧ answers = a1 ++ a2 ∧ p = .requested ∧ uid = none ∧ v = v2) ∨
        (v2 = .eNone ∧ r2.resp.getD 0 0 ≠ 0x88 ∧ evs = e1 ++ e2 ∧ answers = a1 ++ a2 ∧ p = .uidPartial ∧
          uid = some (r2.resp.take 4) ∧ v = .eNone) ∨
        (v2 = .eNone ∧ r2.resp.getD 0 0 = 0x88 ∧ ∃ e3 a3 v3, SelectRun c cs r2.resp e3 a3 v3 ∧
          ((v3 ≠ .eNone ∧ evs = e1 ++ e2 ++ e3 ∧ answers = a1 ++ a2 ++ a3 ∧ p = .uidPartial ∧ uid = none ∧ v = v3) ∨
           (v3 = .eNone ∧ ∃ e4 a4 r4 v4, AnticollRun c cs 0x95 e4 a4 r4 v4 ∧
             evs = e1 ++ e2 ++ e3 ++ e4 ∧ answers = a1 ++ a2 ++ a3 ++ a4 ∧ v = v4 ∧
             ((v4 ≠ .eNone ∧ p = .selected ∧ uid = none) ∨
              (v4 = .eNone ∧ p = .uidPartial ∧ uid = some ((r2.resp.drop 1).take 3 ++ r4.resp.take 4)))))))))

/-- The byte of an entry of `INIT_SEQ` (R201). -/
def initValue (gain : BitVec 3) : InitArg → Byte
  | .literal b => b
  | .gain      => (gain.setWidth 8) <<< 4

/-- The transactions of `INIT_SEQ`, the answers of its `SetBits` reads in order (R201). -/
def initXfers (gain : BitVec 3) : List InitEntry → List Byte → List Event
  | [], _            => []
  | e :: es, answers =>
    match e.kind with
    | .write => wr e.addr (initValue gain e.arg) :: initXfers gain es answers
    | .set   => setXfers e.addr (initValue gain e.arg) (answers.headD 0) ++ initXfers gain es answers.tail

/-- How many reads `INIT_SEQ` makes. -/
def initReads (es : List InitEntry) : Nat := es.countP fun e => decide (e.kind = .set)

/-- INIT (R201). -/
def InitRun (c : Config) (cs : Bool) (gain : BitVec 3) (evs : List Event) (answers : List Byte) : Prop :=
  answers.length = initReads c.initSeq ∧ evs = onBus cs (initXfers gain c.initSeq answers)

/-- One pass of WAIT_FOR_TAG: INIT, the request byte, the command, the framing, the slice wait (R205). -/
def PassRun (c : Config) (cs : Bool) (gain : BitVec 3) (fired : Bool) (evs : List Event) (answers : List Byte) : Prop :=
  ∃ ievs, InitRun c cs gain ievs answers ∧
    evs = ievs ++ onBus cs [wr c.aFifoData 0x26, wr c.aCommand c.cmdTransceive, wr c.aBitFraming c.waitFraming]
      ++ [.signalWait fired]

/-- That many passes in a row, none of which fired (R205, R209). -/
def PassesRun (c : Config) (cs : Bool) (gain : BitVec 3) : Nat → List Event → List Byte → Prop
  | 0, evs, answers     => evs = [] ∧ answers = []
  | k + 1, evs, answers => ∃ e1 a1 e2 a2, PassRun c cs gain false e1 a1 ∧ PassesRun c cs gain k e2 a2 ∧
      evs = e1 ++ e2 ∧ answers = a1 ++ a2

/-- What WAIT_FOR_TAG does before its loop (R205). -/
def WaitPrologueRun (c : Config) (cs : Bool) (gain : BitVec 3) (evs : List Event) (answers : List Byte) : Prop :=
  ∃ ievs, InitRun c cs gain ievs answers ∧
    evs = ievs ++ [.signalClear] ++ onBus cs [wr c.aIrq c.waitIrqClear, wr c.aIrqEn c.waitIen]

/-- An environment answer to a pass of WAIT_FOR_TAG that lets the wait go on: no deadline, which is never asked when `timeout = 0`,
and no edge (R207, R208). -/
def quiet (timeout : BitVec 16) (d : SliceDraw) : Prop := (timeout = 0 ∨ d.deadline = false) ∧ d.irq = false

/-- The state after so many steps. -/
def afterSteps : Nat → State → Option State
  | 0, s     => some s
  | n + 1, s =>
    match step s with
    | .next t    => afterSteps n t
    | .fault _   => none
    | .refused _ => none

/-! ### Which chip registers an operation may write (R53) -/

/-- COMPUTE_CRC. -/
def crcLocs (c : Config) : List Nat := [c.aDivIrq, c.aFifoLevel, c.aFifoData, c.aCommand].map location

/-- CARD_WRITE. -/
def executorLocs (c : Config) : List Nat :=
  [c.aIrqEn, c.aIrq, c.aFifoLevel, c.aCommand, c.aFifoData, c.aBitFraming].map location

/-- INIT: the registers of `INIT_SEQ`. -/
def initLocs (c : Config) : List Nat := c.initSeq.map fun e => location e.addr

/-- WAIT_FOR_TAG: INIT, and the five registers of the arming (R205). -/
def waitLocs (c : Config) : List Nat :=
  initLocs c ++ [c.aIrq, c.aIrqEn, c.aFifoData, c.aCommand, c.aBitFraming].map location

/-- The table of R53, for every operation, with the frames sent by themselves beside their operations. -/
def mayWrite (c : Config) : Instr → List Nat
  | .regWrite addr _          => [location addr]
  | .regRead _                => []
  | .setBits addr _           => [location addr]
  | .clearBits addr _         => [location addr]
  | .computeCrc _             => crcLocs c
  | .cardWrite _ _            => executorLocs c
  | .request _                => executorLocs c
  | .anticoll                 => executorLocs c
  | .anticoll2                => executorLocs c
  | .selectTag _              => crcLocs c ++ executorLocs c
  | .readId _                 => crcLocs c ++ executorLocs c
  | .cardAuth _ _ _ _         => executorLocs c
  | .read _                   => crcLocs c ++ executorLocs c
  | .write _ _                => crcLocs c ++ executorLocs c
  | .halt                     => crcLocs c ++ executorLocs c ++ [location c.aStatus]
  | .stopCrypto               => [location c.aStatus]
  | .setAntennaGain _         => [location c.aRfCfg]
  | .init                     => initLocs c
  | .cleanup                  => [location c.aStatus]
  | .waitForTag _             => waitLocs c
  | .busWriteFrame address _  => [address.toNat]
  | .busReadFrame _           => []
  | .tagRequest _             => executorLocs c
  | .tagAnticoll1             => executorLocs c
  | .tagAnticoll2             => executorLocs c
  | .tagSelect _ _ _          => executorLocs c
  | .tagAuthA _ _ _           => executorLocs c
  | .tagAuthB _ _ _           => executorLocs c
  | .tagRead _ _ _            => executorLocs c
  | .tagWritePhase1 _ _ _     => executorLocs c
  | .tagWritePhase2 _ _ _     => executorLocs c
  | .tagHalt _ _              => executorLocs c
  | .cmdIdle                  => [location c.aCommand]
  | .cmdCalcCrc               => [location c.aCommand]
  | .cmdTransceive            => [location c.aCommand]
  | .cmdAuthent               => [location c.aCommand]
  | .cmdSoftReset             => [location c.aCommand]

/-! ### Tables over all operations -/

/-- The error flag of a result; a rejection is no success (R240, R241). -/
def resultFailed : Result → Bool
  | .done           => false
  | .value _        => false
  | .crc _ _        => false
  | .executed e _ _ => e
  | .answered e _   => e
  | .bytes e _      => e
  | .flag e         => e
  | .uid _          => false
  | .number _ _     => false
  | .noUid          => true
  | .fired _        => false
  | .rejected       => true

/-- The table of R168: the new `pstate`, from whether the operation failed, from `authed` and from the old `pstate`; `none` for READ_ID,
whose sub-operations decide.  A word of a lower layer is no row of the table and leaves `pstate` (log entry 7). -/
def pstateTable (i : Instr) (failed authed : Bool) (p : PState) : Option PState :=
  match i with
  | .request _                => some (if failed then p else .requested)
  | .anticoll                 => some (if failed then p else .uidPartial)
  | .anticoll2                => some (if failed then p else .uidPartial)
  | .selectTag _              => some (if failed then p else .selected)
  | .cardAuth _ _ _ _         => some (if failed then p else .authenticated)
  | .halt                     => some .halted
  | .stopCrypto               => some (if p = .authenticated then .selected else p)
  | .cleanup                  => some (if authed = true ∧ p = .authenticated then .selected else p)
  | .readId _                 => none
  | .read _                   => some p
  | .write _ _                => some p
  | .regWrite _ _             => some p
  | .regRead _                => some p
  | .setBits _ _              => some p
  | .clearBits _ _            => some p
  | .computeCrc _             => some p
  | .cardWrite _ _            => some p
  | .setAntennaGain _         => some p
  | .init                     => some p
  | .waitForTag _             => some p
  | .busWriteFrame _ _        => some p
  | .busReadFrame _           => some p
  | .tagRequest _             => some p
  | .tagAnticoll1             => some p
  | .tagAnticoll2             => some p
  | .tagSelect _ _ _          => some p
  | .tagAuthA _ _ _           => some p
  | .tagAuthB _ _ _           => some p
  | .tagRead _ _ _            => some p
  | .tagWritePhase1 _ _ _     => some p
  | .tagWritePhase2 _ _ _     => some p
  | .tagHalt _ _              => some p
  | .cmdIdle                  => some p
  | .cmdCalcCrc               => some p
  | .cmdTransceive            => some p
  | .cmdAuthent               => some p
  | .cmdSoftReset             => some p

/-- The largest number of transactions on any path (R284); `none` for WAIT_FOR_TAG, which has no bound.  The counts of INIT follow its
list, and those of a frame sent by itself follow from the count of CARD_WRITE. -/
def maxTransactions (c : Config) : Instr → Option Nat
  | .regWrite _ _             => some 1
  | .regRead _                => some 1
  | .setBits _ _              => some 2
  | .clearBits _ _            => some 2
  | .computeCrc data          => some (data.length + 262)
  | .cardWrite command data   => some (data.length + if command = c.cmdTransceive then 2030 else 2010)
  | .request _                => some 2032
  | .anticoll                 => some 2033
  | .anticoll2                => some 2033
  | .selectTag _              => some 2308
  | .readId _                 => some 8368
  | .cardAuth _ _ _ _         => some 2023
  | .read _                   => some 2298
  | .write _ _                => some 4609
  | .halt                     => some 2300
  | .stopCrypto               => some 2
  | .setAntennaGain _         => some 1
  | .init                     => some (c.initSeq.length + initReads c.initSeq)
  | .cleanup                  => some 2
  | .waitForTag _             => none
  | .busWriteFrame _ _        => some 1
  | .busReadFrame _           => some 1
  | .tagRequest _             => some 2032
  | .tagAnticoll1             => some 2033
  | .tagAnticoll2             => some 2033
  | .tagSelect _ _ _          => some 2039
  | .tagAuthA _ _ _           => some 2023
  | .tagAuthB _ _ _           => some 2023
  | .tagRead _ _ _            => some 2034
  | .tagWritePhase1 _ _ _     => some 2034
  | .tagWritePhase2 _ _ _     => some 2048
  | .tagHalt _ _              => some 2034
  | .cmdIdle                  => some 1
  | .cmdCalcCrc               => some 1
  | .cmdTransceive            => some 1
  | .cmdAuthent               => some 1
  | .cmdSoftReset             => some 1

end Sys2Proof.Machine
end

