-- ==== Sys2Proof/Certificates/Slice0/Obligations.lean ====
section
/-! DEFINITION. The statements for the provers.  Each docstring names what it formalises of spec/, and says where a clause rests on a
decision the spec marks as its own (92_eei_decisions.md) or on a choice of this model (a log entry). -/

open Sys2Proof Sys2Proof.Machine Host

/-! ### Encodings -/

/-- Every operation is read back from its own word, every operand included, under every configuration.  A chip command code can be told
apart only where the five codes differ, so that is asked of them alone. -/
def Obligations.DecodeOfEncodeIsTheOperation : Prop :=
  ∀ (cfg : Config) (i : Instr), i.wellFormed = true →
    ((encode cfg i).layer = .chip →
      [cfg.cmdIdle, cfg.cmdCalcCrc, cfg.cmdTransceive, cfg.cmdAuthent, cfg.cmdSoftReset].Nodup) →
    decode cfg (encode cfg i) = .ok i

/-- A word the decoder takes is the encoding of what it gives, so no word has two readings, and its operands have the lengths the layout
fixes (R85, R97).  What is refused for it is this model's choice: an `as_number` byte other than 0 and 1 (log entry 8) and a word with bytes
left over (log entry 12). -/
def Obligations.EncodeOfDecodeIsTheWord : Prop :=
  ∀ (cfg : Config) (w : PortWord) (i : Instr), decode cfg w = .ok i → encode cfg i = w ∧ i.wellFormed = true

/-- Words written out from the tables of R80, R81, R85, R87 and R8. -/
def Obligations.DecodedWordsOfTheSpec : Prop :=
  (∀ cfg : Config,
    decode cfg ⟨.host, [0x01, 0x26, 0x30]⟩ = .ok (.regWrite 0x26 0x30) ∧
    decode cfg ⟨.host, [0x05, 0x02, 0x30, 0x04]⟩ = .ok (.computeCrc [0x30, 0x04]) ∧
    decode cfg ⟨.host, [0x06, 0x0C, 0x01, 0x26]⟩ = .ok (.cardWrite 0x0C [0x26]) ∧
    decode cfg ⟨.host, [0x13, 0xDE, 0xAD, 0xBE, 0xEF, 0x22]⟩ = .ok (.selectTag [0xDE, 0xAD, 0xBE, 0xEF, 0x22]) ∧
    decode cfg ⟨.host, [0x20, 0x60, 0x04, 0xA0, 0xA1, 0xA2, 0xA3, 0xA4, 0xA5, 0xDE, 0xAD, 0xBE, 0xEF]⟩ =
      .ok (.cardAuth 0x60 0x04 [0xA0, 0xA1, 0xA2, 0xA3, 0xA4, 0xA5] [0xDE, 0xAD, 0xBE, 0xEF]) ∧
    decode cfg ⟨.host, [0x33, 0x12, 0x34]⟩ = .ok (.waitForTag 0x1234) ∧
    decode cfg ⟨.bus, [0b00001100#8, 0x5A]⟩ = .ok (.busWriteFrame 0b000110#6 0x5A) ∧
    decode cfg ⟨.bus, [0b11001100#8, 0x00]⟩ = .ok (.busReadFrame 0b100110#6) ∧
    decode cfg ⟨.tag, [0x26]⟩ = .ok (.tagRequest 0x26) ∧
    decode cfg ⟨.tag, [0x95, 0x20]⟩ = .ok .tagAnticoll2 ∧
    decode cfg ⟨.tag, [0x50, 0x00, 0x57, 0xCD]⟩ = .ok (.tagHalt 0x57 0xCD)) ∧
  decode Config.mfrc522 ⟨.chip, [0x0C]⟩ = .ok .cmdTransceive

/-- R95, which is the spec's decision D3, and D41: a code outside the table spells nothing, nor does a word cut short; such a word is taken
from the channel and answered with `Unsupported(UnknownOp)`, with no transaction and no register changed but for an edge
of the interrupt line, which can come at any moment; that it lands before the word is taken is log entry 6 (DEDUCED).  The words so answered
also take in what spells nothing by this model's choice: an `as_number` byte other than 0 and 1 (log entry 8), a word with bytes left over
or with a wrong fixed bit (log entry 12), and the refused words of the bus, tag and chip layers (log entry 7). -/
def Obligations.WordsOutsideTheTableAreRejected : Prop :=
  (∀ (cfg : Config) (op : Byte) (args : List Byte),
    (op.toNat = 0x00 ∨ (0x07 ≤ op.toNat ∧ op.toNat ≤ 0x0F) ∨ (0x15 ≤ op.toNat ∧ op.toNat ≤ 0x1F) ∨
      (0x25 ≤ op.toNat ∧ op.toNat ≤ 0x2F) ∨ 0x34 ≤ op.toNat) →
    decode cfg ⟨.host, op :: args⟩ = .error .unknownOp) ∧
  (∀ (cfg : Config) (i : Instr) (bytes : List Byte), i.wellFormed = true → (encode cfg i).layer = .host →
    bytes <+: (encode cfg i).bytes → bytes ≠ (encode cfg i).bytes → ∃ e, decode cfg ⟨.host, bytes⟩ = .error e) ∧
  (∀ (s : State) (w : PortWord) (rest : List PortWord) (e : DecodeError), s.waiting = none → s.port = w :: rest →
    decode s.cfg w = .error e →
    ∃ t, step s = .next t ∧ Effect [] [] [] .rejected .unknownOp s t ∧ t.port = rest ∧ t.waiting = none ∧
      SameConfig s t ∧ t.authed = s.authed ∧ t.gain = s.gain ∧ t.pstate = s.pstate ∧ t.signal = (sampleLine s).signal)

/-! ### The step -/

/-- When the oldest word offered decodes and no wait is running, one step is the interrupt line's edge, if any, and then the whole
operation on the channel without that word (R84, R233).  That the edge lands before the whole operation is log entry 6 (DEDUCED); that
the word can be a bus frame, a tag frame or a chip command is log entry 7 (DESIGN CHOICE). -/
def Obligations.StepRunsTheDecodedOperation : Prop :=
  ∀ (s : State) (w : PortWord) (rest : List PortWord) (i : Instr), s.waiting = none → s.port = w :: rest →
    decode s.cfg w = .ok i → step s = exec i (takeWord rest (sampleLine s))

/-- With a wait running the step goes on with it and takes no word (R248, R279); with nothing offered the engine waits (R264).  That a
running wait is held in the state between steps is this model's choice (log entry 5), and that an edge lands before the step is
log entry 6 (DEDUCED). -/
def Obligations.StepWithoutAWord : Prop :=
  (∀ (s : State) (w : Waiting), s.waiting = some w → step s = .next (resumeWait w (sampleLine s))) ∧
  (∀ s : State, s.waiting = none → s.port = [] → step s = .next (sampleLine s))

/-- R24, R233, R236: the line's edge, if one came, sets the signal, whatever the engine is about to do; it sets nothing else, it does not
count, and without the line there is no signal to set.  R233 lets an edge come at any moment; that it is taken at the beginning of a step is
log entry 6 (DEDUCED), and that it is the next scripted edge while the script lasts is log entry 3 (DESIGN CHOICE). -/
def Obligations.LineEdgeSetsTheSignal : Prop :=
  ∀ s : State,
    (s.irqPresent = false → sampleLine s = s) ∧
    (s.irqPresent = true → ∃ edge : Bool,
      (sampleLine s).signal = (s.signal || edge) ∧
      (∀ e rest, s.env.edges = e :: rest → edge = e ∧ (sampleLine s).env.edges = rest) ∧
      SameConfig s (sampleLine s) ∧ (sampleLine s).authed = s.authed ∧ (sampleLine s).gain = s.gain ∧
      (sampleLine s).pstate = s.pstate ∧ (sampleLine s).waiting = s.waiting ∧ (sampleLine s).port = s.port ∧
      (sampleLine s).results = s.results ∧ (sampleLine s).trace = s.trace ∧ (sampleLine s).chipRegs = s.chipRegs ∧
      (sampleLine s).env.chip = s.env.chip ∧ (sampleLine s).env.slices = s.env.slices)

/-! ### Operand forms and computed fields -/

/-- R89: bits 5 to 0 of the operand in bits 6 to 1, the direction in bit 7, bit 0 always 0, with the rule's own examples. -/
def Obligations.AddressByteAssembly : Prop :=
  (∀ (a : Byte) (r : Bool), (addrByte a r).toNat = 2 * (a.toNat % 64) + (if r then 128 else 0)) ∧
  (∀ (a : Byte) (r : Bool), addrByte a r = ((a <<< 1) &&& 0x7E) ||| (if r then 0x80 else 0x00)) ∧
  addrByte 0x01 false = 0x02 ∧ addrByte 0x04 true = 0x88 ∧ addrByte 0x26 false = 0x4C ∧ addrByte 0x3F true = 0xFE ∧
  addrByte 0x41 false = 0x02

/-- R51, which the spec derives from R89: an operand and its low six bits name one of 64 locations, for every operation that takes an
address, and every default address is below 0x40. -/
def Obligations.AddressesAbove3FAlias : Prop :=
  (∀ (a v : Byte) (s : State),
    location a < 64 ∧ location a = location (a &&& 0x3F) ∧
    exec (.regWrite a v) s = exec (.regWrite (a &&& 0x3F) v) s ∧
    exec (.regRead a) s = exec (.regRead (a &&& 0x3F)) s ∧
    exec (.setBits a v) s = exec (.setBits (a &&& 0x3F) v) s ∧
    exec (.clearBits a v) s = exec (.clearBits (a &&& 0x3F) v) s) ∧
  (∀ a ∈ addressRoles Config.mfrc522, a.toNat < 0x40)

/-- R90: the byte written to the receiver-gain register is `gain << 4`, one of eight bytes, by INIT and by SET_ANTENNA_GAIN; that
SET_ANTENNA_GAIN writes it at once is the spec's decision D33. -/
def Obligations.GainFieldAssembly : Prop :=
  (∀ g : BitVec 3, (gainField g).toNat = 16 * g.toNat) ∧
  (∀ g : BitVec 3, gainField g ∈ [0x00#8, 0x10#8, 0x20#8, 0x30#8, 0x40#8, 0x50#8, 0x60#8, 0x70#8]) ∧
  (∀ g : BitVec 3, initByte g .gain = gainField g) ∧
  (∀ (g : BitVec 3) (s : State), ∃ t, exec (.setAntennaGain (g.setWidth 8)) s = .next t ∧
    t.trace = s.trace ++ onBus s.csPresent [wr s.cfg.aRfCfg (gainField g)]) ∧
  gainField 3 = 0x30

/-- R91 (the negative value is the spec's decision D16, the missing floor of the drain D17): an integer that neither wraps nor is
clamped, while the number of bytes drained is clamped to 16. -/
def Obligations.ResponseBitLength : Prop :=
  ∀ level lastBits : Byte,
    (lastBits ≠ 0 → responseBits level lastBits = ((level.toNat : Int) - 1) * 8 + lastBits.toNat) ∧
    (lastBits = 0 → responseBits level lastBits = (level.toNat : Int) * 8) ∧
    (lastBits.toNat ≤ 7 → -7 ≤ responseBits level lastBits ∧ responseBits level lastBits ≤ 2040) ∧
    drainCount level = min level.toNat 16

/-- R56: the integer of a UID is big-endian, the first byte the most significant, and it is what READ_ID answers with `as_number` set, of
the bytes its stages gave.  Which bytes those are, and what ends the stages, is R165 and R166 with the spec's decisions D23, D24,
D25 and D32; that a failed READ_ID has the cause of the step that failed is log entry 15 (DEDUCED). -/
def Obligations.UidNumberIsBigEndian : Prop :=
  (∀ u : List Byte, number u = ((List.range u.length).map fun i => (u.getD i 0).toNat * 256 ^ (u.length - 1 - i)).sum) ∧
  (∀ s : State, ∃ t evs answers p uid v, exec (.readId true) s = .next t ∧
    ReadIdRun s.cfg s.csPresent s.pstate evs answers p uid v ∧ t.trace = s.trace ++ evs ∧ Answered answers s t ∧
    (uid = none → v ≠ .eNone ∧ Delivers .noUid v s t) ∧
    (∀ u, uid = some u → v = .eNone ∧
      Delivers (.number u.length ((List.range u.length).map fun i => (u.getD i 0).toNat * 256 ^ (u.length - 1 - i)).sum)
        .eNone s t))

/-- R92's host-port form, the spec's decision D43: the length, then a 7-byte field with the UID at its right end, zero bytes before it; and
the number is below `256^k`. -/
def Obligations.NumberFieldHoldsTheUid : Prop :=
  ∀ u : List Byte, u.length ≤ 7 →
    number u < 256 ^ u.length ∧
    numberField u.length (number u) = BitVec.ofNat 8 u.length :: (List.replicate (7 - u.length) 0x00 ++ u)

/-- R93: the check byte is the exclusive or of the four before it, and the acknowledge is the low nibble 0x0A, both plain byte
operations. -/
def Obligations.CheckByteAndAckNibble : Prop :=
  (∀ b0 b1 b2 b3 b4 : Byte, checkByteGood [b0, b1, b2, b3, b4] = true ↔ b4 = b0 ^^^ b1 ^^^ b2 ^^^ b3) ∧
  (∀ (b : Byte) (rest : List Byte), ackNibble (b :: rest) = true ↔ b.toNat % 16 = 0x0A)

/-! ### Register access and bus frames -/

/-- R110: one write frame, its answer discarded, no result and no engine register changed. -/
def Obligations.RegWriteSendsOneFrame : Prop :=
  (∀ (addr value : Byte) (s : State),
    decode s.cfg ⟨.host, [0x01, addr, value]⟩ = .ok (.regWrite addr value) ∧
    ∃ t, exec (.regWrite addr value) s = .next t ∧
      Effect [location addr] (onBus s.csPresent [.xferWrite ((addr <<< 1) &&& 0x7E) value]) [] .done .eNone s t ∧
      Memory.get (location addr) t.chipRegs = some value ∧ SameEngine s t ∧ t.env = s.env) ∧
  wr 0x0D 0x07 = .xferWrite 0x1A 0x07

/-- R111: one read frame, whose second sent byte is 0x00; the value is the second response byte, any byte the chip gives. -/
def Obligations.RegReadReturnsTheSecondByte : Prop :=
  (∀ (addr : Byte) (s : State),
    decode s.cfg ⟨.host, [0x02, addr]⟩ = .ok (.regRead addr) ∧
    ∃ t v, exec (.regRead addr) s = .next t ∧
      Effect [] (onBus s.csPresent [.xferRead (((addr <<< 1) &&& 0x7E) ||| 0x80) 0x00 v]) [v] (.value v) .eNone s t ∧
      SameEngine s t) ∧
  (∀ v : Byte, rd 0x04 v = .xferRead 0x88 0x00 v)

/-- R112 and R113, their formulas the spec's decision D10: always one read and then one write of the whole byte, each in its own window. -/
def Obligations.SetAndClearBitsReadThenWrite : Prop :=
  ∀ (addr mask : Byte) (s : State),
    (∃ t v, exec (.setBits addr mask) s = .next t ∧
      Effect [location addr] (onBus s.csPresent [rd addr v, wr addr (v ||| mask)]) [v] .done .eNone s t ∧
      Memory.get (location addr) t.chipRegs = some (v ||| mask) ∧ SameEngine s t) ∧
    (∃ t v, exec (.clearBits addr mask) s = .next t ∧
      Effect [location addr] (onBus s.csPresent [rd addr v, wr addr (v &&& ~~~mask)]) [v] .done .eNone s t ∧
      Memory.get (location addr) t.chipRegs = some (v &&& ~~~mask) ∧ SameEngine s t)

/-- R80 to R82: bit 15 the direction, bits 14 to 9 the address, bit 8 zero, bits 7 to 0 the value; a read gives byte 1 of its answer and
a write gives nothing.  That a frame can be offered by itself and has a result of its own is log entry 7 (DESIGN CHOICE). -/
def Obligations.BusFramesAreOneTransaction : Prop :=
  ∀ (address : BitVec 6) (value : Byte) (s : State),
    (decode s.cfg ⟨.bus, [0#1 ++ address ++ 0#1, value]⟩ = .ok (.busWriteFrame address value) ∧
      ∃ t, exec (.busWriteFrame address value) s = .next t ∧
        Effect [address.toNat] (onBus s.csPresent [.xferWrite (0#1 ++ address ++ 0#1) value]) [] .done .eNone s t ∧
        Memory.get address.toNat t.chipRegs = some value ∧ SameEngine s t ∧ t.env = s.env) ∧
    (decode s.cfg ⟨.bus, [1#1 ++ address ++ 0#1, 0x00]⟩ = .ok (.busReadFrame address) ∧
      ∃ t v, exec (.busReadFrame address) s = .next t ∧
        Effect [] (onBus s.csPresent [.xferRead (1#1 ++ address ++ 0#1) 0x00 v]) [v] (.value v) .eNone s t ∧ SameEngine s t)

/-! ### COMPUTE_CRC and CARD_WRITE -/

/-- R130, R132, R133: the steps in order; the two result bytes are the last two read, low first, in every case, and there is never an
error.  How the poll is counted is the spec's decision D18, the formulas of the bit operations D10, the missing error D19. -/
def Obligations.ComputeCrcFollowsItsSteps : Prop :=
  ∀ (data : List Byte) (s : State),
    (data.length ≤ 255 →
      decode s.cfg ⟨.host, 0x05 :: BitVec.ofNat 8 data.length :: data⟩ = .ok (.computeCrc data)) ∧
    ∃ t evs answers lo hi, exec (.computeCrc data) s = .next t ∧ CrcRun s.cfg s.csPresent data evs answers lo hi ∧
      Effect (crcLocs s.cfg) evs answers (.crc lo hi) .eNone s t ∧ SameEngine s t

/-- R140, R143, R144, R145, R147: the nine steps in order, for every command byte and payload.  The spec's own decisions in them: the poll
and its test D11 and D12, the enable byte D13, the E1 test D14, what is skipped after a failed step D15, the bit length and the
drain D16, D17, D45, the result of other commands D46, the bit operations D10.  That step 5 has no idle write,
which D15 names and the rules do not have, is log entry 20 (DEDUCED). -/
def Obligations.CardWriteFollowsItsSteps : Prop :=
  ∀ (command : Byte) (data : List Byte) (s : State),
    (data.length ≤ 255 →
      decode s.cfg ⟨.host, 0x06 :: command :: BitVec.ofNat 8 data.length :: data⟩ = .ok (.cardWrite command data)) ∧
    ∃ t evs answers r, exec (.cardWrite command data) s = .next t ∧
      CardWriteRun s.cfg s.csPresent command data evs answers r ∧
      Effect (executorLocs s.cfg) evs answers (.executed r.error r.resp r.rlen) r.cause s t ∧ SameEngine s t

/-- R152: error in exactly three cases, each read off the run: the poll was exhausted, the error register had a bit of 0x1B, or the last
byte the poll read had E1; response bytes and a bit length only for a transceive that passed steps 6 and 7.  (How the poll is counted and
tested, the E1 test and what a failed step skips are the spec's decisions D11, D12, D14, D15.) -/
def Obligations.ExecutorResult : Prop :=
  ∀ (command : Byte) (data : List Byte) (s : State),
    ∃ t clr flush frm polls stop n completed tail error resp rlen cause, exec (.cardWrite command data) s = .next t ∧
      t.trace = s.trace ++ (onBus s.csPresent (executorXfers s.cfg command data clr flush frm polls stop) ++ tail) ∧
      PollAnswers (endsPoll s.cfg command) 2000 polls n completed ∧ Delivers (.executed error resp rlen) cause s t ∧
      (completed = false → tail = [] ∧ cause = .ePollTimeout) ∧
      (completed = true → ∃ e more, tail = onBus s.csPresent [rd s.cfg.aError e] ++ more ∧
        (e &&& 0x1B ≠ 0 → more = [] ∧ cause = .eChipError) ∧
        (e &&& 0x1B = 0 →
          cause = (if n &&& chosenIen s.cfg command &&& s.cfg.e1Mask ≠ 0 then .eSoftE1 else .eNone))) ∧
      (error = true ↔ cause ≠ .eNone) ∧
      (resp ≠ [] ∨ rlen ≠ 0 → command = s.cfg.cmdTransceive ∧ completed = true ∧ (cause = .eNone ∨ cause = .eSoftE1)) ∧
      resp.length ≤ 16

/-- R148's test (that the bit length is then 0 is the spec's decision D15): a chip none of whose answers ends the poll makes CARD_WRITE report the
timeout with an empty response, after exactly 2000 polls. -/
def Obligations.ExhaustedPollIsATimeout : Prop :=
  ∀ (command : Byte) (data : List Byte) (s : State), 2004 ≤ s.env.chip.length →
    (∀ b ∈ s.env.chip, endsPoll s.cfg command b = false) →
    ∃ t evs, exec (.cardWrite command data) s = .next t ∧ t.trace = s.trace ++ evs ∧
      Delivers (.executed true [] 0) .ePollTimeout s t ∧ SameEngine s t ∧
      transactions evs = data.length + (if command = s.cfg.cmdTransceive then 2011 else 2009)

/-- R135 and R153, which the spec derives: the number of transactions, with the reads of the poll as they stand in the trace and the
drained bytes.  (How a poll is counted is the spec's decisions D11 and D18.) -/
def Obligations.TransactionCountsOfCrcAndExecutor : Prop :=
  (∀ (data : List Byte) (s : State), ∃ t evs clr flush, ∃ polls : List Byte, ∃ lo hi,
    exec (.computeCrc data) s = .next t ∧ t.trace = s.trace ++ evs ∧
    evs = onBus s.csPresent (clearXfers s.cfg.aDivIrq s.cfg.crcDone clr ++ setXfers s.cfg.aFifoLevel s.cfg.fifoFlush flush
      ++ data.map (wr s.cfg.aFifoData) ++ [wr s.cfg.aCommand s.cfg.cmdCalcCrc]
      ++ polls.map (rd s.cfg.aDivIrq) ++ [rd s.cfg.aCrcResultLo lo, rd s.cfg.aCrcResultHi hi]) ∧
    1 ≤ polls.length ∧ polls.length ≤ 255 ∧ transactions evs = data.length + polls.length + 7) ∧
  (∀ (command : Byte) (data : List Byte) (s : State), ∃ t evs clr flush frm polls stop tail error resp rlen cause,
    exec (.cardWrite command data) s = .next t ∧ t.trace = s.trace ++ evs ∧
    evs = onBus s.csPresent (executorXfers s.cfg command data clr flush frm polls stop) ++ tail ∧
    Delivers (.executed error resp rlen) cause s t ∧ 1 ≤ polls.length ∧ polls.length ≤ 2000 ∧
    (cause = .ePollTimeout → polls.length = 2000) ∧
    transactions evs = data.length + polls.length + (
      if command = s.cfg.cmdTransceive then
        if cause = .ePollTimeout then 11 else if cause = .eChipError then 12 else 14 + resp.length
      else if cause = .ePollTimeout then 9 else 10))

/-! ### The UID sequencer -/

/-- R160 (that only the bit count is returned is the spec's decision D20): 7-bit framing, the mode byte as it is, success on exactly 16 bits;
`pstate` moves on success, from any value (D32), and nothing else moves. -/
def Obligations.RequestFollowsItsSteps : Prop :=
  ∀ (mode : Byte) (s : State), ∃ t evs answers r v, exec (.request mode) s = .next t ∧
    RequestRun s.cfg s.csPresent mode evs answers r v ∧
    Effect (executorLocs s.cfg) evs answers (if v = .eNone then .answered false 16 else .answered true 0) v s t ∧
    SameBesidesTag s t ∧ t.authed = s.authed ∧ t.pstate = (if v = .eNone then .requested else s.pstate)

/-- R161, R162 and the body R163 (the bytes also with an error: the spec's decision D21; `pstate`: D32). -/
def Obligations.AnticollFollowsItsSteps : Prop :=
  ∀ s : State,
    (∃ t evs answers r v, exec .anticoll s = .next t ∧ AnticollRun s.cfg s.csPresent 0x93 evs answers r v ∧
      Effect (executorLocs s.cfg) evs answers (.bytes (decide (v ≠ .eNone)) r.resp) v s t ∧
      SameBesidesTag s t ∧ t.authed = s.authed ∧ t.pstate = (if v = .eNone then .uidPartial else s.pstate)) ∧
    (∃ t evs answers r v, exec .anticoll2 s = .next t ∧ AnticollRun s.cfg s.csPresent 0x95 evs answers r v ∧
      Effect (executorLocs s.cfg) evs answers (.bytes (decide (v ≠ .eNone)) r.resp) v s t ∧
      SameBesidesTag s t ∧ t.authed = s.authed ∧ t.pstate = (if v = .eNone then .uidPartial else s.pstate))

/-- R164 (`pstate` from any value: the spec's decision D32): the five bytes with their checksum, no write of the framing register, no check of
the fifth byte, success on exactly 24 bits. -/
def Obligations.SelectTagFollowsItsSteps : Prop :=
  ∀ (u0 u1 u2 u3 u4 : Byte) (s : State), ∃ t evs answers v, exec (.selectTag [u0, u1, u2, u3, u4]) s = .next t ∧
    SelectRun s.cfg s.csPresent [u0, u1, u2, u3, u4] evs answers v ∧
    Effect (crcLocs s.cfg ++ executorLocs s.cfg) evs answers (.flag (decide (v ≠ .eNone))) v s t ∧
    SameBesidesTag s t ∧ t.authed = s.authed ∧ t.pstate = (if v = .eNone then .selected else s.pstate)

/-- R165 and R166: the steps in order, the first failure ending it; four bytes, or for the cascade tag the seven bytes without the tag
and without the two check bytes; as bytes or as their number.  That it begins with a REQUEST is the spec's decision D23, that a failure
returns no UID D24, which bytes make the UID D25, where `pstate` goes D32; that a failed READ_ID has the cause of the step that failed is
log entry 15 (DEDUCED). -/
def Obligations.ReadIdFollowsItsSteps : Prop :=
  ∀ (asNumber : Bool) (s : State), ∃ t evs answers p uid v, exec (.readId asNumber) s = .next t ∧
    ReadIdRun s.cfg s.csPresent s.pstate evs answers p uid v ∧
    Effect (crcLocs s.cfg ++ executorLocs s.cfg) evs answers
      (match uid with
        | none => .noUid
        | some u => if asNumber then .number u.length (number u) else .uid u) v s t ∧
    SameBesidesTag s t ∧ t.authed = s.authed ∧ t.pstate = p ∧
    (∀ u, uid = some u → u.length = 4 ∨ u.length = 7)

/-! ### Authentication and blocks -/

/-- R180 (the unconditional status read is the spec's decision D26, what a failure leaves D27): any mode byte, no checksum, success only with the
crypto bit; `authed` and `pstate` move on success alone. -/
def Obligations.CardAuthFollowsItsSteps : Prop :=
  ∀ (mode block : Byte) (key uid : List Byte) (s : State), key.length = 6 → uid.length = 4 →
    ∃ t evs answers r v, exec (.cardAuth mode block key uid) s = .next t ∧
      AuthRun s.cfg s.csPresent mode block key uid evs answers r v ∧
      Effect (executorLocs s.cfg) evs answers (.flag (decide (v ≠ .eNone))) v s t ∧ SameBesidesTag s t ∧
      t.authed = (s.authed || decide (v = .eNone)) ∧ t.pstate = (if v = .eNone then .authenticated else s.pstate)

/-- R181: sixteen bytes, whatever the executor reported and whatever `authed` is; no engine register changes. -/
def Obligations.ReadFollowsItsSteps : Prop :=
  ∀ (block : Byte) (s : State), ∃ t evs answers r v, exec (.read block) s = .next t ∧
    FrameRun s.cfg s.csPresent [0x30, block] evs answers r ∧ v = judge r (decide (r.resp.length = 16)) .eShape ∧
    Effect (crcLocs s.cfg ++ executorLocs s.cfg) evs answers (.bytes (decide (v ≠ .eNone)) r.resp) v s t ∧ SameEngine s t

/-- R182 and R186 (the acknowledge test of an executor error is the spec's decision D29): the data frame only after an acknowledged first phase,
otherwise not one more transaction; no engine register changes. -/
def Obligations.WriteFollowsItsSteps : Prop :=
  ∀ (block : Byte) (data : List Byte) (s : State), data.length = 16 →
    ∃ t evs answers v, exec (.write block data) s = .next t ∧ WriteRun s.cfg s.csPresent block data evs answers v ∧
      Effect (crcLocs s.cfg ++ executorLocs s.cfg) evs answers (.flag (decide (v ≠ .eNone))) v s t ∧ SameEngine s t

/-- R184 (the appended checksum is the spec's decision D31): the checksum, the clear of the crypto bit, the frame with its result dropped, then
the two registers, always. -/
def Obligations.HaltFollowsItsSteps : Prop :=
  ∀ s : State, ∃ t evs answers, exec .halt s = .next t ∧ HaltRun s.cfg s.csPresent evs answers ∧
    Effect (crcLocs s.cfg ++ executorLocs s.cfg ++ [location s.cfg.aStatus]) evs answers .done .eNone s t ∧
    SameBesidesTag s t ∧ t.authed = false ∧ t.pstate = .halted

/-- R185 (`pstate` is the spec's decision D32): the clear of the crypto bit and nothing more on the bus, whatever `authed` was. -/
def Obligations.StopCryptoClearsTheFlag : Prop :=
  ∀ s : State, ∃ t st, exec .stopCrypto s = .next t ∧
    Effect [location s.cfg.aStatus] (onBus s.csPresent [rd s.cfg.aStatus st, wr s.cfg.aStatus (st &&& ~~~0x08#8)]) [st]
      .done .eNone s t ∧
    Memory.get (location s.cfg.aStatus) t.chipRegs = some (st &&& ~~~0x08#8) ∧ SameBesidesTag s t ∧ t.authed = false ∧
    t.pstate = (if s.pstate = .authenticated then .selected else s.pstate)

/-! ### Configuration and the wait -/

/-- R200 (the write at once is the spec's decision D33): a gain of 0 to 7 is stored and written to the chip, shifted left by four. -/
def Obligations.SetAntennaGainStoresAndWrites : Prop :=
  ∀ (gain : Byte) (s : State), gain.toNat ≤ 7 → ∃ t, exec (.setAntennaGain gain) s = .next t ∧
    Effect [location s.cfg.aRfCfg] (onBus s.csPresent [wr s.cfg.aRfCfg (gain <<< 4)]) [] .done .eNone s t ∧
    Memory.get (location s.cfg.aRfCfg) t.chipRegs = some (gain <<< 4) ∧ t.gain.toNat = gain.toNat ∧
    SameConfig s t ∧ SamePorts s t ∧ t.env = s.env ∧ t.authed = s.authed ∧ t.pstate = s.pstate ∧ t.signal = s.signal

/-- R228 to R230: a missing reset line, an unsupported pin-naming mode and a gain outside 0 to 7 reject the construction, and such an operand
rejects SET_ANTENNA_GAIN with no transaction, `gain` kept and the session usable.  Which of several causes is reported is the spec's
decision D40; that these three come before the test of the chip's parameters is this model's choice, log entry 18. -/
def Obligations.ConfigurationErrorsReject : Prop :=
  (∀ (p : SessionParams) (env : Env), p.rstCfg = none → construct p env = .rejected .missingResetLine) ∧
  (∀ (p : SessionParams) (env : Env), p.rstCfg ≠ none → p.pinModeOk = false → construct p env = .rejected .pinNamingMode) ∧
  (∀ (p : SessionParams) (env : Env), p.rstCfg ≠ none → p.pinModeOk = true → (p.gainInit < 0 ∨ 7 < p.gainInit) →
    construct p env = .rejected .gainRange) ∧
  (∀ (gain : Byte) (s : State), (gain.toInt < 0 ∨ 7 < gain.toInt) →
    ∃ t, exec (.setAntennaGain gain) s = .next t ∧ Effect [] [] [] .rejected .gainRange s t ∧ SameEngine s t ∧ t.env = s.env)

/-- R201: the register accesses of `INIT_SEQ` in order, `GAIN` standing for `gain << 4`, and no engine register changed (`authed` and
`pstate` too: the spec's decision D34).  That a session's list writes the gain is this model's acceptance test, log entry 18; the
default list is R203, general knowledge, log entry 2. -/
def Obligations.InitRunsItsList : Prop :=
  (∀ s : State, ∃ t evs answers, exec .init s = .next t ∧ InitRun s.cfg s.csPresent s.gain evs answers ∧
    Effect (initLocs s.cfg) evs answers .done .eNone s t ∧ SameEngine s t) ∧
  (∀ (p : SessionParams) (env : Env) (s : State), construct p env = .session s →
    (⟨.write, s.cfg.aRfCfg, .gain⟩ : InitEntry) ∈ s.cfg.initSeq) ∧
  (∀ (cs : Bool) (g : BitVec 3) (evs : List Event) (answers : List Byte), InitRun Config.mfrc522 cs g evs answers ↔
    ∃ v, answers = [v] ∧ evs = onBus cs
      [wr 0x01 0x0F, wr 0x2A 0x8D, wr 0x2B 0x3E, wr 0x2D 0x1E, wr 0x2C 0x00, wr 0x15 0x40, wr 0x11 0x3D,
        wr 0x26 (g.setWidth 8 <<< 4), rd 0x14 v, wr 0x14 (v ||| 0x03)])

/-- R204 (the session stays usable: the spec's decision D37): STOP_CRYPTO when `authed`, else nothing; a second one right after does nothing. -/
def Obligations.CleanupDeauthenticatesOnce : Prop :=
  (∀ s : State, s.authed = true → ∃ t st, exec .cleanup s = .next t ∧
    Effect [location s.cfg.aStatus] (onBus s.csPresent [rd s.cfg.aStatus st, wr s.cfg.aStatus (st &&& ~~~0x08#8)]) [st]
      .done .eNone s t ∧ SameBesidesTag s t ∧ t.authed = false ∧
    t.pstate = (if s.pstate = .authenticated then .selected else s.pstate)) ∧
  (∀ s : State, s.authed = false → ∃ t, exec .cleanup s = .next t ∧ Effect [] [] [] .done .eNone s t ∧ SameEngine s t ∧
    t.env = s.env) ∧
  (∀ s t : State, exec .cleanup s = .next t →
    ∃ u, exec .cleanup t = .next u ∧ Effect [] [] [] .done .eNone t u ∧ SameEngine t u ∧ t.env = u.env)

/-- R206: with no interrupt line WAIT_FOR_TAG makes no transaction, changes no state and returns the rejection; every other operation does
the same with the line as without it. -/
def Obligations.WaitForTagNeedsTheLine : Prop :=
  (∀ (timeout : BitVec 16) (s : State), s.irqPresent = false →
    ∃ t, exec (.waitForTag timeout) s = .next t ∧ Effect [] [] [] .rejected .noInterruptLine s t ∧ SameEngine s t ∧
      t.env = s.env) ∧
  (∀ (i : Instr) (s t : State) (b : Bool), (∀ timeout, i ≠ .waitForTag timeout) → exec i s = .next t →
    exec i { s with irqPresent := b } = .next { t with irqPresent := b })

/-- R205, R207, R209 (one clear, and the order of the deadline test: the spec's decision D36): after any number of quiet passes, a pass in which the
edge comes ends the wait with `fired = true`; every pass re-arms, and INIT runs before, in every pass and at the end. -/
def Obligations.WaitForTagFires : Prop :=
  ∀ (timeout : BitVec 16) (s : State) (before rest : List SliceDraw) (d : SliceDraw), s.irqPresent = true →
    s.env.slices = before ++ d :: rest → (∀ x ∈ before, quiet timeout x) → (timeout = 0 ∨ d.deadline = false) →
    d.irq = true →
    ∃ t e0 a0 e1 a1 e2 a2 e3 a3, exec (.waitForTag timeout) s = .next t ∧
      WaitPrologueRun s.cfg s.csPresent s.gain e0 a0 ∧ PassesRun s.cfg s.csPresent s.gain before.length e1 a1 ∧
      PassRun s.cfg s.csPresent s.gain true e2 a2 ∧ InitRun s.cfg s.csPresent s.gain e3 a3 ∧
      Effect (waitLocs s.cfg) (e0 ++ e1 ++ e2 ++ e3) (a0 ++ a1 ++ a2 ++ a3) (.fired true) .eNone s t ∧
      SameBesidesWait s t ∧ t.signal = true ∧ t.waiting = none ∧ t.env.slices = rest

/-- R205, R208 (the place of the test: the spec's decision D36): a deadline that has passed at the top of a pass ends the wait with
`fired = false` before that pass re-arms; it is asked only when `timeout` is not 0. -/
def Obligations.WaitForTagTimesOut : Prop :=
  ∀ (timeout : BitVec 16) (s : State) (before rest : List SliceDraw) (d : SliceDraw), s.irqPresent = true →
    s.env.slices = before ++ d :: rest → (∀ x ∈ before, quiet timeout x) → timeout ≠ 0 → d.deadline = true →
    ∃ t e0 a0 e1 a1 e3 a3, exec (.waitForTag timeout) s = .next t ∧
      WaitPrologueRun s.cfg s.csPresent s.gain e0 a0 ∧ PassesRun s.cfg s.csPresent s.gain before.length e1 a1 ∧
      InitRun s.cfg s.csPresent s.gain e3 a3 ∧
      Effect (waitLocs s.cfg) (e0 ++ e1 ++ e3) (a0 ++ a1 ++ a3) (.fired false) .eNone s t ∧
      SameBesidesWait s t ∧ t.signal = false ∧ t.waiting = none ∧ t.env.slices = rest

/-- R205, R279: while every pass is quiet the operation goes on, with no result yet.  That it is then held in the state between
steps is this model's choice, log entry 5. -/
def Obligations.WaitForTagGoesOn : Prop :=
  ∀ (timeout : BitVec 16) (s : State), s.irqPresent = true → (∀ x ∈ s.env.slices, quiet timeout x) →
    ∃ t e0 a0 e1 a1, exec (.waitForTag timeout) s = .next t ∧
      WaitPrologueRun s.cfg s.csPresent s.gain e0 a0 ∧ PassesRun s.cfg s.csPresent s.gain s.env.slices.length e1 a1 ∧
      t.trace = s.trace ++ (e0 ++ e1) ∧ Answered (a0 ++ a1) s t ∧ t.results = s.results ∧
      t.chipRegs = replay (e0 ++ e1) s.chipRegs ∧ OnlyWrites (waitLocs s.cfg) s t ∧
      SameBesidesWait s t ∧ t.signal = false ∧ (∃ left, t.waiting = some ⟨timeout, left⟩) ∧ t.env.slices = []

/-- R205, R207, R208 for a wait that is running (log entry 5): the passes the script answers, any number of them, or else one pass of free
values, whose deadline has passed when none is left before it.  In each the deadline comes first and is never asked when `timeout = 0`; then the
re-arm; and an edge that came since the clear, or comes in the pass, ends the wait.  Where edges land is log entry 6. -/
def Obligations.RunningWaitMakesAPass : Prop :=
  ∀ (s : State) (w : Waiting) (ds : List SliceDraw), s.waiting = some w →
    ((s.env.slices = ds ∧ ds ≠ []) ∨ (s.env.slices = [] ∧
      ds = [⟨decide (w.left = 0), Config.freeIrq (sampleLine s).env.asked⟩])) →
    ∃ t, step s = .next t ∧ SameConfig s t ∧ t.port = s.port ∧ t.authed = s.authed ∧ t.gain = s.gain ∧
      t.pstate = s.pstate ∧
      (∀ before d rest, ds = before ++ d :: rest → (∀ x ∈ before, quiet w.timeout x) →
        (before = [] ∨ (sampleLine s).signal = false) →
        (w.timeout ≠ 0 → d.deadline = true →
          t.waiting = none ∧ t.signal = (sampleLine s).signal ∧ t.env.slices = rest ∧ ∃ e1 a1 e2 a2,
            PassesRun s.cfg s.csPresent s.gain before.length e1 a1 ∧ InitRun s.cfg s.csPresent s.gain e2 a2 ∧
            Effect (waitLocs s.cfg) (e1 ++ e2) (a1 ++ a2) (.fired false) .eNone s t) ∧
        ((w.timeout = 0 ∨ d.deadline = false) → ((sampleLine s).signal || d.irq) = true →
          t.waiting = none ∧ t.signal = true ∧ t.env.slices = rest ∧ ∃ e1 a1 e2 a2 e3 a3,
            PassesRun s.cfg s.csPresent s.gain before.length e1 a1 ∧ PassRun s.cfg s.csPresent s.gain true e2 a2 ∧
            InitRun s.cfg s.csPresent s.gain e3 a3 ∧
            Effect (waitLocs s.cfg) (e1 ++ e2 ++ e3) (a1 ++ a2 ++ a3) (.fired true) .eNone s t)) ∧
      ((∀ x ∈ ds, quiet w.timeout x) → (sampleLine s).signal = false →
        t.waiting = some ⟨w.timeout, if s.env.slices = [] then w.left - 1 else w.left⟩ ∧ t.signal = false ∧
        t.results = s.results ∧ t.env.slices = [] ∧ ∃ e a, PassesRun s.cfg s.csPresent s.gain ds.length e a ∧
          t.trace = s.trace ++ e ∧ Answered a s t ∧ t.chipRegs = replay e s.chipRegs ∧ OnlyWrites (waitLocs s.cfg) s t)

/-! ### The lower layers by themselves -/

/-- R87, R88 for the request and anti-collision frames: the framing their sender sets, the frame, and the test of the answer.  That a frame can be
offered by itself, and then moves no engine register, is log entry 7. -/
def Obligations.RequestAndAnticollFrames : Prop :=
  ∀ (mode : Byte) (s : State),
    (∃ t evs answers r v, exec (.tagRequest mode) s = .next t ∧ RequestRun s.cfg s.csPresent mode evs answers r v ∧
      Effect (executorLocs s.cfg) evs answers (.executed (decide (v ≠ .eNone)) r.resp r.rlen) v s t ∧ SameEngine s t) ∧
    (∃ t evs answers r v, exec .tagAnticoll1 s = .next t ∧ AnticollRun s.cfg s.csPresent 0x93 evs answers r v ∧
      Effect (executorLocs s.cfg) evs answers (.executed (decide (v ≠ .eNone)) r.resp r.rlen) v s t ∧ SameEngine s t) ∧
    (∃ t evs answers r v, exec .tagAnticoll2 s = .next t ∧ AnticollRun s.cfg s.csPresent 0x95 evs answers r v ∧
      Effect (executorLocs s.cfg) evs answers (.executed (decide (v ≠ .eNone)) r.resp r.rlen) v s t ∧ SameEngine s t)

/-- R87, R88 for the frames with a checksum, its two bytes as given: no framing is set, and each answer gets the test of its row; the answer
to the halt frame is ignored.  Log entry 7 as above. -/
def Obligations.FramesWithAChecksum : Prop :=
  ∀ (s : State) (b lo hi : Byte),
    (∀ uid : List Byte, uid.length = 5 → ∃ t evs answers r v, exec (.tagSelect uid lo hi) s = .next t ∧
      CardWriteRun s.cfg s.csPresent s.cfg.cmdTransceive ([0x93, 0x70] ++ uid ++ [lo, hi]) evs answers r ∧
      v = judge r (decide (r.rlen = 24)) .eShape ∧
      Effect (executorLocs s.cfg) evs answers (.executed (decide (v ≠ .eNone)) r.resp r.rlen) v s t ∧ SameEngine s t) ∧
    (∃ t evs answers r v, exec (.tagRead b lo hi) s = .next t ∧
      CardWriteRun s.cfg s.csPresent s.cfg.cmdTransceive [0x30, b, lo, hi] evs answers r ∧
      v = judge r (decide (r.resp.length = 16)) .eShape ∧
      Effect (executorLocs s.cfg) evs answers (.executed (decide (v ≠ .eNone)) r.resp r.rlen) v s t ∧ SameEngine s t) ∧
    (∃ t evs answers r, exec (.tagWritePhase1 b lo hi) s = .next t ∧
      CardWriteRun s.cfg s.csPresent s.cfg.cmdTransceive [0xA0, b, lo, hi] evs answers r ∧
      Effect (executorLocs s.cfg) evs answers (.executed (decide (ackVerdict r ≠ .eNone)) r.resp r.rlen) (ackVerdict r) s t ∧
      SameEngine s t) ∧
    (∀ data : List Byte, data.length = 16 → ∃ t evs answers r, exec (.tagWritePhase2 data lo hi) s = .next t ∧
      CardWriteRun s.cfg s.csPresent s.cfg.cmdTransceive (data ++ [lo, hi]) evs answers r ∧
      Effect (executorLocs s.cfg) evs answers (.executed (decide (ackVerdict r ≠ .eNone)) r.resp r.rlen) (ackVerdict r) s t ∧
      SameEngine s t) ∧
    (∃ t evs answers r, exec (.tagHalt lo hi) s = .next t ∧
      CardWriteRun s.cfg s.csPresent s.cfg.cmdTransceive [0x50, 0x00, lo, hi] evs answers r ∧
      Effect (executorLocs s.cfg) evs answers .done .eNone s t ∧ SameEngine s t)

/-- R87, R88 for the authentication frame with key A or key B: the authenticate command, then the crypto bit.  Log entry 7 as above. -/
def Obligations.AuthenticationFrames : Prop :=
  ∀ (block : Byte) (key uid : List Byte) (s : State), key.length = 6 → uid.length = 4 →
    (∃ t evs answers r v, exec (.tagAuthA block key uid) s = .next t ∧
      AuthRun s.cfg s.csPresent 0x60 block key uid evs answers r v ∧
      Effect (executorLocs s.cfg) evs answers (.executed (decide (v ≠ .eNone)) r.resp r.rlen) v s t ∧ SameEngine s t) ∧
    (∃ t evs answers r v, exec (.tagAuthB block key uid) s = .next t ∧
      AuthRun s.cfg s.csPresent 0x61 block key uid evs answers r v ∧
      Effect (executorLocs s.cfg) evs answers (.executed (decide (v ≠ .eNone)) r.resp r.rlen) v s t ∧ SameEngine s t)

/-- R31 for the five command codes: one whole-byte write of the code to the command register.  Log entry 7 as above. -/
def Obligations.ChipCommandsAreOneWrite : Prop :=
  ∀ (s : State) (i : Instr) (code : Byte),
    (i, code) ∈ [(.cmdIdle, s.cfg.cmdIdle), (.cmdCalcCrc, s.cfg.cmdCalcCrc), (.cmdTransceive, s.cfg.cmdTransceive),
      (.cmdAuthent, s.cfg.cmdAuthent), (.cmdSoftReset, s.cfg.cmdSoftReset)] →
    ∃ t, exec i s = .next t ∧
      Effect [location s.cfg.aCommand] (onBus s.csPresent [wr s.cfg.aCommand code]) [] .done .eNone s t ∧
      Memory.get (location s.cfg.aCommand) t.chipRegs = some code ∧ SameEngine s t ∧ t.env = s.env

/-- R97 (b), the spec's decision D30: an operand whose length the layout fixes and that has another length is rejected, with no transaction.  No word
spells such an operand.  That the cause is unknownOp, and that a uid of CARD_AUTH with more than four bytes is refused and not cut, is log
entry 13; the tag frames among the operations are log entry 7. -/
def Obligations.WrongOperandLengthsAreRejected : Prop :=
  ∀ (i : Instr) (s : State), i.wellFormed = false → (∀ data, i ≠ .computeCrc data) →
    (∀ command data, i ≠ .cardWrite command data) →
    ∃ t, exec i s = .next t ∧ Effect [] [] [] .rejected .unknownOp s t ∧ SameEngine s t ∧ t.env = s.env

/-! ### The whole machine -/

/-- R168, the spec's decision D32: where an operation leaves `pstate`, from whether it succeeded and from the old value.  READ_ID follows its
sub-operations and is the subject of ReadIdFollowsItsSteps.  R168 has no row for a bus frame, a tag frame or a chip command offered by
itself; that these leave `pstate` is log entry 7 (DESIGN CHOICE). -/
def Obligations.ProcedureStateTable : Prop :=
  ∀ (i : Instr) (s t : State) (r : Result) (c : Cause) (p : PState), exec i s = .next t → Delivers r c s t →
    pstateTable i (resultFailed r) s.authed s.pstate = some p → t.pstate = p

/-- R20, R187: only a successful CARD_AUTH sets `authed`; only HALT, STOP_CRYPTO and CLEANUP clear it. -/
def Obligations.AuthedIsSetAndClearedOnlyAsStated : Prop :=
  ∀ (i : Instr) (s t : State), exec i s = .next t →
    (s.authed = false → t.authed = true →
      (∃ mode block key uid, i = .cardAuth mode block key uid) ∧ Delivers (.flag false) .eNone s t) ∧
    (s.authed = true → t.authed = false → i = .halt ∨ i = .stopCrypto ∨ i = .cleanup)

/-- R23, R46 (c): the configuration is written at construction and never after. -/
def Obligations.ConfigurationNeverChanges : Prop :=
  ∀ s t : State, step s = .next t → SameConfig s t

/-- R21: `gain` is written only by SET_ANTENNA_GAIN with an operand in 0 to 7, read by INIT, which writes it as `gain << 4` for every `GAIN`
entry of its list, and begins as `GAIN_INIT`. -/
def Obligations.GainIsMutatedOnlyByItsOperation : Prop :=
  (∀ (i : Instr) (s t : State), exec i s = .next t → t.gain ≠ s.gain →
    ∃ g : Byte, i = .setAntennaGain g ∧ g.toNat ≤ 7 ∧ t.gain = g.setWidth 3) ∧
  (∀ (s : State) (a : Byte), (⟨.write, a, .gain⟩ : InitEntry) ∈ s.cfg.initSeq →
    ∃ t evs, exec .init s = .next t ∧ t.trace = s.trace ++ evs ∧
      .xferWrite ((a <<< 1) &&& 0x7E) (s.gain.setWidth 8 <<< 4) ∈ evs) ∧
  (∀ p : SessionParams, 0 ≤ p.gainInit → p.gainInit ≤ 7 → ((State.constructed p).gain.toNat : Int) = p.gainInit) ∧
  (∀ (p : SessionParams) (env : Env) (s : State), construct p env = .session s → (s.gain.toNat : Int) = p.gainInit)

/-- R46 (b), and the canonical form of the register space: every step keeps the invariant, from every state that has it. -/
def Obligations.EveryStepKeepsTheInvariant : Prop :=
  ∀ s t : State, Inv s → step s = .next t → Inv t

/-- The state after the construction of a session has the invariant, whatever the parameters and the chip's answers, and so has the
reset state. -/
def Obligations.ResetHasTheInvariant : Prop :=
  Inv State.reset ∧ (∀ p : SessionParams, Inv (State.constructed p)) ∧
  (∀ (p : SessionParams) (env : Env) (s : State), construct p env = .session s → Inv s)

/-- R53, which the spec derives: an operation writes only the registers its column of the table names.  R53 has no column for a bus frame, a
tag frame or a chip command offered by itself; theirs follow from what log entry 7 (DESIGN CHOICE) has them do. -/
def Obligations.RegisterMapOfWrites : Prop :=
  ∀ (i : Instr) (s t : State), exec i s = .next t → OnlyWrites (mayWrite s.cfg i) s t

/-- R114: the trace only grows, and every transfer it gains stands alone between its own assert and release when the line is configured and
bare when it is not.  That the register space as written changes by exactly the write frames gained is R64 and R110, for the list
`chipRegs`, which is this model's (log entry 10). -/
def Obligations.EveryTransferHasItsWindow : Prop :=
  ∀ s t : State, step s = .next t → ∃ evs, t.trace = s.trace ++ evs ∧ windowed s.csPresent evs = true ∧
    t.chipRegs = replay evs s.chipRegs

/-- R284's right column, which the spec derives: the most transactions on any path.  The bound of CARD_AUTH needs the two commands told apart, as R141
asks of every configuration.  The bound of INIT for any `INIT_SEQ` is from R201: one transaction for each write and two for each set.  R284
does not list a bus frame, a tag frame or a chip command offered by itself; their bounds follow from what log entry 7 (DESIGN CHOICE)
has them do, and from R153. -/
def Obligations.TransactionBounds : Prop :=
  ∀ (i : Instr) (s t : State) (n : Nat), s.cfg.cmdAuthent ≠ s.cfg.cmdTransceive → i.wellFormed = true →
    maxTransactions s.cfg i = some n → exec i s = .next t →
    ∃ evs, t.trace = s.trace ++ evs ∧ transactions evs ≤ n

/-- R45, R263, R264 (the values of `authed` and `signal` are the spec's decision D35, the INIT D34): what construction leaves when its checks pass and the
chip's parameters are ones a model accepts (R63, R141, R201; log entry 18).  The reset state is such a session, every answer free: it has the
trace of its INIT and the register space that INIT wrote, with the parameters of log entries 1 and 2. -/
def Obligations.ConstructionSetsTheRegistersAndInitialises : Prop :=
  (∀ (p : SessionParams) (env : Env), p.rstCfg ≠ none → p.pinModeOk = true → 0 ≤ p.gainInit → p.gainInit ≤ 7 →
    configValid p.chip = true →
    ∃ t evs answers, construct p env = .session t ∧ InitRun p.chip p.csPresent (BitVec.ofInt 3 p.gainInit) evs answers ∧
      t.trace = evs ∧ t.results = [] ∧ t.port = [] ∧ t.waiting = none ∧ t.chipRegs = replay evs [] ∧
      t.authed = false ∧ (t.gain.toNat : Int) = p.gainInit ∧ t.pstate = .idle ∧ t.signal = false ∧
      t.cfg = p.chip ∧ t.csPresent = p.csPresent ∧ t.irqPresent = p.irqPresent ∧ some t.rstCfg = p.rstCfg) ∧
  configValid Config.mfrc522 = true ∧
  construct SessionParams.usual Env.free = .session State.reset ∧
  (∃ v, State.reset.trace =
      [wr 0x01 0x0F, wr 0x2A 0x8D, wr 0x2B 0x3E, wr 0x2D 0x1E, wr 0x2C 0x00, wr 0x15 0x40, wr 0x11 0x3D, wr 0x26 0x40,
        rd 0x14 v, wr 0x14 (v ||| 0x03)] ∧
    State.reset.chipRegs = [(0x01, 0x0F), (0x11, 0x3D), (0x14, v ||| 0x03), (0x15, 0x40), (0x26, 0x40), (0x2A, 0x8D),
      (0x2B, 0x3E), (0x2C, 0x00), (0x2D, 0x1E)]) ∧
  State.reset.authed = false ∧ State.reset.pstate = .idle ∧ State.reset.signal = false

/-- R84, R240: no operation stops the machine, and each hands back exactly one result; WAIT_FOR_TAG alone may hand it back later.  That it is
then held in the state, with no result yet, is this model's choice (log entry 5), and so are the results of the words of the lower layers
(log entry 7). -/
def Obligations.EveryOperationEndsInAState : Prop :=
  ∀ (i : Instr) (s : State), ∃ t, exec i s = .next t ∧
    ((∃ r c, Delivers r c s t) ∨ ((∃ timeout, i = .waitForTag timeout) ∧ t.results = s.results ∧ t.waiting ≠ none))

/-- R22, R23, R52: no operation reads `pstate` (D32: it records and gates nothing), `rst_cfg` or `FIFO_CAPACITY` (D44): in two states that
differ in them alone every operation does the same, `pstate` apart. -/
def Obligations.ProcedureStateGatesNothing : Prop :=
  ∀ (i : Instr) (s t : State) (p : PState) (rst capacity : Nat), exec i s = .next t →
    ∃ p', exec i { s with pstate := p, rstCfg := rst, cfg := { s.cfg with fifoCapacity := capacity } } =
      .next { t with pstate := p', rstCfg := rst, cfg := { t.cfg with fifoCapacity := capacity } }

/-- R20, R24, R233: CLEANUP alone reads `authed`, and WAIT_FOR_TAG alone reads the signal: for every other operation two states that
differ in these alone give the same results, the same trace and the same of everything else. -/
def Obligations.OnlyCleanupReadsAuthedAndOnlyTheWaitReadsTheSignal : Prop :=
  (∀ (i : Instr) (s t : State) (b : Bool), i ≠ .cleanup → exec i s = .next t →
    ∃ b', exec i { s with authed := b } = .next { t with authed := b' }) ∧
  (∀ (i : Instr) (s t : State) (b : Bool), (∀ timeout, i ≠ .waitForTag timeout) → exec i s = .next t →
    exec i { s with signal := b } = .next { t with signal := b })

/-- R208, R15 (d) and U10: with a positive timeout the wait ends, whatever the draws: a running one after at most two steps more than the
passes left before its deadline, and so does every WAIT_FOR_TAG from its beginning; it hands back its one result and no word is taken
meanwhile (R248).  That a running wait is held between steps is this model's choice, log entry 5. -/
def Obligations.TimedWaitEnds : Prop :=
  (∀ (s : State) (w : Waiting), s.waiting = some w → w.timeout ≠ 0 →
    ∃ n u fired, n ≤ w.left + 2 ∧ afterSteps n s = some u ∧ u.waiting = none ∧ u.port = s.port ∧
      Delivers (.fired fired) .eNone s u) ∧
  (∀ (timeout : BitVec 16) (s : State), s.irqPresent = true → timeout ≠ 0 →
    ∃ t n u fired, exec (.waitForTag timeout) s = .next t ∧ afterSteps n t = some u ∧
      u.waiting = none ∧ u.port = s.port ∧ Delivers (.fired fired) .eNone s u)
end

