-- ==== Sys2Proof/Laws/Memory.lean ====
section
/-! SUPPORT. The laws of the register space as written: reading after writing, and the canonical form. -/

namespace Sys2Proof.Laws

open Sys2Proof Sys2Proof.Machine

@[simp] theorem get_set_same (a : Nat) (b : Byte) (m : Memory) : Memory.get a (Memory.set a b m) = some b := by
  induction m with
  | nil => simp [Memory.set, Memory.get]
  | cons c m ih =>
    simp only [Memory.set]
    split
    · simp [Memory.get]
    · split
      · simp [Memory.get]
      · simp_all [Memory.get]

theorem get_set_other {a x : Nat} (b : Byte) (m : Memory) (h : x ≠ a) :
    Memory.get x (Memory.set a b m) = Memory.get x m := by
  induction m with
  | nil => simp [Memory.set, Memory.get, Ne.symm h]
  | cons c m ih =>
    simp only [Memory.set]
    split
    · simp [Memory.get, Ne.symm h]
    · split
      · rename_i hc
        simp [Memory.get, hc, Ne.symm h]
      · simp [Memory.get, ih]

/-- The canonical form as a relation: locations strictly rising and below 64. -/
theorem wf_iff (m : Memory) : Memory.wf m = true ↔ m.Pairwise (fun c d => c.1 < d.1) ∧ ∀ c ∈ m, c.1 < 64 := by
  induction m with
  | nil => simp [Memory.wf]
  | cons c m ih =>
    cases m with
    | nil => simp [Memory.wf]
    | cons d m =>
      simp only [Memory.wf, Bool.and_eq_true, decide_eq_true_eq, ih, List.pairwise_cons, List.mem_cons]
      constructor
      · rintro ⟨hcd, ⟨hd, hm⟩, hb⟩
        refine ⟨⟨?_, hd, hm⟩, ?_⟩
        · rintro x (rfl | hx)
          · exact hcd
          · exact hcd.trans (hd x hx)
        · rintro x (rfl | hx)
          · exact hcd.trans (hb d (.inl rfl))
          · exact hb x hx
      · rintro ⟨⟨hc, hd, hm⟩, hb⟩
        exact ⟨hc d (.inl rfl), ⟨hd, hm⟩, fun x hx => hb x (.inr hx)⟩

/-- The locations after a write are those before it and the one written. -/
theorem mem_set {a : Nat} {b : Byte} {m : Memory} {x : Host.Cell} (h : x ∈ Memory.set a b m) : x = (a, b) ∨ x ∈ m := by
  induction m with
  | nil => simpa [Memory.set] using h
  | cons c m ih =>
    simp only [Memory.set] at h
    split at h
    · simpa using h
    · split at h
      · rcases List.mem_cons.1 h with h | h
        · exact .inl h
        · exact .inr (List.mem_cons_of_mem _ h)
      · rcases List.mem_cons.1 h with h | h
        · exact .inr (by simp [h])
        · exact (ih h).imp_right (List.mem_cons_of_mem _)

/-- Every write of a location below 64 keeps the canonical form. -/
theorem set_wf {a : Nat} (b : Byte) {m : Memory} (ha : a < 64) (h : Memory.wf m = true) :
    Memory.wf (Memory.set a b m) = true := by
  rw [wf_iff] at h ⊢
  refine ⟨?_, fun x hx => (mem_set hx).elim (fun e => e ▸ ha) (h.2 x)⟩
  obtain ⟨hp, -⟩ := h
  induction m with
  | nil => simp [Memory.set]
  | cons c m ih =>
    obtain ⟨hc, hm⟩ := List.pairwise_cons.1 hp
    simp only [Memory.set]
    split
    · rename_i hlt
      refine List.pairwise_cons.2 ⟨?_, hp⟩
      intro x hx
      rcases List.mem_cons.1 hx with rfl | hx
      · exact hlt
      · exact hlt.trans (hc x hx)
    · split
      · rename_i he
        exact List.pairwise_cons.2 ⟨fun x hx => he ▸ hc x hx, hm⟩
      · rename_i hlt hne
        refine List.pairwise_cons.2 ⟨fun x hx => ?_, ih hm⟩
        rcases mem_set hx with rfl | hx
        · show c.1 < a
          omega
        · exact hc x hx

/-- A location is one of the 64 (R51). -/
theorem location_lt (a : Byte) : location a < 64 := by
  have h : (a &&& 0x3F).toNat ≤ (0x3F : Byte).toNat := by
    rw [BitVec.toNat_and]
    exact Nat.and_le_right
  have : (0x3F : Byte).toNat = 63 := rfl
  unfold location
  omega

end Sys2Proof.Laws
end

