-- ==== Sys2Proof/Laws/State.lean ====
section
/-! SUPPORT. What each update of the state leaves in each field: one lemma per field per update, so that no later proof unfolds a
record update. -/

namespace Sys2Proof.Laws

open Sys2Proof Sys2Proof.Machine

/-! ### `emit` -/

@[simp] theorem emit_cfg (evs : List Event) (s : State) : (emit evs s).cfg = s.cfg := rfl
@[simp] theorem emit_csPresent (evs : List Event) (s : State) : (emit evs s).csPresent = s.csPresent := rfl
@[simp] theorem emit_irqPresent (evs : List Event) (s : State) : (emit evs s).irqPresent = s.irqPresent := rfl
@[simp] theorem emit_rstCfg (evs : List Event) (s : State) : (emit evs s).rstCfg = s.rstCfg := rfl
@[simp] theorem emit_authed (evs : List Event) (s : State) : (emit evs s).authed = s.authed := rfl
@[simp] theorem emit_gain (evs : List Event) (s : State) : (emit evs s).gain = s.gain := rfl
@[simp] theorem emit_pstate (evs : List Event) (s : State) : (emit evs s).pstate = s.pstate := rfl
@[simp] theorem emit_signal (evs : List Event) (s : State) : (emit evs s).signal = s.signal := rfl
@[simp] theorem emit_waiting (evs : List Event) (s : State) : (emit evs s).waiting = s.waiting := rfl
@[simp] theorem emit_port (evs : List Event) (s : State) : (emit evs s).port = s.port := rfl
@[simp] theorem emit_results (evs : List Event) (s : State) : (emit evs s).results = s.results := rfl
@[simp] theorem emit_trace (evs : List Event) (s : State) : (emit evs s).trace = s.trace ++ evs := rfl
@[simp] theorem emit_chipRegs (evs : List Event) (s : State) : (emit evs s).chipRegs = s.chipRegs := rfl
@[simp] theorem emit_env (evs : List Event) (s : State) : (emit evs s).env = s.env := rfl

/-! ### `complete` -/

@[simp] theorem complete_cfg (r : Result) (c : Cause) (s : State) : (complete r c s).cfg = s.cfg := rfl
@[simp] theorem complete_csPresent (r : Result) (c : Cause) (s : State) : (complete r c s).csPresent = s.csPresent := rfl
@[simp] theorem complete_irqPresent (r : Result) (c : Cause) (s : State) : (complete r c s).irqPresent = s.irqPresent := rfl
@[simp] theorem complete_rstCfg (r : Result) (c : Cause) (s : State) : (complete r c s).rstCfg = s.rstCfg := rfl
@[simp] theorem complete_authed (r : Result) (c : Cause) (s : State) : (complete r c s).authed = s.authed := rfl
@[simp] theorem complete_gain (r : Result) (c : Cause) (s : State) : (complete r c s).gain = s.gain := rfl
@[simp] theorem complete_pstate (r : Result) (c : Cause) (s : State) : (complete r c s).pstate = s.pstate := rfl
@[simp] theorem complete_signal (r : Result) (c : Cause) (s : State) : (complete r c s).signal = s.signal := rfl
@[simp] theorem complete_waiting (r : Result) (c : Cause) (s : State) : (complete r c s).waiting = s.waiting := rfl
@[simp] theorem complete_port (r : Result) (c : Cause) (s : State) : (complete r c s).port = s.port := rfl
@[simp] theorem complete_results (r : Result) (c : Cause) (s : State) : (complete r c s).results = s.results ++ [⟨r, c⟩] := rfl
@[simp] theorem complete_trace (r : Result) (c : Cause) (s : State) : (complete r c s).trace = s.trace := rfl
@[simp] theorem complete_chipRegs (r : Result) (c : Cause) (s : State) : (complete r c s).chipRegs = s.chipRegs := rfl
@[simp] theorem complete_env (r : Result) (c : Cause) (s : State) : (complete r c s).env = s.env := rfl

/-! ### `reject` -/

@[simp] theorem reject_cfg (c : Cause) (s : State) : (reject c s).cfg = s.cfg := rfl
@[simp] theorem reject_csPresent (c : Cause) (s : State) : (reject c s).csPresent = s.csPresent := rfl
@[simp] theorem reject_irqPresent (c : Cause) (s : State) : (reject c s).irqPresent = s.irqPresent := rfl
@[simp] theorem reject_rstCfg (c : Cause) (s : State) : (reject c s).rstCfg = s.rstCfg := rfl
@[simp] theorem reject_authed (c : Cause) (s : State) : (reject c s).authed = s.authed := rfl
@[simp] theorem reject_gain (c : Cause) (s : State) : (reject c s).gain = s.gain := rfl
@[simp] theorem reject_pstate (c : Cause) (s : State) : (reject c s).pstate = s.pstate := rfl
@[simp] theorem reject_signal (c : Cause) (s : State) : (reject c s).signal = s.signal := rfl
@[simp] theorem reject_waiting (c : Cause) (s : State) : (reject c s).waiting = s.waiting := rfl
@[simp] theorem reject_port (c : Cause) (s : State) : (reject c s).port = s.port := rfl
@[simp] theorem reject_results (c : Cause) (s : State) : (reject c s).results = s.results ++ [⟨.rejected, c⟩] := rfl
@[simp] theorem reject_trace (c : Cause) (s : State) : (reject c s).trace = s.trace := rfl
@[simp] theorem reject_chipRegs (c : Cause) (s : State) : (reject c s).chipRegs = s.chipRegs := rfl
@[simp] theorem reject_env (c : Cause) (s : State) : (reject c s).env = s.env := rfl

/-! ### `setAuthed` -/

@[simp] theorem setAuthed_cfg (b : Bool) (s : State) : (setAuthed b s).cfg = s.cfg := rfl
@[simp] theorem setAuthed_csPresent (b : Bool) (s : State) : (setAuthed b s).csPresent = s.csPresent := rfl
@[simp] theorem setAuthed_irqPresent (b : Bool) (s : State) : (setAuthed b s).irqPresent = s.irqPresent := rfl
@[simp] theorem setAuthed_rstCfg (b : Bool) (s : State) : (setAuthed b s).rstCfg = s.rstCfg := rfl
@[simp] theorem setAuthed_authed (b : Bool) (s : State) : (setAuthed b s).authed = b := rfl
@[simp] theorem setAuthed_gain (b : Bool) (s : State) : (setAuthed b s).gain = s.gain := rfl
@[simp] theorem setAuthed_pstate (b : Bool) (s : State) : (setAuthed b s).pstate = s.pstate := rfl
@[simp] theorem setAuthed_signal (b : Bool) (s : State) : (setAuthed b s).signal = s.signal := rfl
@[simp] theorem setAuthed_waiting (b : Bool) (s : State) : (setAuthed b s).waiting = s.waiting := rfl
@[simp] theorem setAuthed_port (b : Bool) (s : State) : (setAuthed b s).port = s.port := rfl
@[simp] theorem setAuthed_results (b : Bool) (s : State) : (setAuthed b s).results = s.results := rfl
@[simp] theorem setAuthed_trace (b : Bool) (s : State) : (setAuthed b s).trace = s.trace := rfl
@[simp] theorem setAuthed_chipRegs (b : Bool) (s : State) : (setAuthed b s).chipRegs = s.chipRegs := rfl
@[simp] theorem setAuthed_env (b : Bool) (s : State) : (setAuthed b s).env = s.env := rfl

/-! ### `setPState` -/

@[simp] theorem setPState_cfg (p : PState) (s : State) : (setPState p s).cfg = s.cfg := rfl
@[simp] theorem setPState_csPresent (p : PState) (s : State) : (setPState p s).csPresent = s.csPresent := rfl
@[simp] theorem setPState_irqPresent (p : PState) (s : State) : (setPState p s).irqPresent = s.irqPresent := rfl
@[simp] theorem setPState_rstCfg (p : PState) (s : State) : (setPState p s).rstCfg = s.rstCfg := rfl
@[simp] theorem setPState_authed (p : PState) (s : State) : (setPState p s).authed = s.authed := rfl
@[simp] theorem setPState_gain (p : PState) (s : State) : (setPState p s).gain = s.gain := rfl
@[simp] theorem setPState_pstate (p : PState) (s : State) : (setPState p s).pstate = p := rfl
@[simp] theorem setPState_signal (p : PState) (s : State) : (setPState p s).signal = s.signal := rfl
@[simp] theorem setPState_waiting (p : PState) (s : State) : (setPState p s).waiting = s.waiting := rfl
@[simp] theorem setPState_port (p : PState) (s : State) : (setPState p s).port = s.port := rfl
@[simp] theorem setPState_results (p : PState) (s : State) : (setPState p s).results = s.results := rfl
@[simp] theorem setPState_trace (p : PState) (s : State) : (setPState p s).trace = s.trace := rfl
@[simp] theorem setPState_chipRegs (p : PState) (s : State) : (setPState p s).chipRegs = s.chipRegs := rfl
@[simp] theorem setPState_env (p : PState) (s : State) : (setPState p s).env = s.env := rfl

/-! ### `setGain` -/

@[simp] theorem setGain_cfg (g : BitVec 3) (s : State) : (setGain g s).cfg = s.cfg := rfl
@[simp] theorem setGain_csPresent (g : BitVec 3) (s : State) : (setGain g s).csPresent = s.csPresent := rfl
@[simp] theorem setGain_irqPresent (g : BitVec 3) (s : State) : (setGain g s).irqPresent = s.irqPresent := rfl
@[simp] theorem setGain_rstCfg (g : BitVec 3) (s : State) : (setGain g s).rstCfg = s.rstCfg := rfl
@[simp] theorem setGain_authed (g : BitVec 3) (s : State) : (setGain g s).authed = s.authed := rfl
@[simp] theorem setGain_gain (g : BitVec 3) (s : State) : (setGain g s).gain = g := rfl
@[simp] theorem setGain_pstate (g : BitVec 3) (s : State) : (setGain g s).pstate = s.pstate := rfl
@[simp] theorem setGain_signal (g : BitVec 3) (s : State) : (setGain g s).signal = s.signal := rfl
@[simp] theorem setGain_waiting (g : BitVec 3) (s : State) : (setGain g s).waiting = s.waiting := rfl
@[simp] theorem setGain_port (g : BitVec 3) (s : State) : (setGain g s).port = s.port := rfl
@[simp] theorem setGain_results (g : BitVec 3) (s : State) : (setGain g s).results = s.results := rfl
@[simp] theorem setGain_trace (g : BitVec 3) (s : State) : (setGain g s).trace = s.trace := rfl
@[simp] theorem setGain_chipRegs (g : BitVec 3) (s : State) : (setGain g s).chipRegs = s.chipRegs := rfl
@[simp] theorem setGain_env (g : BitVec 3) (s : State) : (setGain g s).env = s.env := rfl

/-! ### `setSignal` -/

@[simp] theorem setSignal_cfg (b : Bool) (s : State) : (setSignal b s).cfg = s.cfg := rfl
@[simp] theorem setSignal_csPresent (b : Bool) (s : State) : (setSignal b s).csPresent = s.csPresent := rfl
@[simp] theorem setSignal_irqPresent (b : Bool) (s : State) : (setSignal b s).irqPresent = s.irqPresent := rfl
@[simp] theorem setSignal_rstCfg (b : Bool) (s : State) : (setSignal b s).rstCfg = s.rstCfg := rfl
@[simp] theorem setSignal_authed (b : Bool) (s : State) : (setSignal b s).authed = s.authed := rfl
@[simp] theorem setSignal_gain (b : Bool) (s : State) : (setSignal b s).gain = s.gain := rfl
@[simp] theorem setSignal_pstate (b : Bool) (s : State) : (setSignal b s).pstate = s.pstate := rfl
@[simp] theorem setSignal_signal (b : Bool) (s : State) : (setSignal b s).signal = b := rfl
@[simp] theorem setSignal_waiting (b : Bool) (s : State) : (setSignal b s).waiting = s.waiting := rfl
@[simp] theorem setSignal_port (b : Bool) (s : State) : (setSignal b s).port = s.port := rfl
@[simp] theorem setSignal_results (b : Bool) (s : State) : (setSignal b s).results = s.results := rfl
@[simp] theorem setSignal_trace (b : Bool) (s : State) : (setSignal b s).trace = s.trace := rfl
@[simp] theorem setSignal_chipRegs (b : Bool) (s : State) : (setSignal b s).chipRegs = s.chipRegs := rfl
@[simp] theorem setSignal_env (b : Bool) (s : State) : (setSignal b s).env = s.env := rfl

/-! ### `takeWord` -/

@[simp] theorem takeWord_cfg (ws : List PortWord) (s : State) : (takeWord ws s).cfg = s.cfg := rfl
@[simp] theorem takeWord_csPresent (ws : List PortWord) (s : State) : (takeWord ws s).csPresent = s.csPresent := rfl
@[simp] theorem takeWord_irqPresent (ws : List PortWord) (s : State) : (takeWord ws s).irqPresent = s.irqPresent := rfl
@[simp] theorem takeWord_rstCfg (ws : List PortWord) (s : State) : (takeWord ws s).rstCfg = s.rstCfg := rfl
@[simp] theorem takeWord_authed (ws : List PortWord) (s : State) : (takeWord ws s).authed = s.authed := rfl
@[simp] theorem takeWord_gain (ws : List PortWord) (s : State) : (takeWord ws s).gain = s.gain := rfl
@[simp] theorem takeWord_pstate (ws : List PortWord) (s : State) : (takeWord ws s).pstate = s.pstate := rfl
@[simp] theorem takeWord_signal (ws : List PortWord) (s : State) : (takeWord ws s).signal = s.signal := rfl
@[simp] theorem takeWord_waiting (ws : List PortWord) (s : State) : (takeWord ws s).waiting = s.waiting := rfl
@[simp] theorem takeWord_port (ws : List PortWord) (s : State) : (takeWord ws s).port = ws := rfl
@[simp] theorem takeWord_results (ws : List PortWord) (s : State) : (takeWord ws s).results = s.results := rfl
@[simp] theorem takeWord_trace (ws : List PortWord) (s : State) : (takeWord ws s).trace = s.trace := rfl
@[simp] theorem takeWord_chipRegs (ws : List PortWord) (s : State) : (takeWord ws s).chipRegs = s.chipRegs := rfl
@[simp] theorem takeWord_env (ws : List PortWord) (s : State) : (takeWord ws s).env = s.env := rfl

/-! ### `placeWord` -/

@[simp] theorem placeWord_cfg (w : PortWord) (s : State) : (placeWord w s).cfg = s.cfg := rfl
@[simp] theorem placeWord_csPresent (w : PortWord) (s : State) : (placeWord w s).csPresent = s.csPresent := rfl
@[simp] theorem placeWord_irqPresent (w : PortWord) (s : State) : (placeWord w s).irqPresent = s.irqPresent := rfl
@[simp] theorem placeWord_rstCfg (w : PortWord) (s : State) : (placeWord w s).rstCfg = s.rstCfg := rfl
@[simp] theorem placeWord_authed (w : PortWord) (s : State) : (placeWord w s).authed = s.authed := rfl
@[simp] theorem placeWord_gain (w : PortWord) (s : State) : (placeWord w s).gain = s.gain := rfl
@[simp] theorem placeWord_pstate (w : PortWord) (s : State) : (placeWord w s).pstate = s.pstate := rfl
@[simp] theorem placeWord_signal (w : PortWord) (s : State) : (placeWord w s).signal = s.signal := rfl
@[simp] theorem placeWord_waiting (w : PortWord) (s : State) : (placeWord w s).waiting = none := rfl
@[simp] theorem placeWord_port (w : PortWord) (s : State) : (placeWord w s).port = [w] := rfl
@[simp] theorem placeWord_results (w : PortWord) (s : State) : (placeWord w s).results = s.results := rfl
@[simp] theorem placeWord_trace (w : PortWord) (s : State) : (placeWord w s).trace = s.trace := rfl
@[simp] theorem placeWord_chipRegs (w : PortWord) (s : State) : (placeWord w s).chipRegs = s.chipRegs := rfl
@[simp] theorem placeWord_env (w : PortWord) (s : State) : (placeWord w s).env = s.env := rfl

end Sys2Proof.Laws
end

