-- ==== Sys2Proof/Laws/Access.lean ====
section
/-! SUPPORT. What one register access does: the value a read answers, what it takes from the environment, what it puts on the
trace, and that it touches nothing else (rules R110 to R116 of spec/40_register_access.md). -/

namespace Sys2Proof.Laws

open Sys2Proof Sys2Proof.Machine

/-! ### The draw -/

/-- The answer is the next scripted one, else a free value. -/
theorem drawChip_value (s : State) : (drawChip s).1 = s.env.chip.headD (Config.freeChip s.env.asked) := by
  unfold drawChip; split <;> simp_all

@[simp] theorem drawChip_chip (s : State) : (drawChip s).2.env.chip = s.env.chip.tail := by
  unfold drawChip; split <;> simp_all

@[simp] theorem drawChip_slices (s : State) : (drawChip s).2.env.slices = s.env.slices := by
  unfold drawChip; split <;> rfl

@[simp] theorem drawChip_edges (s : State) : (drawChip s).2.env.edges = s.env.edges := by
  unfold drawChip; split <;> rfl

@[simp] theorem drawChip_trace (s : State) : (drawChip s).2.trace = s.trace := by
  unfold drawChip; split <;> rfl

@[simp] theorem drawChip_results (s : State) : (drawChip s).2.results = s.results := by
  unfold drawChip; split <;> rfl

@[simp] theorem drawChip_chipRegs (s : State) : (drawChip s).2.chipRegs = s.chipRegs := by
  unfold drawChip; split <;> rfl

@[simp] theorem drawChip_cfg (s : State) : (drawChip s).2.cfg = s.cfg := by
  unfold drawChip; split <;> rfl

@[simp] theorem drawChip_csPresent (s : State) : (drawChip s).2.csPresent = s.csPresent := by
  unfold drawChip; split <;> rfl

theorem drawChip_same (s : State) : SameEngine s (drawChip s).2 := by
  unfold drawChip
  split <;> exact ⟨⟨rfl, rfl, rfl, rfl⟩, ⟨rfl, rfl, rfl, rfl⟩, rfl, rfl, rfl, rfl⟩

/-! ### "Unchanged" composes -/

theorem same_refl (s : State) : SameEngine s s :=
  ⟨⟨rfl, rfl, rfl, rfl⟩, ⟨rfl, rfl, rfl, rfl⟩, rfl, rfl, rfl, rfl⟩

theorem same_trans {s t u : State} (h : SameEngine s t) (g : SameEngine t u) : SameEngine s u := by
  obtain ⟨⟨a1, a2, a3, a4⟩, ⟨b1, b2, b3, b4⟩, c1, c2, c3, c4⟩ := h
  obtain ⟨⟨d1, d2, d3, d4⟩, ⟨e1, e2, e3, e4⟩, f1, f2, f3, f4⟩ := g
  exact ⟨⟨d1.trans a1, d2.trans a2, d3.trans a3, d4.trans a4⟩,
    ⟨e1.trans b1, e2.trans b2, e3.trans b3, e4.trans b4⟩, f1.trans c1, f2.trans c2, f3.trans c3, f4.trans c4⟩

/-! ### A write -/

@[simp] theorem regWrite_trace (a v : Byte) (s : State) :
    (regWrite a v s).trace = s.trace ++ window s.csPresent (wr a v) := by
  have h : addrByte a false = (a <<< 1) &&& 0x7E := by simp [addrByte]
  simp [regWrite, wr, h]

@[simp] theorem regWrite_chipRegs (a v : Byte) (s : State) :
    (regWrite a v s).chipRegs = Memory.set (location a) v s.chipRegs := rfl

@[simp] theorem regWrite_env (a v : Byte) (s : State) : (regWrite a v s).env = s.env := rfl
@[simp] theorem regWrite_cfg (a v : Byte) (s : State) : (regWrite a v s).cfg = s.cfg := rfl
@[simp] theorem regWrite_csPresent (a v : Byte) (s : State) : (regWrite a v s).csPresent = s.csPresent := rfl
@[simp] theorem regWrite_gain (a v : Byte) (s : State) : (regWrite a v s).gain = s.gain := rfl
@[simp] theorem regWrite_results (a v : Byte) (s : State) : (regWrite a v s).results = s.results := rfl

theorem regWrite_same (a v : Byte) (s : State) : SameEngine s (regWrite a v s) :=
  ⟨⟨rfl, rfl, rfl, rfl⟩, ⟨rfl, rfl, rfl, rfl⟩, rfl, rfl, rfl, rfl⟩

/-! ### A read -/

theorem regRead_value (a : Byte) (s : State) :
    (regRead a s).1 = s.env.chip.headD (Config.freeChip s.env.asked) := drawChip_value s

/-- The scripted answer, when there is one. -/
theorem regRead_scripted {a : Byte} {s : State} {b : Byte} {rest : List Byte} (h : s.env.chip = b :: rest) :
    (regRead a s).1 = b := by
  rw [regRead_value, h, List.headD_cons]

@[simp] theorem regRead_trace (a : Byte) (s : State) :
    (regRead a s).2.trace = s.trace ++ window s.csPresent (rd a (regRead a s).1) := by
  have h : addrByte a true = ((a <<< 1) &&& 0x7E) ||| 0x80 := by simp [addrByte]
  simp [regRead, rd, h]

@[simp] theorem regRead_chip (a : Byte) (s : State) : (regRead a s).2.env.chip = s.env.chip.tail := drawChip_chip s
@[simp] theorem regRead_chipRegs (a : Byte) (s : State) : (regRead a s).2.chipRegs = s.chipRegs := drawChip_chipRegs s
@[simp] theorem regRead_cfg (a : Byte) (s : State) : (regRead a s).2.cfg = s.cfg := drawChip_cfg s
@[simp] theorem regRead_csPresent (a : Byte) (s : State) : (regRead a s).2.csPresent = s.csPresent := drawChip_csPresent s
@[simp] theorem regRead_results (a : Byte) (s : State) : (regRead a s).2.results = s.results := drawChip_results s

theorem emit_same (evs : List Event) (s : State) : SameEngine s (emit evs s) :=
  ⟨⟨rfl, rfl, rfl, rfl⟩, ⟨rfl, rfl, rfl, rfl⟩, rfl, rfl, rfl, rfl⟩

theorem regRead_same (a : Byte) (s : State) : SameEngine s (regRead a s).2 :=
  same_trans (drawChip_same s) (emit_same _ _)

@[simp] theorem regRead_gain (a : Byte) (s : State) : (regRead a s).2.gain = s.gain :=
  (regRead_same a s).2.2.2.1

end Sys2Proof.Laws
end

