-- ==== Sys2Proof/Laws/Blind.lean ====
section
/-! SUPPORT. What the bus side of every operation does not read: the procedure state, the Authenticated flag, the signal, the interrupt
line's presence, the reset-line configuration and the FIFO capacity (rules R20, R22 to R24, R52 of spec/).  Changing them before a procedure is the same as
changing them after it. -/

namespace Sys2Proof.Laws

open Sys2Proof Sys2Proof.Machine

/-- The pieces of state no access reads. -/
structure Unread where
  pstate     : PState
  authed     : Bool
  signal     : Bool
  irqPresent : Bool
  rstCfg     : Nat
  capacity   : Nat

/-- `s` with those put in place of its own. -/
def Unread.into (x : Unread) (s : State) : State :=
  { s with pstate := x.pstate, authed := x.authed, signal := x.signal,
           irqPresent := x.irqPresent, rstCfg := x.rstCfg,
           cfg := { s.cfg with fifoCapacity := x.capacity } }

/-- A procedure gives the same value, and the same state those apart. -/
def BlindTo {α : Type} (x : Unread) (f : State → α × State) : Prop := ∀ s, f (x.into s) = ((f s).1, x.into (f s).2)

variable (x : Unread)

theorem regWrite_blind (a v : Byte) (s : State) : regWrite a v (x.into s) = x.into (regWrite a v s) := rfl

theorem emit_blind (evs : List Event) (s : State) : emit evs (x.into s) = x.into (emit evs s) := rfl

theorem complete_blind (r : Result) (c : Cause) (s : State) : complete r c (x.into s) = x.into (complete r c s) := rfl

theorem drawChip_blind : BlindTo x drawChip := by
  intro s
  have e : (x.into s).env = s.env := rfl
  simp only [drawChip, e]
  split <;> rfl

theorem regRead_blind (a : Byte) : BlindTo x (regRead a) := by
  intro s
  simp only [regRead, drawChip_blind x s]
  rfl

theorem setBits_blind (a m : Byte) (s : State) : setBits a m (x.into s) = x.into (setBits a m s) := by
  simp only [setBits, regRead_blind x a s, regWrite_blind]

theorem clearBits_blind (a m : Byte) (s : State) : clearBits a m (x.into s) = x.into (clearBits a m s) := by
  simp only [clearBits, regRead_blind x a s, regWrite_blind]

theorem writeAll_blind (a : Byte) (data : List Byte) (s : State) :
    writeAll a data (x.into s) = x.into (writeAll a data s) := by
  induction data generalizing s with
  | nil => rfl
  | cons b data ih => simp only [writeAll, regWrite_blind, ih]

theorem readAll_blind (a : Byte) (n : Nat) : BlindTo x (readAll a n) := by
  intro s
  induction n generalizing s with
  | zero => rfl
  | succ n ih => simp only [readAll, regRead_blind x a s, ih]

theorem pollLoop_blind (a : Byte) (stop : Byte → Bool) (n : Nat) (p : Poll) : BlindTo x (pollLoop a stop n p) := by
  intro s
  induction n generalizing p s with
  | zero => rfl
  | succ n ih =>
    simp only [pollLoop, regRead_blind x a s]
    split
    · rfl
    · exact ih _ _

theorem poll_blind (a : Byte) (stop : Byte → Bool) (n : Nat) : BlindTo x (poll a stop n) := pollLoop_blind x a stop n _

theorem crcStart_blind (data : List Byte) (s : State) : crcStart data (x.into s) = x.into (crcStart data s) := by
  show regWrite _ _ (writeAll _ _ (setBits _ _ (clearBits _ _ (x.into s)))) = _
  rw [clearBits_blind, setBits_blind, writeAll_blind, regWrite_blind]
  rfl

theorem crcPoll_blind : BlindTo x crcPoll := fun s => poll_blind x s.cfg.aDivIrq (crcFlag s.cfg) maxCrcPolls s

theorem crcResult_blind : BlindTo x crcResult := by
  intro s
  have ec : (x.into s).cfg.aCrcResultLo = s.cfg.aCrcResultLo := rfl
  have eh : (x.into s).cfg.aCrcResultHi = s.cfg.aCrcResultHi := rfl
  simp only [crcResult, ec, eh, regRead_blind x _ _]

theorem computeCrc_blind (data : List Byte) : BlindTo x (computeCrc data) := by
  intro s
  simp only [computeCrc, crcStart_blind, crcPoll_blind x _, crcResult_blind x _]

theorem issueCommand_blind (command : Byte) (data : List Byte) (s : State) :
    issueCommand command data (x.into s) = x.into (issueCommand command data s) := by
  show regWrite _ _ (writeAll _ _ (regWrite _ _ (setBits _ _ (clearBits _ _ (regWrite _ _ (x.into s)))))) = _
  rw [regWrite_blind, clearBits_blind, setBits_blind, regWrite_blind, writeAll_blind, regWrite_blind]
  rfl

theorem startSend_blind (command : Byte) (s : State) : startSend command (x.into s) = x.into (startSend command s) := by
  have e : startSend command (x.into s) =
      if command = s.cfg.cmdTransceive then setBits s.cfg.aBitFraming s.cfg.startSend (x.into s) else x.into s := rfl
  rw [e, setBits_blind]
  unfold startSend
  split <;> rfl

theorem commandPoll_blind (command : Byte) : BlindTo x (commandPoll command) := fun s =>
  poll_blind x s.cfg.aIrq (commandDone s.cfg (waitOf s.cfg command)) maxCommandPolls s

theorem stopSend_blind (s : State) : stopSend (x.into s) = x.into (stopSend s) := clearBits_blind x _ _ s

theorem drain_blind (command : Byte) : BlindTo x (drain command) := by
  intro s
  have e1 : (x.into s).cfg.cmdTransceive = s.cfg.cmdTransceive := rfl
  have e2 : (x.into s).cfg.aFifoLevel = s.cfg.aFifoLevel := rfl
  have e3 : (x.into s).cfg.aControl = s.cfg.aControl := rfl
  have e4 : (x.into s).cfg.aFifoData = s.cfg.aFifoData := rfl
  have e5 : (x.into s).cfg.lastBitsMask = s.cfg.lastBitsMask := rfl
  simp only [drain, e1, e2, e3, e4, e5, regRead_blind x _ _, readAll_blind x _ _ _]
  split <;> rfl

theorem warnAndDrain_blind (command n : Byte) : BlindTo x (warnAndDrain command n) := by
  intro s
  have e : softE1 (x.into s).cfg (irqEnOf (x.into s).cfg command) n = softE1 s.cfg (irqEnOf s.cfg command) n := rfl
  simp only [warnAndDrain, e]
  cases softE1 s.cfg (irqEnOf s.cfg command) n <;> simp [emit_blind, drain_blind x command _]

theorem inspect_blind (command : Byte) (p : Poll) : BlindTo x (inspect command p) := by
  intro s
  have e : (x.into s).cfg.aError = s.cfg.aError := rfl
  simp only [inspect, e, regRead_blind x _ _]
  split
  · split
    · rfl
    · exact warnAndDrain_blind x command p.n _
  · rfl

/-- `CardWrite`, the executor. -/
theorem cardWrite_blind (command : Byte) (data : List Byte) : BlindTo x (cardWrite command data) := by
  intro s
  simp only [cardWrite, issueCommand_blind, startSend_blind, commandPoll_blind x command _, stopSend_blind, inspect_blind x command _ _]

theorem transceive_blind (frame : List Byte) : BlindTo x (transceive frame) := fun s =>
  cardWrite_blind x s.cfg.cmdTransceive frame s

theorem transceiveWithCrc_blind (body : List Byte) : BlindTo x (transceiveWithCrc body) := by
  intro s
  simp only [transceiveWithCrc, computeCrc_blind x body s, transceive_blind x _ _]

theorem sendRequest_blind (mode : Byte) : BlindTo x (sendRequest mode) := by
  intro s
  have e : sendRequest mode (x.into s) = (requireBits 16 (transceive (requestFrame mode)
      (x.into (regWrite s.cfg.aBitFraming s.cfg.framing7bit s))).1, (transceive (requestFrame mode)
      (x.into (regWrite s.cfg.aBitFraming s.cfg.framing7bit s))).2) := rfl
  rw [e, transceive_blind x _ _]
  rfl

theorem sendAnticoll_blind (sel : Byte) : BlindTo x (sendAnticoll sel) := by
  intro s
  have e : sendAnticoll sel (x.into s) = (requireUid (transceive (anticollFrame sel)
      (x.into (regWrite s.cfg.aBitFraming s.cfg.framingFull s))).1, (transceive (anticollFrame sel)
      (x.into (regWrite s.cfg.aBitFraming s.cfg.framingFull s))).2) := rfl
  rw [e, transceive_blind x _ _]
  rfl

theorem sendAuth_blind (mode block : Byte) (key uid : List Byte) : BlindTo x (sendAuth mode block key uid) := by
  intro s
  have e : (x.into s).cfg.cmdAuthent = s.cfg.cmdAuthent := rfl
  have e2 : ∀ u, (x.into u).cfg.aStatus = u.cfg.aStatus := fun _ => rfl
  simp only [sendAuth, e, cardWrite_blind x _ _ _, e2, regRead_blind x _ _]

theorem readBlock_blind (block : Byte) : BlindTo x (readBlock block) := by
  intro s
  simp only [readBlock, transceiveWithCrc_blind x _ _]

theorem writePhase_blind (body : List Byte) : BlindTo x (writePhase body) := by
  intro s
  simp only [writePhase, transceiveWithCrc_blind x _ _]

theorem writeBlock_blind (block : Byte) (data : List Byte) : BlindTo x (writeBlock block data) := by
  intro s
  simp only [writeBlock, writePhase_blind x _ _]
  by_cases h : (writePhase (writeBody block) s).1.error = true
  · rw [if_pos h, if_pos h]
  · rw [if_neg h, if_neg h]

theorem initStep_blind (e : InitEntry) (s : State) : initStep e (x.into s) = x.into (initStep e s) := by
  have h : initByte (x.into s).gain e.arg = initByte s.gain e.arg := rfl
  simp only [initStep, h]
  cases e.kind
  · rfl
  · exact setBits_blind x _ _ _

theorem init_blind (s : State) : init (x.into s) = x.into (init s) := by
  have h : ∀ (es : List InitEntry) (s : State), initSteps es (x.into s) = x.into (initSteps es s) := by
    intro es
    induction es with
    | nil => intro s; rfl
    | cons e es ih => intro s; simp only [initSteps, initStep_blind, ih]
  exact h s.cfg.initSeq s

theorem rearm_blind (s : State) : rearm (x.into s) = x.into (rearm s) := by
  simp only [rearm, init_blind, regWrite_blind]
  rfl

/-! ### Procedures that move the procedure state or the flag -/

/-- The unread pieces after a procedure that moves the procedure state by `fp` and the flag by `fa`. -/
def Unread.moved (x : Unread) (fp : PState → PState) (fa : Bool → Bool) : Unread :=
  { x with pstate := fp x.pstate, authed := fa x.authed }

/-- A procedure gives the same value and the same state whatever the unread pieces, which it moves by two functions. -/
def Moves {α : Type} (f : State → α × State) (s : State) : Prop :=
  ∃ (r : α) (u : State) (fp : PState → PState) (fa : Bool → Bool), ∀ x : Unread, f (x.into s) = (r, (x.moved fp fa).into u)

theorem BlindTo.moves {α : Type} {f : State → α × State} (h : ∀ x, BlindTo x f) (s : State) : Moves f s :=
  ⟨(f s).1, (f s).2, id, id, fun x => h x s⟩

theorem advance_moves {p : PState} {f : State → Exec × State} {s : State} (h : Moves f s) : Moves (fun s => advance p (f s)) s := by
  obtain ⟨r, u, fp, fa, h⟩ := h
  by_cases he : r.error = true
  · exact ⟨r, u, fp, fa, fun x => by simp only [advance, h x, if_pos he]⟩
  · exact ⟨r, u, fun _ => p, fa, fun x => by simp only [advance, h x, if_neg he]; rfl⟩

theorem request_moves (mode : Byte) (s : State) : Moves (request mode) s :=
  advance_moves (BlindTo.moves (fun x => sendRequest_blind x mode) s)

theorem anticollBody_moves (sel : Byte) (s : State) : Moves (anticollBody sel) s :=
  advance_moves (BlindTo.moves (fun x => sendAnticoll_blind x sel) s)

theorem selectTag_moves (uid : List Byte) (s : State) : Moves (selectTag uid) s :=
  advance_moves (f := fun s => (requireBits 24 (transceiveWithCrc (selectBody uid) s).1, (transceiveWithCrc (selectBody uid) s).2))
    (BlindTo.moves (fun x s => by simp only [transceiveWithCrc_blind x _ s]) s)

theorem cardAuth_moves (mode block : Byte) (key uid : List Byte) (s : State) : Moves (cardAuth mode block key uid) s := by
  by_cases he : (sendAuth mode block key uid s).1.error = true
  · exact ⟨_, _, id, id, fun x => by simp only [cardAuth, sendAuth_blind x mode block key uid s, if_pos he]; rfl⟩
  · exact ⟨_, (sendAuth mode block key uid s).2, fun _ => .authenticated, fun _ => true, fun x => by
      simp only [cardAuth, sendAuth_blind x mode block key uid s, if_neg he]; rfl⟩

theorem moved_moved (x : Unread) (fp gp : PState → PState) (fa ga : Bool → Bool) :
    (x.moved fp fa).moved gp ga = x.moved (gp ∘ fp) (ga ∘ fa) := rfl

/-- READ_ID after each of its steps. -/
theorem readId_moves (asNumber : Bool) (s : State) :
    ∃ u fp fa, ∀ x : Unread, readId asNumber (x.into s) = (x.moved fp fa).into u := by
  obtain ⟨r1, u1, f1, g1, h1⟩ := request_moves requestMode s
  by_cases e1 : r1.error = true
  · exact ⟨complete .noUid r1.cause u1, f1, g1, fun x => by simp only [readId, h1 x, if_pos e1, complete_blind]⟩
  obtain ⟨r2, u2, f2, g2, h2⟩ := anticollBody_moves selectCode1 u1
  by_cases e2 : r2.error = true
  · exact ⟨complete .noUid r2.cause u2, f2 ∘ f1, g2 ∘ g1, fun x => by
      simp only [readId, h1 x, if_neg e1, h2, if_pos e2, complete_blind, moved_moved]⟩
  by_cases ec : r2.resp.getD 0 0 = cascadeTag
  · obtain ⟨r3, u3, f3, g3, h3⟩ := selectTag_moves r2.resp u2
    by_cases e3 : r3.error = true
    · exact ⟨complete .noUid r3.cause u3, f3 ∘ f2 ∘ f1, g3 ∘ g2 ∘ g1, fun x => by
        simp only [readId, readCascade, h1 x, if_neg e1, h2, if_neg e2, if_pos ec, h3, if_pos e3, complete_blind, moved_moved]⟩
    obtain ⟨r4, u4, f4, g4, h4⟩ := anticollBody_moves selectCode2 u3
    by_cases e4 : r4.error = true
    · exact ⟨complete .noUid r4.cause u4, f4 ∘ f3 ∘ f2 ∘ f1, g4 ∘ g3 ∘ g2 ∘ g1, fun x => by
        simp only [readId, readCascade, h1 x, if_neg e1, h2, if_neg e2, if_pos ec, h3, if_neg e3, h4, if_pos e4, complete_blind,
          moved_moved]⟩
    · exact ⟨complete (uidResult asNumber (uidOfStages r2.resp r4.resp)) .eNone u4, f4 ∘ f3 ∘ f2 ∘ f1, g4 ∘ g3 ∘ g2 ∘ g1,
        fun x => by
        simp only [readId, readCascade, h1 x, if_neg e1, h2, if_neg e2, if_pos ec, h3, if_neg e3, h4, if_neg e4, complete_blind,
          moved_moved]⟩
  · exact ⟨complete (uidResult asNumber (uidOfStage r2.resp)) .eNone u2, f2 ∘ f1, g2 ∘ g1, fun x => by
      simp only [readId, h1 x, if_neg e1, h2, if_neg e2, if_neg ec, complete_blind, moved_moved]⟩

theorem halt_moves (s : State) : ∃ u fp fa, ∀ x : Unread, halt (x.into s) = (x.moved fp fa).into u :=
  ⟨(transceive (withCrc haltBody (computeCrc haltBody s).1) (clearBits (computeCrc haltBody s).2.cfg.aStatus cryptoOn
    (computeCrc haltBody s).2)).2, fun _ => .halted, fun _ => false, fun x => by
    have e : ∀ u, (x.into u).cfg.aStatus = u.cfg.aStatus := fun _ => rfl
    simp only [halt, computeCrc_blind x _ _, e, clearBits_blind, transceive_blind x _ _]
    rfl⟩

theorem stopCrypto_moves (s : State) : ∃ u fp fa, ∀ x : Unread, stopCrypto (x.into s) = (x.moved fp fa).into u :=
  ⟨clearBits s.cfg.aStatus cryptoOn s, fun p => if p = .authenticated then .selected else p, fun _ => false, fun x => by
    have e : stopCrypto (x.into s) = if x.pstate = .authenticated
        then setPState .selected (setAuthed false (clearBits s.cfg.aStatus cryptoOn (x.into s)))
        else setAuthed false (clearBits s.cfg.aStatus cryptoOn (x.into s)) := by
      simp only [stopCrypto, clearBits_blind]; rfl
    rw [e, clearBits_blind]
    by_cases h : x.pstate = .authenticated
    · rw [if_pos h]; simp only [Unread.moved, h, if_true]; rfl
    · rw [if_neg h]; simp only [Unread.moved, h, if_false]; rfl⟩

/-- A state put back into itself. -/
theorem into_self (s : State) : (Unread.mk s.pstate s.authed s.signal s.irqPresent s.rstCfg s.cfg.fifoCapacity).into s = s := rfl

/-- What every operation but CLEANUP and WAIT_FOR_TAG does, whatever the unread pieces. -/
theorem exec_moves (i : Instr) (s : State) (h1 : i ≠ .cleanup) (h2 : ∀ timeout, i ≠ .waitForTag timeout) :
    ∃ u fp fa, ∀ x : Unread, exec i (x.into s) = .next ((x.moved fp fa).into u) := by
  have done : ∀ {j : Instr} {u : State}, exec j s = .next u → (∀ x : Unread, exec j (x.into s) = .next (x.into u)) →
      ∃ u fp fa, ∀ x : Unread, exec j (x.into s) = .next ((x.moved fp fa).into u) := fun {_ u} _ h => ⟨u, id, id, h⟩
  have rejected : ∀ {j : Instr} {c : Cause}, (∀ s, exec j s = .next (reject c s)) →
      ∃ u fp fa, ∀ x : Unread, exec j (x.into s) = .next ((x.moved fp fa).into u) :=
    fun {_ c} h => ⟨reject c s, id, id, fun x => h (x.into s)⟩
  have moved : ∀ {j : Instr} {f : State → Exec × State} (g : Exec → Result), Moves f s →
      (∀ s, exec j s = .next (complete (g (f s).1) (f s).1.cause (f s).2)) →
      ∃ u fp fa, ∀ x : Unread, exec j (x.into s) = .next ((x.moved fp fa).into u) := by
    rintro j f g ⟨r, u, fp, fa, h⟩ e
    exact ⟨complete (g r) r.cause u, fp, fa, fun x => by rw [e, h x, complete_blind]⟩
  cases i with
  | cleanup => exact absurd rfl h1
  | waitForTag timeout => exact absurd rfl (h2 timeout)
  | regWrite a v => exact done rfl fun x => rfl
  | regRead a => exact done rfl fun x => by simp only [exec, execRegRead, regRead_blind x _ _, complete_blind]
  | setBits a m => exact done rfl fun x => by simp only [exec, execSetBits, setBits_blind, complete_blind]
  | clearBits a m => exact done rfl fun x => by simp only [exec, execClearBits, clearBits_blind, complete_blind]
  | computeCrc data => exact done rfl fun x => by simp only [exec, execComputeCrc, computeCrc_blind x _ _, complete_blind]
  | cardWrite command data => exact done rfl fun x => by simp only [exec, execCardWrite, cardWrite_blind x _ _ _, complete_blind]
  | request mode =>
    exact moved (fun r => .answered r.error (if r.error then 0 else r.rlen)) (request_moves mode s) fun _ => rfl
  | anticoll =>
    exact moved (fun r => .bytes r.error r.resp) (anticollBody_moves selectCode1 s) fun _ => rfl
  | anticoll2 =>
    exact moved (fun r => .bytes r.error r.resp) (anticollBody_moves selectCode2 s) fun _ => rfl
  | selectTag uid =>
    by_cases hu : uid.length = anticollLen
    · exact moved (fun r => .flag r.error) (selectTag_moves uid s) fun _ => if_pos hu
    · exact rejected fun _ => if_neg hu
  | readId n =>
    obtain ⟨u, fp, fa, h⟩ := readId_moves n s
    exact ⟨u, fp, fa, fun x => by simp only [exec, execReadId, h x]⟩
  | cardAuth mode block key uid =>
    by_cases hl : key.length = keyLen ∧ uid.length = authUidLen
    · exact moved (fun r => .flag r.error) (cardAuth_moves mode block key uid s) fun _ => if_pos hl
    · exact rejected fun _ => if_neg hl
  | read block => exact done rfl fun x => by simp only [exec, execRead, readBlock_blind x _ _, complete_blind]
  | write block data =>
    by_cases hd : data.length = blockLen
    · exact done (if_pos hd) fun x => by simp only [exec, execWrite, if_pos hd, writeBlock_blind x _ _ _, complete_blind]
    · exact rejected fun _ => if_neg hd
  | halt =>
    obtain ⟨u, fp, fa, h⟩ := halt_moves s
    exact ⟨complete .done .eNone u, fp, fa, fun x => by simp only [exec, execHalt, h x, complete_blind]⟩
  | stopCrypto =>
    obtain ⟨u, fp, fa, h⟩ := stopCrypto_moves s
    exact ⟨complete .done .eNone u, fp, fa, fun x => by simp only [exec, execStopCrypto, h x, complete_blind]⟩
  | setAntennaGain g =>
    by_cases hg : gainInRange (gainOperand g) = true
    · exact done (if_pos hg) fun x => if_pos hg
    · exact rejected fun _ => if_neg hg
  | init => exact done rfl fun x => by simp only [exec, execInit, init_blind, complete_blind]
  | busWriteFrame a v => exact done rfl fun x => rfl
  | busReadFrame a => exact done rfl fun x => by simp only [exec, execBusReadFrame, regRead_blind x _ _, complete_blind]
  | tagRequest mode => exact done rfl fun x => by simp only [exec, execTagRequest, answerFrame, sendRequest_blind x _ _, complete_blind]
  | tagAnticoll1 => exact done rfl fun x => by simp only [exec, execTagAnticoll1, answerFrame, sendAnticoll_blind x _ _, complete_blind]
  | tagAnticoll2 => exact done rfl fun x => by simp only [exec, execTagAnticoll2, answerFrame, sendAnticoll_blind x _ _, complete_blind]
  | tagSelect uid lo hi =>
    by_cases hu : uid.length = anticollLen
    · exact done (if_pos hu) fun x => by simp only [exec, execTagSelect, if_pos hu, answerFrame, transceive_blind x _ _, complete_blind]
    · exact rejected fun _ => if_neg hu
  | tagAuthA block key uid =>
    by_cases hl : key.length = keyLen ∧ uid.length = authUidLen
    · exact done (if_pos hl) fun x => by simp only [exec, execTagAuthA, if_pos hl, answerFrame, sendAuth_blind x _ _ _ _ _, complete_blind]
    · exact rejected fun _ => if_neg hl
  | tagAuthB block key uid =>
    by_cases hl : key.length = keyLen ∧ uid.length = authUidLen
    · exact done (if_pos hl) fun x => by simp only [exec, execTagAuthB, if_pos hl, answerFrame, sendAuth_blind x _ _ _ _ _, complete_blind]
    · exact rejected fun _ => if_neg hl
  | tagRead block lo hi => exact done rfl fun x => by simp only [exec, execTagRead, answerFrame, transceive_blind x _ _, complete_blind]
  | tagWritePhase1 block lo hi => exact done rfl fun x => by simp only [exec, execTagWritePhase1, answerFrame, transceive_blind x _ _, complete_blind]
  | tagWritePhase2 data lo hi =>
    by_cases hd : data.length = blockLen
    · exact done (if_pos hd) fun x => by simp only [exec, execTagWritePhase2, if_pos hd, answerFrame, transceive_blind x _ _, complete_blind]
    · exact rejected fun _ => if_neg hd
  | tagHalt lo hi => exact done rfl fun x => by simp only [exec, execTagHalt, transceive_blind x _ _, complete_blind]
  | cmdIdle => exact done rfl fun x => rfl
  | cmdCalcCrc => exact done rfl fun x => rfl
  | cmdTransceive => exact done rfl fun x => rfl
  | cmdAuthent => exact done rfl fun x => rfl
  | cmdSoftReset => exact done rfl fun x => rfl

end Sys2Proof.Laws
end

