-- ==== Sys2Proof/Laws/Ran.lean ====
section
/-! SUPPORT. What a sequence of accesses does, exactly: its events in order and the answers it took.  The claims about a whole
operation are assembled from these pieces with `Ran.trans`. -/

namespace Sys2Proof.Laws

open Sys2Proof Sys2Proof.Machine

/-- `t` comes from `s` with these events put on the trace and these answers taken, the register space changed by the write frames
among them, and no engine register, no port and no result changed. -/
def Ran (evs : List Event) (answers : List Byte) (s t : State) : Prop :=
  t.trace = s.trace ++ evs ∧ Answered answers s t ∧ SameEngine s t ∧ t.results = s.results ∧
    t.chipRegs = replay evs s.chipRegs

variable {s t u : State} {evs evs' : List Event} {as bs : List Byte}

/-! ### Answers -/

theorem answered_nil (h : t.env.chip = s.env.chip) : Answered [] s t := ⟨by simp, by simp [h]⟩

theorem answered_trans (h : Answered as s t) (g : Answered bs t u) : Answered (as ++ bs) s u := by
  obtain ⟨h1, h2⟩ := h
  obtain ⟨g1, g2⟩ := g
  rw [h2] at g1 g2
  refine ⟨?_, by rw [g2, List.drop_drop, List.length_append]⟩
  rw [List.length_append, List.take_add]
  by_cases hl : as.length ≤ s.env.chip.length
  · have e : s.env.chip.take as.length = as := by
      obtain ⟨r, hr⟩ := h1
      have : r.length = 0 := by
        have := congrArg List.length hr
        simp [Nat.min_eq_left hl] at this
        simpa using this
      rw [List.length_eq_zero_iff.1 this, List.append_nil] at hr
      exact hr
    rw [e]
    exact (List.prefix_append_right_inj as).2 g1
  · have hd : s.env.chip.drop as.length = [] := List.drop_eq_nil_of_le (by omega)
    rw [hd, List.take_nil, List.append_nil]
    exact h1.trans (List.prefix_append as bs)

/-- Where the script holds every answer, the answers are the script's. -/
theorem answered_scripted {rest : List Byte} (h : Answered as s t) (hs : s.env.chip = bs ++ rest)
    (hl : bs.length = as.length) : as = bs ∧ t.env.chip = rest := by
  obtain ⟨⟨r, hr⟩, h2⟩ := h
  rw [hs, ← hl, List.take_left] at hr
  have : r = [] := by
    have := congrArg List.length hr
    simp only [List.length_append] at this
    exact List.length_eq_zero_iff.1 (by omega)
  exact ⟨by rw [← hr, this, List.append_nil], by rw [h2, hs, ← hl, List.drop_left]⟩

/-! ### The register space is the replay of the trace -/

theorem replay_append (xs ys : List Event) (m : Memory) : replay (xs ++ ys) m = replay ys (replay xs m) := List.foldl_append

/-- The address bits of a frame byte are the low six bits of the operand (R51, R89). -/
theorem frame_address : ∀ a : Byte, ((a <<< 1) &&& 0x7E) >>> 1 = a &&& 0x3F := by decide

/-- A write frame stores at the location its address operand names (R51). -/
theorem written_wr (a v : Byte) (m : Memory) : written m (wr a v) = Memory.set (location a) v m := by
  simp only [written, wr, frame_address, location]

theorem replay_write (c : Bool) (a v : Byte) (m : Memory) :
    replay (onBus c [wr a v]) m = Memory.set (location a) v m := by
  rw [← written_wr]
  cases c <;> rfl

theorem replay_read (c : Bool) (a v : Byte) (m : Memory) : replay (onBus c [rd a v]) m = m := by
  cases c <;> rfl

/-! ### `Ran` composes -/

theorem Ran.refl (s : State) : Ran [] [] s s := ⟨by simp, answered_nil rfl, same_refl s, rfl, rfl⟩

theorem Ran.trans (h : Ran evs as s t) (g : Ran evs' bs t u) : Ran (evs ++ evs') (as ++ bs) s u :=
  ⟨by rw [g.1, h.1, List.append_assoc], answered_trans h.2.1 g.2.1, same_trans h.2.2.1 g.2.2.1, g.2.2.2.1.trans h.2.2.2.1,
    by rw [g.2.2.2.2, h.2.2.2.2, replay_append]⟩

theorem onBus_append (c : Bool) (xs ys : List Event) : onBus c (xs ++ ys) = onBus c xs ++ onBus c ys :=
  List.flatMap_append

@[simp] theorem onBus_nil (c : Bool) : onBus c [] = [] := rfl

/-- Composition of two pieces that carry transactions only. -/
theorem Ran.bus {xs ys : List Event} (h : Ran (onBus s.csPresent xs) as s t) (g : Ran (onBus t.csPresent ys) bs t u) :
    Ran (onBus s.csPresent (xs ++ ys)) (as ++ bs) s u := by
  have e : t.csPresent = s.csPresent := h.2.2.1.1.2.1
  have r := h.trans g
  rw [e, ← onBus_append] at r
  exact r

theorem Ran.cfg (h : Ran evs as s t) : t.cfg = s.cfg := h.2.2.1.1.1
theorem Ran.csPresent (h : Ran evs as s t) : t.csPresent = s.csPresent := h.2.2.1.1.2.1
theorem Ran.gain (h : Ran evs as s t) : t.gain = s.gain := h.2.2.1.2.2.2.1
theorem Ran.trace (h : Ran evs as s t) : t.trace = s.trace ++ evs := h.1
theorem Ran.answered (h : Ran evs as s t) : Answered as s t := h.2.1
theorem Ran.same (h : Ran evs as s t) : SameEngine s t := h.2.2.1
theorem Ran.results (h : Ran evs as s t) : t.results = s.results := h.2.2.2.1
theorem Ran.chipRegs (h : Ran evs as s t) : t.chipRegs = replay evs s.chipRegs := h.2.2.2.2

/-! ### The accesses -/

theorem log_ran (s : State) : Ran [.logE1] [] s (emit [.logE1] s) := ⟨rfl, answered_nil rfl, emit_same _ s, rfl, rfl⟩

theorem regWrite_ran (a v : Byte) (s : State) : Ran (onBus s.csPresent [wr a v]) [] s (regWrite a v s) :=
  ⟨by simp [onBus], answered_nil rfl, regWrite_same a v s, rfl, (replay_write ..).symm⟩

theorem regRead_ran (a : Byte) (s : State) :
    Ran (onBus s.csPresent [rd a (regRead a s).1]) [(regRead a s).1] s (regRead a s).2 := by
  refine ⟨by simp [onBus], ⟨?_, by simp⟩, regRead_same a s, by simp, by rw [replay_read, regRead_chipRegs]⟩
  rw [regRead_value]
  cases s.env.chip <;> simp

theorem setBits_ran (a m : Byte) (s : State) :
    ∃ v, Ran (onBus s.csPresent (setXfers a m v)) [v] s (setBits a m s) :=
  ⟨_, (regRead_ran a s).bus (regWrite_ran a (withBits (regRead a s).1 m) _)⟩

theorem clearBits_ran (a m : Byte) (s : State) :
    ∃ v, Ran (onBus s.csPresent (clearXfers a m v)) [v] s (clearBits a m s) :=
  ⟨_, (regRead_ran a s).bus (regWrite_ran a (withoutBits (regRead a s).1 m) _)⟩

theorem writeAll_ran (a : Byte) (data : List Byte) (s : State) :
    Ran (onBus s.csPresent (data.map (wr a))) [] s (writeAll a data s) := by
  induction data generalizing s with
  | nil => exact .refl s
  | cons b data ih => exact (regWrite_ran a b s).bus (ih (regWrite a b s))

theorem readAll_ran (a : Byte) (count : Nat) (s : State) :
    Ran (onBus s.csPresent ((readAll a count s).1.map (rd a))) (readAll a count s).1 s (readAll a count s).2 := by
  induction count generalizing s with
  | zero => exact .refl s
  | succ count ih => exact (regRead_ran a s).bus (ih (regRead a s).2)

@[simp] theorem readAll_length (a : Byte) (count : Nat) (s : State) : (readAll a count s).1.length = count := by
  induction count generalizing s with
  | zero => rfl
  | succ count ih => simp [readAll, ih]

/-! ### The poll -/

theorem pollLoop_ran (a : Byte) (stop : Byte → Bool) (left : Nat) (p : Poll) (s : State) :
    ∃ polls n, PollAnswers stop (left + 1) polls n (pollLoop a stop (left + 1) p s).1.completed ∧
      (pollLoop a stop (left + 1) p s).1.n = n ∧
      Ran (onBus s.csPresent (polls.map (rd a))) polls s (pollLoop a stop (left + 1) p s).2 := by
  induction left generalizing p s with
  | zero =>
    refine ⟨[(regRead a s).1], (regRead a s).1, ?_⟩
    by_cases h : stop (regRead a s).1 = true
    · have e : pollLoop a stop (0 + 1) p s = (⟨(regRead a s).1, p.pollI + 1, true⟩, (regRead a s).2) := by
        simp [pollLoop, h]
      rw [e]
      exact ⟨⟨[], by simp [h]⟩, rfl, regRead_ran a s⟩
    · have e : pollLoop a stop (0 + 1) p s = (⟨(regRead a s).1, p.pollI + 1, false⟩, (regRead a s).2) := by
        simp [pollLoop, h]
      rw [e]
      exact ⟨⟨[], by simp [h]⟩, rfl, regRead_ran a s⟩
  | succ left ih =>
    by_cases h : stop (regRead a s).1 = true
    · have e : pollLoop a stop (left + 1 + 1) p s = (⟨(regRead a s).1, p.pollI + 1, true⟩, (regRead a s).2) := by
        rw [pollLoop]; simp [h]
      rw [e]
      exact ⟨[(regRead a s).1], (regRead a s).1, ⟨[], by simp [h]⟩, rfl, regRead_ran a s⟩
    · have e : pollLoop a stop (left + 1 + 1) p s =
          pollLoop a stop (left + 1) ⟨(regRead a s).1, p.pollI + 1, false⟩ (regRead a s).2 := by
        rw [pollLoop]; simp [h]
      rw [e]
      obtain ⟨polls, n, ⟨before, hp, hb, hn, hl, hx⟩, hv, hr⟩ := ih ⟨(regRead a s).1, p.pollI + 1, false⟩ (regRead a s).2
      refine ⟨(regRead a s).1 :: polls, n, ⟨(regRead a s).1 :: before, by simp [hp], ?_, hn, ?_, ?_⟩, hv, ?_⟩
      · intro b hb'
        rcases List.mem_cons.1 hb' with rfl | hb'
        · simpa using h
        · exact hb b hb'
      · simpa using hl
      · intro hc
        simpa using hx hc
      · exact (regRead_ran a s).bus hr

/-! ### COMPUTE_CRC -/

/-- All COMPUTE_CRC can do (R130 to R133). -/
theorem computeCrc_ran (data : List Byte) (s : State) :
    ∃ evs answers, CrcRun s.cfg s.csPresent data evs answers (computeCrc data s).1.1 (computeCrc data s).1.2 ∧
      Ran evs answers s (computeCrc data s).2 := by
  obtain ⟨clr, h1⟩ := clearBits_ran s.cfg.aDivIrq s.cfg.crcDone s
  obtain ⟨flush, h2⟩ := setBits_ran s.cfg.aFifoLevel s.cfg.fifoFlush (clearBits s.cfg.aDivIrq s.cfg.crcDone s)
  have start := ((h1.bus h2).bus (writeAll_ran s.cfg.aFifoData data _)).bus
    (regWrite_ran s.cfg.aCommand s.cfg.cmdCalcCrc _)
  have hc : (crcStart data s).cfg = s.cfg := start.cfg
  obtain ⟨polls, n, hp, -, h3⟩ := pollLoop_ran s.cfg.aDivIrq (crcFlag s.cfg) 254 ⟨0x00, 0, false⟩ (crcStart data s)
  have e : crcPoll (crcStart data s) = pollLoop s.cfg.aDivIrq (crcFlag s.cfg) (254 + 1) ⟨0x00, 0, false⟩ (crcStart data s) := by
    simp only [crcPoll, poll, maxCrcPolls, hc]
  rw [← e] at h3 hp
  have polled := start.bus h3
  have hc' : (crcPoll (crcStart data s)).2.cfg = s.cfg := polled.cfg
  have all := (polled.bus (regRead_ran s.cfg.aCrcResultLo _)).bus (regRead_ran s.cfg.aCrcResultHi _)
  refine ⟨_, _, ⟨clr, flush, polls, n, _, hp, rfl, rfl⟩, ?_⟩
  simp only [computeCrc, crcResult, hc']
  simpa using all

/-! ### CARD_WRITE -/

theorem issueCommand_ran (command : Byte) (data : List Byte) (s : State) :
    ∃ clr flush, Ran (onBus s.csPresent ([wr s.cfg.aIrqEn (irqEnOf s.cfg command ||| s.cfg.ienOr)]
        ++ clearXfers s.cfg.aIrq s.cfg.irqClearMask clr ++ setXfers s.cfg.aFifoLevel s.cfg.fifoFlush flush
        ++ [wr s.cfg.aCommand s.cfg.cmdIdle] ++ data.map (wr s.cfg.aFifoData) ++ [wr s.cfg.aCommand command]))
      [clr, flush] s (issueCommand command data s) := by
  have h0 := regWrite_ran s.cfg.aIrqEn (irqEnOf s.cfg command ||| s.cfg.ienOr) s
  obtain ⟨clr, h1⟩ := clearBits_ran s.cfg.aIrq s.cfg.irqClearMask (regWrite s.cfg.aIrqEn (irqEnOf s.cfg command ||| s.cfg.ienOr) s)
  obtain ⟨flush, h2⟩ := setBits_ran s.cfg.aFifoLevel s.cfg.fifoFlush _
  exact ⟨clr, flush, ((((h0.bus h1).bus h2).bus (regWrite_ran s.cfg.aCommand s.cfg.cmdIdle _)).bus
    (writeAll_ran s.cfg.aFifoData data _)).bus (regWrite_ran s.cfg.aCommand command _)⟩

theorem startSend_ran (command : Byte) (s : State) :
    ∃ frm, Ran (onBus s.csPresent (if command = s.cfg.cmdTransceive then setXfers s.cfg.aBitFraming s.cfg.startSend frm else []))
      (if command = s.cfg.cmdTransceive then [frm] else []) s (startSend command s) := by
  unfold startSend
  split
  · exact setBits_ran ..
  · exact ⟨0, .refl s⟩

theorem drain_ran (command : Byte) (s : State) :
    ∃ xs as, Ran (onBus s.csPresent xs) as s (drain command s).2 ∧
      (command = s.cfg.cmdTransceive → DrainRun s.cfg xs as (drain command s).1.1 (drain command s).1.2) ∧
      (command ≠ s.cfg.cmdTransceive → xs = [] ∧ as = [] ∧ (drain command s).1.1 = [] ∧ (drain command s).1.2 = 0) := by
  unfold drain
  split
  · rename_i h
    refine ⟨_, _, ((regRead_ran _ s).bus (regRead_ran _ _)).bus (readAll_ran _ _ _), fun _ => ?_, fun n => absurd h n⟩
    exact ⟨(regRead s.cfg.aFifoLevel s).1, (regRead s.cfg.aControl (regRead s.cfg.aFifoLevel s).2).1,
      by simp [drainCount, maxResponseBytes], rfl, rfl, rfl⟩
  · rename_i h
    exact ⟨[], [], .refl s, fun e => absurd e h, fun _ => ⟨rfl, rfl, rfl, rfl⟩⟩

theorem warnAndDrain_ran (command n : Byte) (s : State) :
    ∃ evs as, WarnRun s.cfg s.csPresent command n evs as (warnAndDrain command n s).1 ∧
      Ran evs as s (warnAndDrain command n s).2 := by
  unfold warnAndDrain
  dsimp only
  by_cases h : softE1 s.cfg (irqEnOf s.cfg command) n = true
  · simp only [h, if_true]
    obtain ⟨xs, as, hr, ht, hn⟩ := drain_ran command (emit [.logE1] s)
    exact ⟨_, as, ⟨xs, rfl, h.symm, rfl, ht, hn⟩,
      by simpa using (log_ran s).trans hr⟩
  · simp only [Bool.not_eq_true] at h
    simp only [h]
    obtain ⟨xs, as, hr, ht, hn⟩ := drain_ran command s
    exact ⟨_, as, ⟨xs, rfl, h.symm, rfl, ht, hn⟩, by simpa using hr⟩

/-- All CARD_WRITE can do (R140 to R152). -/
theorem cardWrite_ran (command : Byte) (data : List Byte) (s : State) :
    ∃ evs answers, CardWriteRun s.cfg s.csPresent command data evs answers (cardWrite command data s).1 ∧
      Ran evs answers s (cardWrite command data s).2 := by
  obtain ⟨clr, flush, h1⟩ := issueCommand_ran command data s
  obtain ⟨frm, h2⟩ := startSend_ran command (issueCommand command data s)
  rw [h1.cfg] at h2
  have pre := h1.bus h2
  obtain ⟨polls, n, hp, hv, h3⟩ := pollLoop_ran s.cfg.aIrq (commandDone s.cfg (waitOf s.cfg command)) 1999 ⟨0x00, 0, false⟩
    (startSend command (issueCommand command data s))
  have e : commandPoll command (startSend command (issueCommand command data s)) =
      pollLoop s.cfg.aIrq (commandDone s.cfg (waitOf s.cfg command)) (1999 + 1) ⟨0x00, 0, false⟩
        (startSend command (issueCommand command data s)) := by
    simp only [commandPoll, poll, maxCommandPolls, pre.cfg]
  rw [← e] at h3 hp hv
  have polled := pre.bus h3
  obtain ⟨stop, h4⟩ := clearBits_ran s.cfg.aBitFraming s.cfg.startSend
    (commandPoll command (startSend command (issueCommand command data s))).2
  have stopped := polled.bus h4
  have es : stopSend (commandPoll command (startSend command (issueCommand command data s))).2 =
      clearBits s.cfg.aBitFraming s.cfg.startSend (commandPoll command (startSend command (issueCommand command data s))).2 := by
    simp only [stopSend, polled.cfg]
  rw [← es] at stopped
  have hx : commandDone s.cfg (waitOf s.cfg command) = endsPoll s.cfg command := rfl
  rw [hx] at hp
  have shape : ∀ {tail : List Event} {tans : List Byte} {t : State},
      Ran tail tans (stopSend (commandPoll command (startSend command (issueCommand command data s))).2) t →
      Ran (onBus s.csPresent (executorXfers s.cfg command data clr flush frm polls stop) ++ tail)
        (executorAnswers s.cfg command clr flush frm polls stop ++ tans) s t := fun h => stopped.trans h
  generalize hs5 : stopSend (commandPoll command (startSend command (issueCommand command data s))).2 = s5 at *
  have hcfg : s5.cfg = s.cfg := stopped.cfg
  have hcs : s5.csPresent = s.csPresent := stopped.csPresent
  have hcw : cardWrite command data s =
      inspect command (commandPoll command (startSend command (issueCommand command data s))).1 s5 := by
    rw [← hs5]; rfl
  generalize (commandPoll command (startSend command (issueCommand command data s))).1 = p at *
  rw [hcw]
  unfold inspect
  by_cases hc : p.completed = true
  · rw [if_pos hc]
    dsimp only
    have hread := regRead_ran s5.cfg.aError s5
    rw [hcfg, hcs] at hread
    by_cases he : chipError (regRead s5.cfg.aError s5).1 = true
    · rw [if_pos he]
      rw [hcfg] at he
      refine ⟨_, _, ⟨clr, flush, frm, polls, stop, n, _, _, _, hp, rfl, rfl,
        .inr (.inl ⟨hc, (regRead s.cfg.aError s5).1, ?_, rfl, rfl, rfl⟩)⟩, shape ?_⟩
      · exact of_decide_eq_true he
      · rw [hcfg]; exact hread
    · rw [if_neg he]
      rw [hcfg] at he
      obtain ⟨wevs, wans, hw, hr⟩ := warnAndDrain_ran command p.n (regRead s5.cfg.aError s5).2
      rw [regRead_cfg, regRead_csPresent, hcfg, hcs, hv] at hw
      rw [hv] at hr
      rw [hcfg] at hr
      rw [hcfg, hv]
      refine ⟨_, _, ⟨clr, flush, frm, polls, stop, n, _, _, _, hp, rfl, rfl,
        .inr (.inr ⟨hc, (regRead s.cfg.aError s5).1, wevs, wans, ?_, rfl, rfl, hw⟩)⟩, shape (hread.trans hr)⟩
      exact Classical.not_not.1 fun hne => he (decide_eq_true hne)
  · rw [if_neg hc]
    simp only [Bool.not_eq_true] at hc
    exact ⟨_, _, ⟨clr, flush, frm, polls, stop, n, _, [], [], hp, rfl, rfl, .inl ⟨hc, rfl, rfl, rfl⟩⟩, shape (.refl s5)⟩

end Sys2Proof.Laws
end

