-- ==== Sys2Proof/Laws/Sequences.lean ====
section
/-! SUPPORT. What each shared procedure does, exactly: its events, its answers and its verdict, in the terms of Safety.lean (rules R55,
R160 to R166, R180 to R186, R201, R205 of spec/).  Provers cite these and never unfold a procedure. -/

namespace Sys2Proof.Laws

open Sys2Proof Sys2Proof.Machine

/-! ### Error and cause agree -/

/-- A result whose error flag says what its cause says (R152, R220). -/
def Consistent (r : Exec) : Prop := r.error = decide (r.cause ≠ .eNone)

theorem cardWriteRun_consistent {c : Config} {cs : Bool} {command : Byte} {data : List Byte} {evs : List Event}
    {answers : List Byte} {r : Exec} (h : CardWriteRun c cs command data evs answers r) : Consistent r := by
  obtain ⟨_, _, _, _, _, _, _, _, _, -, -, -, h⟩ := h
  rcases h with ⟨-, -, -, rfl⟩ | ⟨-, _, -, -, -, rfl⟩ | ⟨-, _, _, _, -, -, -, _, -, -, hc, -, -⟩
  · rfl
  · rfl
  · rw [Consistent, hc]; cases r.error <;> rfl

theorem frameRun_consistent {c : Config} {cs : Bool} {body : List Byte} {evs : List Event} {answers : List Byte} {r : Exec}
    (h : FrameRun c cs body evs answers r) : Consistent r := by
  obtain ⟨_, _, _, _, _, _, -, h, -, -⟩ := h
  exact cardWriteRun_consistent h

/-- An error test at the end of a procedure: its cause is the verdict, its flag says whether there was one, and the response stays. -/
def Judged (r q : Exec) (v : Cause) : Prop :=
  q.cause = v ∧ q.error = decide (v ≠ .eNone) ∧ q.resp = r.resp ∧ q.rlen = r.rlen

theorem requireBits_judged {r : Exec} (h : Consistent r) (bits : Int) :
    Judged r (requireBits bits r) (judge r (decide (r.rlen = bits)) .eShape) := by
  obtain ⟨error, resp, rlen, cause⟩ := r
  change error = decide (cause ≠ .eNone) at h
  subst h
  by_cases hc : cause = .eNone
  · subst hc
    by_cases hb : rlen = bits
    · simp [requireBits, judge, hb, Judged]
    · simp [requireBits, judge, hb, Judged, failWith]
  · simp [requireBits, judge, hc, Judged]

theorem requireUid_judged {r : Exec} (h : Consistent r) : Judged r (requireUid r) (uidVerdict r) := by
  obtain ⟨error, resp, rlen, cause⟩ := r
  change error = decide (cause ≠ .eNone) at h
  subst h
  by_cases hc : cause = .eNone
  · subst hc
    by_cases hl : resp.length = 5
    · by_cases hg : resp.getD 0 0 ^^^ resp.getD 1 0 ^^^ resp.getD 2 0 ^^^ resp.getD 3 0 = resp.getD 4 0
      · have hgood : checkByteGood resp = true := decide_eq_true hg
        simp only [requireUid, uidVerdict, anticollLen]
        simp [hl, hgood, Judged, -List.getD_eq_getElem?_getD]
        exact hg
      · have hgood : checkByteGood resp = false := decide_eq_false hg
        simp only [requireUid, uidVerdict, anticollLen]
        simp [hl, hgood, Judged, failWith, -List.getD_eq_getElem?_getD]
        exact hg
    · simp [requireUid, uidVerdict, anticollLen, hl, Judged, failWith]
  · simp [requireUid, uidVerdict, hc, Judged]

theorem requireAck_judged {r : Exec} (h : Consistent r) : Judged r (requireAck r) (ackVerdict r) := by
  obtain ⟨error, resp, rlen, cause⟩ := r
  change error = decide (cause ≠ .eNone) at h
  subst h
  by_cases hc : cause = .eNone
  · subst hc
    have hp : (1 ≤ resp.length) ↔ resp ≠ [] := by cases resp <;> simp
    by_cases hl : rlen = 4 ∧ resp ≠ []
    · have hl' : rlen = 4 ∧ 1 ≤ resp.length := ⟨hl.1, hp.2 hl.2⟩
      by_cases hn : resp.getD 0 0 &&& 0x0F = 0x0A
      · have ha : ackNibble resp = true := decide_eq_true hn
        simp only [requireAck, ackVerdict]
        simp [if_pos hl, if_pos hl', ha, Judged, -List.getD_eq_getElem?_getD]
        exact hn
      · have ha : ackNibble resp = false := decide_eq_false hn
        simp only [requireAck, ackVerdict]
        simp [if_pos hl, if_pos hl', ha, Judged, failWith, -List.getD_eq_getElem?_getD]
        exact hn
    · have hl' : ¬ (rlen = 4 ∧ 1 ≤ resp.length) := fun h => hl ⟨h.1, hp.1 h.2⟩
      simp only [requireAck, ackVerdict]
      simp [if_neg hl, if_neg hl', Judged, failWith]
  · simp [requireAck, ackVerdict, hc, Judged]

theorem requireBlock_judged {r : Exec} (h : Consistent r) :
    Judged r (requireBlock r) (judge r (decide (r.resp.length = 16)) .eShape) := by
  obtain ⟨error, resp, rlen, cause⟩ := r
  change error = decide (cause ≠ .eNone) at h
  subst h
  by_cases hl : resp.length = 16
  · by_cases hc : cause = .eNone <;> simp [requireBlock, judge, blockLen, hl, hc, Judged]
  · by_cases hc : cause = .eNone <;> simp [requireBlock, judge, blockLen, hl, hc, Judged, failWith]

theorem requireCrypto_judged {r : Exec} (h : Consistent r) (st : Byte) :
    Judged r (requireCrypto st r) (judge r (decide (st &&& 0x08 ≠ 0)) .eNoCrypto) := by
  obtain ⟨error, resp, rlen, cause⟩ := r
  change error = decide (cause ≠ .eNone) at h
  subst h
  by_cases hs : st &&& 0x08 = 0
  · have ha : cryptoActive st = false := decide_eq_false (fun n => n hs)
    by_cases hc : cause = .eNone
    · simp [requireCrypto, judge, ha, hc, Judged, failWith]
      exact hs
    · simp [requireCrypto, judge, ha, hc, Judged, failWith]
  · have ha : cryptoActive st = true := decide_eq_true hs
    by_cases hc : cause = .eNone
    · simp [requireCrypto, judge, ha, hc, Judged]
      exact hs
    · simp [requireCrypto, judge, ha, hc, Judged]

/-! ### Frames -/

theorem transceive_ran (frame : List Byte) (s : State) :
    ∃ evs answers, CardWriteRun s.cfg s.csPresent s.cfg.cmdTransceive frame evs answers (transceive frame s).1 ∧
      Ran evs answers s (transceive frame s).2 := cardWrite_ran ..

theorem transceiveWithCrc_ran (body : List Byte) (s : State) :
    ∃ evs answers, FrameRun s.cfg s.csPresent body evs answers (transceiveWithCrc body s).1 ∧
      Ran evs answers s (transceiveWithCrc body s).2 := by
  obtain ⟨cevs, cans, hc, hr⟩ := computeCrc_ran body s
  obtain ⟨xevs, xans, hx, hx'⟩ := transceive_ran (withCrc body (computeCrc body s).1) (computeCrc body s).2
  rw [hr.cfg, hr.csPresent] at hx
  exact ⟨_, _, ⟨cevs, cans, _, _, xevs, xans, hc, hx, rfl, rfl⟩, hr.trans hx'⟩

/-! ### The UID sequencer -/

theorem sendRequest_ran (mode : Byte) (s : State) :
    ∃ evs answers r v, RequestRun s.cfg s.csPresent mode evs answers r v ∧ Judged r (sendRequest mode s).1 v ∧
      Ran evs answers s (sendRequest mode s).2 := by
  have hw := regWrite_ran s.cfg.aBitFraming s.cfg.framing7bit s
  obtain ⟨evs, answers, hx, hr⟩ := transceive_ran (requestFrame mode) (regWrite s.cfg.aBitFraming s.cfg.framing7bit s)
  exact ⟨_, answers, _, _, ⟨evs, rfl, hx, rfl⟩, requireBits_judged (cardWriteRun_consistent hx) 16, hw.trans hr⟩

theorem sendAnticoll_ran (sel : Byte) (s : State) :
    ∃ evs answers r v, AnticollRun s.cfg s.csPresent sel evs answers r v ∧ Judged r (sendAnticoll sel s).1 v ∧
      Ran evs answers s (sendAnticoll sel s).2 := by
  have hw := regWrite_ran s.cfg.aBitFraming s.cfg.framingFull s
  obtain ⟨evs, answers, hx, hr⟩ := transceive_ran (anticollFrame sel) (regWrite s.cfg.aBitFraming s.cfg.framingFull s)
  exact ⟨_, answers, _, _, ⟨evs, rfl, hx, rfl⟩, requireUid_judged (cardWriteRun_consistent hx), hw.trans hr⟩

/-- What `advance` does: the result stays, and `pstate` moves on success only (R168). -/
theorem advance_fst (p : PState) (r : Exec × State) : (advance p r).1 = r.1 := by
  unfold advance; split <;> rfl

theorem advance_snd (p : PState) (r : Exec × State) :
    (advance p r).2 = setPState (if r.1.error then r.2.pstate else p) r.2 := by
  unfold advance
  split
  · rfl
  · rfl

/-- The select frame with its verdict, before `pstate` moves. -/
theorem selectTag_ran (uid : List Byte) (s : State) :
    ∃ evs answers r v u, SelectRun s.cfg s.csPresent uid evs answers v ∧ Judged r (selectTag uid s).1 v ∧
      Ran evs answers s u ∧ (selectTag uid s).2 = setPState (if v = .eNone then .selected else s.pstate) u := by
  obtain ⟨evs, answers, hx, hr⟩ := transceiveWithCrc_ran (selectBody uid) s
  have hj := requireBits_judged (frameRun_consistent hx) 24
  refine ⟨evs, answers, (transceiveWithCrc (selectBody uid) s).1, _, _, ⟨_, hx, rfl⟩, ?_, hr, ?_⟩
  · rw [selectTag, advance_fst]; exact hj
  · rw [selectTag, advance_snd]
    dsimp only
    rw [hj.2.1, hr.same.2.2.2.2.1]
    simp only [decide_eq_true_eq, ite_not]

theorem request_ran (mode : Byte) (s : State) :
    ∃ evs answers r v u, RequestRun s.cfg s.csPresent mode evs answers r v ∧ Judged r (request mode s).1 v ∧
      Ran evs answers s u ∧ (request mode s).2 = setPState (if v = .eNone then .requested else s.pstate) u := by
  obtain ⟨evs, answers, r, v, hx, hj, hr⟩ := sendRequest_ran mode s
  refine ⟨evs, answers, r, v, _, hx, ?_, hr, ?_⟩
  · rw [request, advance_fst]; exact hj
  · rw [request, advance_snd, hj.2.1, hr.same.2.2.2.2.1]
    simp only [decide_eq_true_eq, ite_not]

theorem anticollBody_ran (sel : Byte) (s : State) :
    ∃ evs answers r v u, AnticollRun s.cfg s.csPresent sel evs answers r v ∧ Judged r (anticollBody sel s).1 v ∧
      Ran evs answers s u ∧ (anticollBody sel s).2 = setPState (if v = .eNone then .uidPartial else s.pstate) u := by
  obtain ⟨evs, answers, r, v, hx, hj, hr⟩ := sendAnticoll_ran sel s
  refine ⟨evs, answers, r, v, _, hx, ?_, hr, ?_⟩
  · rw [anticollBody, advance_fst]; exact hj
  · rw [anticollBody, advance_snd, hj.2.1, hr.same.2.2.2.2.1]
    simp only [decide_eq_true_eq, ite_not]

/-! ### Authentication and blocks -/

theorem sendAuth_ran (mode block : Byte) (key uid : List Byte) (s : State) :
    ∃ evs answers r v, AuthRun s.cfg s.csPresent mode block key uid evs answers r v ∧
      Judged r (sendAuth mode block key uid s).1 v ∧ Ran evs answers s (sendAuth mode block key uid s).2 := by
  obtain ⟨evs, answers, hx, hr⟩ := cardWrite_ran s.cfg.cmdAuthent (authFrame mode block key uid) s
  have hs := regRead_ran s.cfg.aStatus (cardWrite s.cfg.cmdAuthent (authFrame mode block key uid) s).2
  have e : sendAuth mode block key uid s =
      (requireCrypto (regRead s.cfg.aStatus (cardWrite s.cfg.cmdAuthent (authFrame mode block key uid) s).2).1
        (cardWrite s.cfg.cmdAuthent (authFrame mode block key uid) s).1,
       (regRead s.cfg.aStatus (cardWrite s.cfg.cmdAuthent (authFrame mode block key uid) s).2).2) := by
    simp only [sendAuth, hr.cfg]
  rw [hr.csPresent] at hs
  rw [e]
  exact ⟨_, _, _, _, ⟨evs, answers, _, hx, rfl, rfl, rfl⟩, requireCrypto_judged (cardWriteRun_consistent hx) _, hr.trans hs⟩

theorem readBlock_ran (block : Byte) (s : State) :
    ∃ evs answers r, FrameRun s.cfg s.csPresent [0x30, block] evs answers r ∧
      Judged r (readBlock block s).1 (judge r (decide (r.resp.length = 16)) .eShape) ∧
      Ran evs answers s (readBlock block s).2 := by
  obtain ⟨evs, answers, hx, hr⟩ := transceiveWithCrc_ran (readBody block) s
  exact ⟨evs, answers, _, hx, requireBlock_judged (frameRun_consistent hx), hr⟩

theorem writePhase_ran (body : List Byte) (s : State) :
    ∃ evs answers r, FrameRun s.cfg s.csPresent body evs answers r ∧ Judged r (writePhase body s).1 (ackVerdict r) ∧
      Ran evs answers s (writePhase body s).2 := by
  obtain ⟨evs, answers, hx, hr⟩ := transceiveWithCrc_ran body s
  exact ⟨evs, answers, _, hx, requireAck_judged (frameRun_consistent hx), hr⟩

theorem writeBlock_ran (block : Byte) (data : List Byte) (s : State) :
    ∃ evs answers v, WriteRun s.cfg s.csPresent block data evs answers v ∧ (writeBlock block data s).1.cause = v ∧
      (writeBlock block data s).1.error = decide (v ≠ .eNone) ∧ Ran evs answers s (writeBlock block data s).2 := by
  obtain ⟨e1, a1, r1, hx, hj, hr⟩ := writePhase_ran (writeBody block) s
  unfold writeBlock
  dsimp only
  by_cases hv : ackVerdict r1 = .eNone
  · have he : ¬ (writePhase (writeBody block) s).1.error = true := by simp [hj.2.1, hv]
    rw [if_neg he]
    obtain ⟨e2, a2, r2, hx2, hj2, hr2⟩ := writePhase_ran data (writePhase (writeBody block) s).2
    rw [hr.cfg, hr.csPresent] at hx2
    exact ⟨_, _, _, ⟨e1, a1, r1, hx, .inr ⟨hv, e2, a2, r2, hx2, rfl, rfl, rfl⟩⟩, hj2.1, hj2.2.1, hr.trans hr2⟩
  · have he : (writePhase (writeBody block) s).1.error = true := by simp [hj.2.1, hv]
    rw [if_pos he]
    exact ⟨_, _, _, ⟨e1, a1, r1, hx, .inl ⟨hv, rfl, rfl, rfl⟩⟩, hj.1, hj.2.1, hr⟩

/-- HALT, before its two registers are written. -/
theorem halt_ran (s : State) :
    ∃ evs answers u, HaltRun s.cfg s.csPresent evs answers ∧ Ran evs answers s u ∧
      halt s = setPState .halted (setAuthed false u) := by
  obtain ⟨cevs, cans, hc, hr⟩ := computeCrc_ran haltBody s
  obtain ⟨st, hs⟩ := clearBits_ran s.cfg.aStatus 0x08 (computeCrc haltBody s).2
  rw [hr.csPresent] at hs
  have pre := hr.trans hs
  obtain ⟨xevs, xans, hx, hx'⟩ := transceive_ran (withCrc haltBody (computeCrc haltBody s).1)
    (clearBits s.cfg.aStatus 0x08 (computeCrc haltBody s).2)
  rw [pre.cfg, pre.csPresent] at hx
  refine ⟨_, _, _, ⟨cevs, cans, _, _, st, xevs, xans, _, hc, hx, rfl, rfl⟩, pre.trans hx', ?_⟩
  simp only [halt, hr.cfg, cryptoOn]

theorem stopCrypto_ran (s : State) :
    ∃ st u, Ran (onBus s.csPresent (clearXfers s.cfg.aStatus 0x08 st)) [st] s u ∧
      stopCrypto s = setPState (if s.pstate = .authenticated then .selected else s.pstate) (setAuthed false u) := by
  obtain ⟨st, hr⟩ := clearBits_ran s.cfg.aStatus cryptoOn s
  refine ⟨st, _, hr, ?_⟩
  have hp : (setAuthed false (clearBits s.cfg.aStatus cryptoOn s)).pstate = s.pstate := hr.same.2.2.2.2.1
  unfold stopCrypto
  dsimp only
  rw [hp]
  split
  · rfl
  · rw [← hp]; rfl

/-! ### READ_ID -/

/-- The state READ_ID ends in, its `pstate` and its result apart: every procedure it calls may move `pstate`. -/
theorem Ran.throughPState {evs evs' : List Event} {as bs : List Byte} {s u w : State} {p : PState}
    (h : Ran evs as s u) (g : Ran evs' bs (setPState p u) w) : Ran (evs ++ evs') (as ++ bs) s (setPState s.pstate w) := by
  obtain ⟨g1, g2, ⟨⟨a1, a2, a3, a4⟩, ⟨b1, b2, b3, b4⟩, c1, c2, c3, c4⟩, g4, g5⟩ := g
  have hpu : u.pstate = s.pstate := h.same.2.2.2.2.1
  have g' : Ran evs' bs u (setPState s.pstate w) :=
    ⟨g1, g2, ⟨⟨a1, a2, a3, a4⟩, ⟨b1, b2, b3, b4⟩, c1, c2, hpu.symm, c4⟩, g4, g5⟩
  exact h.trans g'

theorem readId_ran (asNumber : Bool) (s : State) :
    ∃ evs answers p uid v u, ReadIdRun s.cfg s.csPresent s.pstate evs answers p uid v ∧ Ran evs answers s u ∧
      readId asNumber s = complete (match uid with
        | none => .noUid
        | some x => if asNumber then .number x.length (number x) else .uid x) v (setPState p u) := by
  obtain ⟨e1, a1, r1, v1, u1, hx1, hj1, hr1, hs1⟩ := request_ran requestMode s
  unfold readId
  dsimp only
  by_cases h1 : v1 = .eNone
  case neg =>
    have he : (request requestMode s).1.error = true := by simp [hj1.2.1, h1]
    rw [if_pos he, hs1, hj1.1, if_neg h1]
    exact ⟨e1, a1, s.pstate, none, v1, u1, ⟨e1, a1, r1, v1, hx1, .inl ⟨h1, rfl, rfl, rfl, rfl, rfl⟩⟩, hr1, rfl⟩
  have he1 : ¬ (request requestMode s).1.error = true := by simp [hj1.2.1, h1]
  rw [if_neg he1, hs1, if_pos h1]
  obtain ⟨e2, a2, r2, v2, u2, hx2, hj2, hr2, hs2⟩ := anticollBody_ran selectCode1 (setPState .requested u1)
  have hcfg : (setPState PState.requested u1).cfg = s.cfg := hr1.cfg
  have hcs : (setPState PState.requested u1).csPresent = s.csPresent := hr1.csPresent
  rw [hcfg, hcs] at hx2
  have hr12 := hr1.throughPState hr2
  by_cases h2 : v2 = .eNone
  case neg =>
    have he : (anticollBody selectCode1 (setPState .requested u1)).1.error = true := by simp [hj2.2.1, h2]
    rw [if_pos he, hs2, hj2.1, if_neg h2]
    exact ⟨e1 ++ e2, a1 ++ a2, .requested, none, v2, _, ⟨e1, a1, r1, v1, hx1, .inr ⟨h1, e2, a2, r2, v2, hx2,
      .inl ⟨h2, rfl, rfl, rfl, rfl, rfl⟩⟩⟩, hr12, rfl⟩
  have he2 : ¬ (anticollBody selectCode1 (setPState .requested u1)).1.error = true := by simp [hj2.2.1, h2]
  rw [if_neg he2, hj2.2.2.1]
  by_cases h3 : r2.resp.getD 0 0 = 0x88
  case neg =>
    have h3' : ¬ r2.resp.getD 0 0 = cascadeTag := h3
    rw [if_neg h3', hs2, if_pos h2]
    exact ⟨e1 ++ e2, a1 ++ a2, .uidPartial, some (r2.resp.take 4), .eNone, _, ⟨e1, a1, r1, v1, hx1, .inr ⟨h1, e2, a2, r2, v2, hx2,
      .inr (.inl ⟨h2, h3, rfl, rfl, rfl, rfl, rfl⟩)⟩⟩, hr12, rfl⟩
  have h3' : r2.resp.getD 0 0 = cascadeTag := h3
  rw [if_pos h3', hs2, if_pos h2]
  unfold readCascade
  dsimp only
  obtain ⟨e3, a3, r3, v3, u3, hx3, hj3, hr3, hs3⟩ := selectTag_ran r2.resp (setPState .uidPartial u2)
  have hcfg2 : (setPState PState.uidPartial u2).cfg = s.cfg := hr12.cfg
  have hcs2 : (setPState PState.uidPartial u2).csPresent = s.csPresent := hr12.csPresent
  rw [hcfg2, hcs2] at hx3
  have hr13 : Ran (e1 ++ e2 ++ e3) (a1 ++ a2 ++ a3) s (setPState s.pstate u3) := hr12.throughPState (p := .uidPartial) hr3
  by_cases h4 : v3 = .eNone
  case neg =>
    have he : (selectTag r2.resp (setPState .uidPartial u2)).1.error = true := by simp [hj3.2.1, h4]
    rw [if_pos he, hs3, hj3.1, if_neg h4]
    exact ⟨_, _, .uidPartial, none, v3, _, ⟨e1, a1, r1, v1, hx1, .inr ⟨h1, e2, a2, r2, v2, hx2,
      .inr (.inr ⟨h2, h3, e3, a3, v3, hx3, .inl ⟨h4, rfl, rfl, rfl, rfl, rfl⟩⟩)⟩⟩, hr13, rfl⟩
  have he3 : ¬ (selectTag r2.resp (setPState .uidPartial u2)).1.error = true := by simp [hj3.2.1, h4]
  rw [if_neg he3, hs3, if_pos h4]
  obtain ⟨e4, a4, r4, v4, u4, hx4, hj4, hr4, hs4⟩ := anticollBody_ran selectCode2 (setPState .selected u3)
  have hcfg3 : (setPState PState.selected u3).cfg = s.cfg := hr13.cfg
  have hcs3 : (setPState PState.selected u3).csPresent = s.csPresent := hr13.csPresent
  rw [hcfg3, hcs3] at hx4
  have hr14 : Ran (e1 ++ e2 ++ e3 ++ e4) (a1 ++ a2 ++ a3 ++ a4) s (setPState s.pstate u4) :=
    hr13.throughPState (p := .selected) hr4
  by_cases h5 : v4 = .eNone
  case neg =>
    have he : (anticollBody selectCode2 (setPState .selected u3)).1.error = true := by simp [hj4.2.1, h5]
    rw [if_pos he, hs4, hj4.1, if_neg h5]
    exact ⟨_, _, .selected, none, v4, _, ⟨e1, a1, r1, v1, hx1, .inr ⟨h1, e2, a2, r2, v2, hx2,
      .inr (.inr ⟨h2, h3, e3, a3, v3, hx3, .inr ⟨h4, e4, a4, r4, v4, hx4, rfl, rfl, rfl, .inl ⟨h5, rfl, rfl⟩⟩⟩)⟩⟩, hr14, rfl⟩
  have he4 : ¬ (anticollBody selectCode2 (setPState .selected u3)).1.error = true := by simp [hj4.2.1, h5]
  rw [if_neg he4, hs4, if_pos h5, hj4.2.2.1]
  exact ⟨_, _, .uidPartial, some _, v4, _, ⟨e1, a1, r1, v1, hx1, .inr ⟨h1, e2, a2, r2, v2, hx2,
      .inr (.inr ⟨h2, h3, e3, a3, v3, hx3, .inr ⟨h4, e4, a4, r4, v4, hx4, rfl, rfl, rfl, .inr ⟨h5, rfl, rfl⟩⟩⟩)⟩⟩, hr14,
      by rw [h5]; rfl⟩

/-! ### INIT and the wait -/

theorem initByte_eq (g : BitVec 3) (a : InitArg) : initByte g a = initValue g a := by cases a <;> rfl

theorem initSteps_ran (es : List InitEntry) (s : State) :
    ∃ answers, answers.length = initReads es ∧
      Ran (onBus s.csPresent (initXfers s.gain es answers)) answers s (initSteps es s) := by
  induction es generalizing s with
  | nil => exact ⟨[], rfl, .refl s⟩
  | cons e es ih =>
    rcases hk : e.kind with _ | _
    · have h1 : Ran (onBus s.csPresent [wr e.addr (initValue s.gain e.arg)]) [] s (initStep e s) := by
        rw [← initByte_eq]
        simp only [initStep, hk]
        exact regWrite_ran ..
      obtain ⟨answers, hl, h2⟩ := ih (initStep e s)
      rw [h1.gain] at h2
      refine ⟨answers, ?_, ?_⟩
      · simp [initReads, hk, hl]
      · have h := h1.bus h2
        simpa [initXfers, hk, initSteps] using h
    · have hr : ∃ v, Ran (onBus s.csPresent (setXfers e.addr (initValue s.gain e.arg) v)) [v] s (initStep e s) := by
        rw [← initByte_eq]
        simp only [initStep, hk]
        exact setBits_ran ..
      obtain ⟨v, h1⟩ := hr
      obtain ⟨answers, hl, h2⟩ := ih (initStep e s)
      rw [h1.gain] at h2
      refine ⟨v :: answers, ?_, ?_⟩
      · simp [initReads, hk, hl]
      · have h := h1.bus h2
        simpa [initXfers, hk, initSteps] using h

theorem init_ran (s : State) :
    ∃ evs answers, InitRun s.cfg s.csPresent s.gain evs answers ∧ Ran evs answers s (init s) := by
  obtain ⟨answers, hl, h⟩ := initSteps_ran s.cfg.initSeq s
  exact ⟨_, answers, ⟨hl, rfl⟩, h⟩

/-- The re-arm of one pass. -/
theorem rearm_ran (s : State) :
    ∃ ievs answers, InitRun s.cfg s.csPresent s.gain ievs answers ∧
      Ran (ievs ++ onBus s.csPresent [wr s.cfg.aFifoData 0x26, wr s.cfg.aCommand s.cfg.cmdTransceive,
        wr s.cfg.aBitFraming s.cfg.waitFraming]) answers s (rearm s) := by
  obtain ⟨ievs, answers, hi, hr⟩ := init_ran s
  have w := ((regWrite_ran s.cfg.aFifoData 0x26 (init s)).bus (regWrite_ran s.cfg.aCommand s.cfg.cmdTransceive _)).bus
    (regWrite_ran s.cfg.aBitFraming s.cfg.waitFraming _)
  rw [hr.csPresent] at w
  refine ⟨ievs, answers, hi, ?_⟩
  have h := hr.trans w
  simp only [rearm, hr.cfg, requestMode]
  simpa using h

end Sys2Proof.Laws
end

