-- ==== Sys2Proof/Laws/Traffic.lean ====
section
/-! SUPPORT. What the events of each procedure are as traffic: whole windows, how many transactions, and at which locations they
write (rules R53, R83, R114, R135, R153, R169, R284 of spec/).  Provers cite these and never count a trace again. -/

namespace Sys2Proof.Laws

open Sys2Proof Sys2Proof.Machine

/-! ### Windows and counts -/

theorem windowed_append (c : Bool) (xs ys : List Event) (h : windowed c xs = true) :
    windowed c (xs ++ ys) = windowed c ys := by
  induction xs using windowed.induct with
  | case1 => rfl
  | case2 e rest ih =>
    simp only [windowed, Bool.and_eq_true] at h
    obtain ⟨⟨rfl, he⟩, h⟩ := h
    simp_all [windowed]
  | case3 rest ih => simp_all [windowed]
  | case4 f rest ih => simp_all [windowed]
  | case5 rest ih => simp_all [windowed]
  | case6 e rest h1 h2 h3 h4 ih =>
    cases c <;> cases e <;> simp_all [windowed, isXfer]

theorem windowed_window (c : Bool) {e : Event} (h : isXfer e = true) : windowed c (window c e) = true := by
  cases c <;> cases e <;> simp_all [window, windowed, isXfer]

theorem transactions_append (xs ys : List Event) : transactions (xs ++ ys) = transactions xs + transactions ys :=
  List.countP_append ..

theorem transactions_window (c : Bool) {e : Event} (h : isXfer e = true) : transactions (window c e) = 1 := by
  cases c <;> cases e <;> first | rfl | exact absurd h (by simp [isXfer])

/-! ### Where events write -/

/-- The event writes, if at all, at one of these locations. -/
def WritesIn (locs : List Nat) (e : Event) : Prop := ∀ tx0 tx1, e = .xferWrite tx0 tx1 → (tx0 >>> 1).toNat ∈ locs

theorem writesIn_rd (locs : List Nat) (a v : Byte) : WritesIn locs (rd a v) := fun _ _ h => by cases h

theorem writesIn_wr {locs : List Nat} {a : Byte} (v : Byte) (h : location a ∈ locs) : WritesIn locs (wr a v) := by
  intro tx0 tx1 e
  cases e
  rw [frame_address]
  exact h

/-- A location no event writes at is last written as before. -/
theorem get_replay {locs : List Nat} {evs : List Event} (h : ∀ e ∈ evs, WritesIn locs e) (m : Memory) {a : Nat} (ha : a ∉ locs) :
    Memory.get a (replay evs m) = Memory.get a m := by
  induction evs generalizing m with
  | nil => rfl
  | cons e evs ih =>
    have he := h e List.mem_cons_self
    have : Memory.get a (written m e) = Memory.get a m := by
      cases e with
      | xferWrite tx0 tx1 => exact get_set_other _ _ (fun x => ha (x ▸ he _ _ rfl))
      | _ => rfl
    rw [replay, List.foldl_cons, ← replay, ih (fun e h' => h e (List.mem_cons_of_mem _ h')), this]

/-! ### Traffic -/

/-- Events that are whole windows around `n` transactions, writing at these locations only. -/
structure Traffic (cs : Bool) (locs : List Nat) (evs : List Event) (n : Nat) : Prop where
  windows : windowed cs evs = true
  count   : transactions evs = n
  writes  : ∀ e ∈ evs, WritesIn locs e

variable {cs : Bool} {locs locs' : List Nat} {evs evs' : List Event} {n m : Nat} {c : Config}

theorem Traffic.nil : Traffic cs locs [] 0 := ⟨rfl, rfl, fun _ h => by cases h⟩

theorem Traffic.append (h : Traffic cs locs evs n) (g : Traffic cs locs evs' m) : Traffic cs locs (evs ++ evs') (n + m) :=
  ⟨by rw [windowed_append _ _ _ h.windows, g.windows], by rw [transactions_append, h.count, g.count],
    fun e he => (List.mem_append.1 he).elim (h.writes e) (g.writes e)⟩

theorem Traffic.mono (h : Traffic cs locs evs n) (hl : ∀ a ∈ locs, a ∈ locs') : Traffic cs locs' evs n :=
  ⟨h.windows, h.count, fun e he x y q => hl _ (h.writes e he x y q)⟩

theorem Traffic.onlyWrites (h : Traffic cs locs evs n) {s t : State} (ht : t.chipRegs = replay evs s.chipRegs) :
    OnlyWrites locs s t := fun a ha => by rw [ht, get_replay h.writes _ ha]

theorem Traffic.log : Traffic cs locs [.logE1] 0 :=
  ⟨rfl, rfl, fun _ he _ _ q => by rw [List.mem_singleton.1 he] at q; cases q⟩
theorem Traffic.signalClear : Traffic cs locs [.signalClear] 0 :=
  ⟨rfl, rfl, fun _ he _ _ q => by rw [List.mem_singleton.1 he] at q; cases q⟩
theorem Traffic.signalWait (f : Bool) : Traffic cs locs [.signalWait f] 0 :=
  ⟨rfl, rfl, fun _ he _ _ q => by rw [List.mem_singleton.1 he] at q; cases q⟩

/-- A transfer fit for a bus of these locations. -/
def Fits (locs : List Nat) (e : Event) : Prop := isXfer e = true ∧ WritesIn locs e

theorem fits_rd (locs : List Nat) (a v : Byte) : Fits locs (rd a v) := ⟨rfl, writesIn_rd _ _ _⟩
theorem fits_wr {locs : List Nat} {a : Byte} (v : Byte) (h : location a ∈ locs) : Fits locs (wr a v) := ⟨rfl, writesIn_wr v h⟩

theorem Traffic.bus {xs : List Event} (h : ∀ e ∈ xs, Fits locs e) : Traffic cs locs (onBus cs xs) xs.length := by
  induction xs with
  | nil => exact .nil
  | cons e xs ih =>
    have he := h e List.mem_cons_self
    have one : Traffic cs locs (window cs e) 1 := by
      refine ⟨windowed_window cs he.1, transactions_window cs he.1, fun x hx => ?_⟩
      have hx' : x = .csAssert ∨ x = e ∨ x = .csRelease := by
        cases cs <;> simp [window] at hx <;> tauto
      rcases hx' with rfl | rfl | rfl
      · exact fun _ _ q => by cases q
      · exact he.2
      · exact fun _ _ q => by cases q
    have all := one.append (ih fun x hx => h x (List.mem_cons_of_mem _ hx))
    rw [Nat.add_comm] at all
    exact all

/-! ### COMPUTE_CRC and CARD_WRITE -/

theorem fits_set {a m v : Byte} (h : location a ∈ locs) : ∀ e ∈ setXfers a m v, Fits locs e := by
  simp only [setXfers, List.forall_mem_cons]
  exact ⟨fits_rd _ _ _, fits_wr _ h, fun _ h => by cases h⟩

theorem fits_clear {a m v : Byte} (h : location a ∈ locs) : ∀ e ∈ clearXfers a m v, Fits locs e := by
  simp only [clearXfers, List.forall_mem_cons]
  exact ⟨fits_rd _ _ _, fits_wr _ h, fun _ h => by cases h⟩

theorem fits_map_wr {a : Byte} (data : List Byte) (h : location a ∈ locs) : ∀ e ∈ data.map (wr a), Fits locs e := by
  simp only [List.forall_mem_map]
  exact fun v _ => fits_wr v h

theorem fits_map_rd (a : Byte) (polls : List Byte) : ∀ e ∈ polls.map (rd a), Fits locs e := by
  simp only [List.forall_mem_map]
  exact fun v _ => fits_rd _ _ _

theorem pollAnswers_length {stop : Byte → Bool} {budget : Nat} {polls : List Byte} {b : Byte} {completed : Bool}
    (h : PollAnswers stop budget polls b completed) :
    1 ≤ polls.length ∧ polls.length ≤ budget ∧ (completed = false → polls.length = budget) := by
  obtain ⟨before, hp, -, -, hl, hx⟩ := h
  exact ⟨by simp [hp], hl, hx⟩

/-- COMPUTE_CRC: `L + q + 7` transactions (R135), at the locations of its column of R53. -/
theorem crcRun_traffic {data : List Byte} {answers : List Byte} {lo hi : Byte}
    (h : CrcRun c cs data evs answers lo hi) :
    ∃ clr flush, ∃ polls : List Byte,
      evs = onBus cs (clearXfers c.aDivIrq c.crcDone clr ++ setXfers c.aFifoLevel c.fifoFlush flush
        ++ data.map (wr c.aFifoData) ++ [wr c.aCommand c.cmdCalcCrc]
        ++ polls.map (rd c.aDivIrq) ++ [rd c.aCrcResultLo lo, rd c.aCrcResultHi hi]) ∧
      1 ≤ polls.length ∧ polls.length ≤ 255 ∧ Traffic cs (crcLocs c) evs (data.length + polls.length + 7) := by
  obtain ⟨clr, flush, polls, _, _, hp, rfl, -⟩ := h
  obtain ⟨h1, h2, -⟩ := pollAnswers_length hp
  refine ⟨clr, flush, polls, rfl, h1, h2, ?_⟩
  have t := Traffic.bus (cs := cs) (locs := crcLocs c) (xs := clearXfers c.aDivIrq c.crcDone clr
    ++ setXfers c.aFifoLevel c.fifoFlush flush ++ data.map (wr c.aFifoData) ++ [wr c.aCommand c.cmdCalcCrc]
    ++ polls.map (rd c.aDivIrq) ++ [rd c.aCrcResultLo lo, rd c.aCrcResultHi hi]) (by
      simp only [List.forall_mem_append]
      exact ⟨⟨⟨⟨⟨fits_clear (by simp [crcLocs]), fits_set (by simp [crcLocs])⟩, fits_map_wr _ (by simp [crcLocs])⟩,
        by simpa using fits_wr _ (by simp [crcLocs])⟩, fits_map_rd _ _⟩, by simpa using ⟨fits_rd _ _ _, fits_rd _ _ _⟩⟩)
  have e : data.length + polls.length + 7 = (clearXfers c.aDivIrq c.crcDone clr
    ++ setXfers c.aFifoLevel c.fifoFlush flush ++ data.map (wr c.aFifoData) ++ [wr c.aCommand c.cmdCalcCrc]
    ++ polls.map (rd c.aDivIrq) ++ [rd c.aCrcResultLo lo, rd c.aCrcResultHi hi]).length := by
    simp [clearXfers, setXfers]; omega
  rw [e]
  exact t

theorem executorXfers_traffic (command : Byte) (data : List Byte) (clr flush frm : Byte) (polls : List Byte) (stop : Byte) :
    Traffic cs (executorLocs c) (onBus cs (executorXfers c command data clr flush frm polls stop))
      (data.length + polls.length + if command = c.cmdTransceive then 11 else 9) := by
  have t := Traffic.bus (cs := cs) (locs := executorLocs c) (xs := executorXfers c command data clr flush frm polls stop) (by
    simp only [executorXfers, List.forall_mem_append]
    refine ⟨⟨⟨⟨⟨⟨⟨⟨by simpa using fits_wr _ (by simp [executorLocs]), fits_clear (by simp [executorLocs])⟩,
      fits_set (by simp [executorLocs])⟩, by simpa using fits_wr _ (by simp [executorLocs])⟩,
      fits_map_wr _ (by simp [executorLocs])⟩, by simpa using fits_wr _ (by simp [executorLocs])⟩, ?_⟩,
      fits_map_rd _ _⟩, fits_clear (by simp [executorLocs])⟩
    split
    · exact fits_set (by simp [executorLocs])
    · exact fun _ h => by cases h)
  have e : (executorXfers c command data clr flush frm polls stop).length =
      data.length + polls.length + if command = c.cmdTransceive then 11 else 9 := by
    simp only [executorXfers, clearXfers, setXfers]
    split <;> simp <;> omega
  rw [← e]
  exact t

/-- CARD_WRITE: its transactions (R153), with the poll reads as they stand in the trace, at the locations of its column of R53. -/
theorem cardWriteRun_traffic {command : Byte} {data answers : List Byte} {r : Exec}
    (h : CardWriteRun c cs command data evs answers r) :
    ∃ clr flush frm polls stop tail, evs = onBus cs (executorXfers c command data clr flush frm polls stop) ++ tail ∧
      1 ≤ polls.length ∧ polls.length ≤ 2000 ∧ (r.cause = .ePollTimeout → polls.length = 2000) ∧
      Traffic cs (executorLocs c) evs (data.length + polls.length + (
        if command = c.cmdTransceive then
          if r.cause = .ePollTimeout then 11 else if r.cause = .eChipError then 12 else 14 + r.resp.length
        else if r.cause = .ePollTimeout then 9 else 10)) := by
  obtain ⟨clr, flush, frm, polls, stop, _, completed, tail, _, hp, rfl, -, h⟩ := h
  obtain ⟨h1, h2, h3⟩ := pollAnswers_length hp
  have head := executorXfers_traffic (cs := cs) (c := c) command data clr flush frm polls stop
  have read : ∀ e : Byte, Traffic cs (executorLocs c) (onBus cs [rd c.aError e]) 1 := fun e =>
    Traffic.bus (xs := [rd c.aError e]) (by simpa using fits_rd _ _ _)
  rcases h with ⟨hc, rfl, -, rfl⟩ | ⟨-, e, -, rfl, -, rfl⟩ | ⟨-, e, wevs, wans, -, rfl, -, hw⟩
  · refine ⟨clr, flush, frm, polls, stop, _, rfl, h1, h2, fun _ => h3 hc, ?_⟩
    have t := head.append (Traffic.nil (cs := cs) (locs := executorLocs c))
    simpa using t
  · refine ⟨clr, flush, frm, polls, stop, _, rfl, h1, h2, fun h => (by cases h), ?_⟩
    have t := head.append (read e)
    rw [Nat.add_assoc] at t
    have en : ((if command = c.cmdTransceive then 11 else 9) + 1) = (if command = c.cmdTransceive then 12 else 10) := by
      split <;> rfl
    rw [en] at t
    simpa using t
  · obtain ⟨devs, rfl, -, hcause, ht, hn⟩ := hw
    have c1 : r.cause ≠ .ePollTimeout := by rw [hcause]; split <;> decide
    have c2 : r.cause ≠ .eChipError := by rw [hcause]; split <;> decide
    have warn : Traffic cs (executorLocs c) (if r.error then [.logE1] else []) 0 := by
      split
      · exact .log
      · exact .nil
    have drained : Traffic cs (executorLocs c) (onBus cs devs) (if command = c.cmdTransceive then 2 + r.resp.length else 0) := by
      split
      · rename_i hx
        obtain ⟨level, control, -, -, rfl, -⟩ := ht hx
        have t := Traffic.bus (cs := cs) (locs := executorLocs c)
          (xs := [rd c.aFifoLevel level, rd c.aControl control] ++ r.resp.map (rd c.aFifoData)) (by
            simp only [List.forall_mem_append]
            exact ⟨by simpa using ⟨fits_rd _ _ _, fits_rd _ _ _⟩, fits_map_rd _ _⟩)
        have en : (List.length [rd c.aFifoLevel level, rd c.aControl control] + r.resp.length) = 2 + r.resp.length := rfl
        rw [List.length_append, List.length_map, en] at t
        exact t
      · rename_i hx
        rw [(hn hx).1]
        exact .nil
    refine ⟨clr, flush, frm, polls, stop, _, rfl, h1, h2, fun h => absurd h c1, ?_⟩
    have t := head.append ((read e).append (warn.append drained))
    have en : data.length + polls.length + (if command = c.cmdTransceive then 11 else 9) +
        (1 + (0 + if command = c.cmdTransceive then 2 + r.resp.length else 0)) =
        data.length + polls.length + (if command = c.cmdTransceive then
          if r.cause = .ePollTimeout then 11 else if r.cause = .eChipError then 12 else 14 + r.resp.length
        else if r.cause = .ePollTimeout then 9 else 10) := by
      simp only [c1, c2, if_false]
      split <;> omega
    rw [en] at t
    simpa using t

/-- What a response can be: at most sixteen bytes, and how many against the bit length (R91, R151). -/
theorem cardWriteRun_resp {command : Byte} {data answers : List Byte} {r : Exec}
    (h : CardWriteRun c cs command data evs answers r) :
    r.resp.length ≤ 16 ∧ (r.cause = .eNone → 8 * (r.resp.length : Int) ≤ r.rlen + 7) := by
  obtain ⟨_, _, _, _, _, _, _, _, _, -, -, -, h⟩ := h
  rcases h with ⟨-, -, -, rfl⟩ | ⟨-, _, -, -, -, rfl⟩ | ⟨-, _, _, _, -, -, -, devs, -, -, hcause, ht, hn⟩
  · exact ⟨by simp, fun h => by cases h⟩
  · exact ⟨by simp, fun h => by cases h⟩
  · by_cases hx : command = c.cmdTransceive
    · obtain ⟨level, control, hl, hr, -, -⟩ := ht hx
      refine ⟨by omega, fun _ => ?_⟩
      rw [hr]
      split
      · rename_i hlb
        have : (control &&& c.lastBitsMask).toNat ≠ 0 := fun z => hlb (BitVec.eq_of_toNat_eq z)
        omega
      · omega
    · obtain ⟨-, -, h1, h2⟩ := hn hx
      rw [h1, h2]
      exact ⟨by simp, fun _ => by simp⟩

end Sys2Proof.Laws
end

