-- ==== Sys2Proof/Laws/Bounds.lean ====
section
/-! SUPPORT. The traffic of the procedures: at most so many transactions, and where they write (rules R53, R169, R284 of spec/). -/

namespace Sys2Proof.Laws

open Sys2Proof Sys2Proof.Machine

/-- Traffic of at most `N` transactions. -/
def Within (cs : Bool) (locs : List Nat) (evs : List Event) (N : Nat) : Prop := ∃ n, n ≤ N ∧ Traffic cs locs evs n

variable {cs : Bool} {locs locs' : List Nat} {evs evs' : List Event} {n m N M : Nat} {c : Config} {answers : List Byte}

theorem Traffic.within (h : Traffic cs locs evs n) (hn : n ≤ N) : Within cs locs evs N := ⟨n, hn, h⟩

theorem Within.append (h : Within cs locs evs N) (g : Within cs locs evs' M) : Within cs locs (evs ++ evs') (N + M) := by
  obtain ⟨n, hn, h⟩ := h
  obtain ⟨m, hm, g⟩ := g
  exact ⟨n + m, by omega, h.append g⟩

theorem Within.mono (h : Within cs locs evs N) (hl : ∀ a ∈ locs, a ∈ locs') (hN : N ≤ M) : Within cs locs' evs M := by
  obtain ⟨n, hn, h⟩ := h
  exact ⟨n, by omega, h.mono hl⟩

theorem Within.le (h : Within cs locs evs N) (hN : N ≤ M) : Within cs locs evs M := h.mono (fun _ x => x) hN

theorem Within.onlyWrites (h : Within cs locs evs N) {s t : State} (ht : t.chipRegs = replay evs s.chipRegs) :
    OnlyWrites locs s t := h.elim fun _ h => h.2.onlyWrites ht

theorem left_mem {xs ys : List Nat} : ∀ a ∈ xs, a ∈ xs ++ ys := fun _ h => List.mem_append_left _ h
theorem right_mem {xs ys : List Nat} : ∀ a ∈ ys, a ∈ xs ++ ys := fun _ h => List.mem_append_right _ h

theorem crcRun_within {data : List Byte} {lo hi : Byte} (h : CrcRun c cs data evs answers lo hi) :
    Within cs (crcLocs c) evs (data.length + 262) := by
  obtain ⟨_, _, polls, -, -, hq, t⟩ := crcRun_traffic h
  exact t.within (by omega)

theorem cardWriteRun_within {command : Byte} {data : List Byte} {r : Exec} (h : CardWriteRun c cs command data evs answers r) :
    Within cs (executorLocs c) evs (data.length + 2014 + r.resp.length) := by
  obtain ⟨_, _, _, polls, _, _, -, -, hp, -, t⟩ := cardWriteRun_traffic h
  refine t.within ?_
  repeat' split
  all_goals omega

theorem cardWriteRun_within_other {command : Byte} {data : List Byte} {r : Exec} (hx : command ≠ c.cmdTransceive)
    (h : CardWriteRun c cs command data evs answers r) : Within cs (executorLocs c) evs (data.length + 2010) := by
  obtain ⟨_, _, _, polls, _, _, -, -, hp, -, t⟩ := cardWriteRun_traffic h
  refine t.within ?_
  rw [if_neg hx]
  split <;> omega

theorem frameRun_within {body : List Byte} {r : Exec} (h : FrameRun c cs body evs answers r) :
    Within cs (crcLocs c ++ executorLocs c) evs (2 * body.length + 2278 + r.resp.length) := by
  obtain ⟨_, _, _, _, _, _, hc, hx, rfl, -⟩ := h
  exact (((crcRun_within hc).mono left_mem (Nat.le_refl _)).append ((cardWriteRun_within hx).mono right_mem (Nat.le_refl _))).le
    (by simp; omega)

theorem frameRun_resp {body : List Byte} {r : Exec} (h : FrameRun c cs body evs answers r) :
    r.resp.length ≤ 16 ∧ (r.cause = .eNone → 8 * (r.resp.length : Int) ≤ r.rlen + 7) := by
  obtain ⟨_, _, _, _, _, _, -, hx, -, -⟩ := h
  exact cardWriteRun_resp hx

/-- A verdict of success means the executor succeeded and the test passed. -/
theorem judge_eNone {r : Exec} {test : Bool} {v : Cause} (hr : Consistent r) (hv : v ≠ .eNone)
    (h : judge r test v = .eNone) : r.cause = .eNone ∧ test = true := by
  unfold judge at h
  split at h
  · rename_i he
    rw [hr, h] at he
    cases he
  · rename_i he
    split at h
    · rename_i ht
      refine ⟨?_, ht⟩
      rw [hr] at he
      simpa using he
    · exact absurd h hv

theorem requestRun_within {mode : Byte} {r : Exec} {v : Cause} (h : RequestRun c cs mode evs answers r v) :
    Within cs (executorLocs c) evs 2032 ∧ (v = .eNone → Within cs (executorLocs c) evs 2018) := by
  obtain ⟨xevs, rfl, hx, rfl⟩ := h
  have w : Within cs (executorLocs c) (onBus cs [wr c.aBitFraming c.framing7bit]) 1 :=
    (Traffic.bus (xs := [wr c.aBitFraming c.framing7bit]) (by simpa using fits_wr _ (by simp [executorLocs]))).within (Nat.le_refl 1)
  have all := w.append (cardWriteRun_within hx)
  obtain ⟨hl, hb⟩ := cardWriteRun_resp hx
  simp only [List.length_cons, List.length_nil] at all
  refine ⟨all.le (by omega), fun hv => ?_⟩
  obtain ⟨hc, ht⟩ := judge_eNone (cardWriteRun_consistent hx) (by decide) hv
  have hr : r.rlen = 16 := of_decide_eq_true ht
  have := hb hc
  exact all.le (by omega)

theorem uidVerdict_eNone {r : Exec} (hr : Consistent r) (h : uidVerdict r = .eNone) : r.resp.length = 5 := by
  unfold uidVerdict at h
  split at h
  · rename_i he
    rw [hr, h] at he
    cases he
  · split at h
    · cases h
    · rename_i hl
      exact Classical.not_not.1 hl

theorem anticollRun_within {sel : Byte} {r : Exec} {v : Cause} (h : AnticollRun c cs sel evs answers r v) :
    Within cs (executorLocs c) evs 2033 ∧ (v = .eNone → Within cs (executorLocs c) evs 2022 ∧ r.resp.length = 5) := by
  obtain ⟨xevs, rfl, hx, rfl⟩ := h
  have w : Within cs (executorLocs c) (onBus cs [wr c.aBitFraming c.framingFull]) 1 :=
    (Traffic.bus (xs := [wr c.aBitFraming c.framingFull]) (by simpa using fits_wr _ (by simp [executorLocs]))).within (Nat.le_refl 1)
  have all := w.append (cardWriteRun_within hx)
  obtain ⟨hl, -⟩ := cardWriteRun_resp hx
  simp only [List.length_cons, List.length_nil] at all
  refine ⟨all.le (by omega), fun hv => ?_⟩
  have h5 := uidVerdict_eNone (cardWriteRun_consistent hx) hv
  exact ⟨all.le (by omega), h5⟩

theorem selectRun_within {uid : List Byte} {v : Cause} (hu : uid.length = 5) (h : SelectRun c cs uid evs answers v) :
    Within cs (crcLocs c ++ executorLocs c) evs 2308 ∧ (v = .eNone → Within cs (crcLocs c ++ executorLocs c) evs 2295) := by
  obtain ⟨r, hx, rfl⟩ := h
  have all := frameRun_within hx
  obtain ⟨hl, hb⟩ := frameRun_resp hx
  simp only [List.length_append, List.length_cons, List.length_nil, hu] at all
  refine ⟨all.le (by omega), fun hv => ?_⟩
  obtain ⟨hc, ht⟩ := judge_eNone (frameRun_consistent hx) (by decide) hv
  have hr : r.rlen = 24 := of_decide_eq_true ht
  have := hb hc
  exact all.le (by omega)

theorem authRun_within {mode block : Byte} {key uid : List Byte} {r : Exec} {v : Cause} (hx : c.cmdAuthent ≠ c.cmdTransceive)
    (hk : key.length = 6) (hu : uid.length = 4) (h : AuthRun c cs mode block key uid evs answers r v) :
    Within cs (executorLocs c) evs 2023 := by
  obtain ⟨_, _, st, hr, rfl, -, -⟩ := h
  have w : Within cs (executorLocs c) (onBus cs [rd c.aStatus st]) 1 :=
    (Traffic.bus (xs := [rd c.aStatus st]) (by simpa using fits_rd _ _ _)).within (Nat.le_refl 1)
  refine ((cardWriteRun_within_other hx hr).append w).le ?_
  simp [hk, hu]

/-- Whatever the codes of the two commands. -/
theorem authRun_within_any {mode block : Byte} {key uid : List Byte} {r : Exec} {v : Cause}
    (h : AuthRun c cs mode block key uid evs answers r v) : ∃ N, Within cs (executorLocs c) evs N := by
  obtain ⟨_, _, st, hr, rfl, -, -⟩ := h
  have w : Within cs (executorLocs c) (onBus cs [rd c.aStatus st]) 1 :=
    (Traffic.bus (xs := [rd c.aStatus st]) (by simpa using fits_rd _ _ _)).within (Nat.le_refl 1)
  exact ⟨_, (cardWriteRun_within hr).append w⟩

theorem ackVerdict_eNone {r : Exec} (hr : Consistent r) (h : ackVerdict r = .eNone) : r.cause = .eNone ∧ r.rlen = 4 := by
  unfold ackVerdict at h
  split at h
  · rename_i he
    rw [hr, h] at he
    cases he
  · rename_i he
    rw [hr] at he
    split at h
    · rename_i h4
      exact ⟨by simpa using he, h4.1⟩
    · cases h

theorem writeRun_within {block : Byte} {data : List Byte} {v : Cause} (hd : data.length = 16)
    (h : WriteRun c cs block data evs answers v) : Within cs (crcLocs c ++ executorLocs c) evs 4609 := by
  obtain ⟨e1, a1, r1, hx, h⟩ := h
  have w1 := frameRun_within hx
  obtain ⟨hl, hb⟩ := frameRun_resp hx
  simp only [List.length_cons, List.length_nil] at w1
  rcases h with ⟨-, rfl, -, -⟩ | ⟨hv, e2, a2, r2, hx2, rfl, -, -⟩
  · exact w1.le (by omega)
  · obtain ⟨hc, hr⟩ := ackVerdict_eNone (frameRun_consistent hx) hv
    have := hb hc
    have w2 := frameRun_within hx2
    obtain ⟨hl2, -⟩ := frameRun_resp hx2
    exact (w1.append w2).le (by omega)

theorem clear_within {a mask v : Byte} (h : location a ∈ locs) : Within cs locs (onBus cs (clearXfers a mask v)) 2 :=
  (Traffic.bus (fits_clear h)).within (Nat.le_refl 2)

theorem haltRun_within (h : HaltRun c cs evs answers) :
    Within cs (crcLocs c ++ executorLocs c ++ [location c.aStatus]) evs 2300 := by
  obtain ⟨_, _, _, _, st, _, _, r, hc, hx, rfl, -⟩ := h
  obtain ⟨hl, -⟩ := cardWriteRun_resp hx
  have w1 := (crcRun_within hc).mono (locs' := crcLocs c ++ executorLocs c ++ [location c.aStatus])
    (fun a h => left_mem a (left_mem a h)) (Nat.le_refl _)
  have w2 : Within cs (crcLocs c ++ executorLocs c ++ [location c.aStatus]) (onBus cs (clearXfers c.aStatus 0x08 st)) 2 :=
    clear_within (by simp)
  have w3 := (cardWriteRun_within hx).mono (locs' := crcLocs c ++ executorLocs c ++ [location c.aStatus])
    (fun a h => left_mem a (right_mem a h)) (Nat.le_refl _)
  refine ((w1.append w2).append w3).le ?_
  simp
  omega

theorem readIdRun_within {p0 p : PState} {uid : Option (List Byte)} {v : Cause}
    (h : ReadIdRun c cs p0 evs answers p uid v) : Within cs (crcLocs c ++ executorLocs c) evs 8368 := by
  obtain ⟨e1, a1, r1, v1, hx1, h⟩ := h
  obtain ⟨w1, w1'⟩ := requestRun_within hx1
  have up : ∀ {evs : List Event} {N : Nat}, Within cs (executorLocs c) evs N → Within cs (crcLocs c ++ executorLocs c) evs N :=
    fun h => h.mono right_mem (Nat.le_refl _)
  rcases h with ⟨-, rfl, -⟩ | ⟨hv1, e2, a2, r2, v2, hx2, h⟩
  · exact (up w1).le (by omega)
  obtain ⟨w2, w2'⟩ := anticollRun_within hx2
  have b12 := (up (w1' hv1)).append (up w2)
  rcases h with ⟨-, rfl, -⟩ | ⟨-, -, rfl, -⟩ | ⟨hv2, -, e3, a3, v3, hx3, h⟩
  · exact b12.le (by omega)
  · exact b12.le (by omega)
  have s12 := (up (w1' hv1)).append (up (w2' hv2).1)
  obtain ⟨w3, w3'⟩ := selectRun_within (w2' hv2).2 hx3
  rcases h with ⟨-, rfl, -⟩ | ⟨hv3, e4, a4, r4, v4, hx4, rfl, -⟩
  · exact (s12.append w3).le (by omega)
  · exact ((s12.append (w3' hv3)).append (up (anticollRun_within hx4).1)).le (by omega)

/-! ### INIT and the wait -/

theorem initXfers_fits (g : BitVec 3) (es : List InitEntry) (as : List Byte) (h : ∀ e ∈ es, location e.addr ∈ locs) :
    (∀ x ∈ initXfers g es as, Fits locs x) ∧ (initXfers g es as).length = es.length + initReads es := by
  induction es generalizing as with
  | nil => exact ⟨fun _ h => (by cases h), rfl⟩
  | cons e es ih =>
    have he := h e List.mem_cons_self
    have hes := fun x hx => h x (List.mem_cons_of_mem e hx)
    rcases hk : e.kind with _ | _
    · obtain ⟨h1, h2⟩ := ih as hes
      simp only [initXfers, hk, List.forall_mem_cons, List.length_cons, h2]
      refine ⟨⟨fits_wr _ he, h1⟩, ?_⟩
      simp [initReads, hk]; omega
    · obtain ⟨h1, h2⟩ := ih as.tail hes
      simp only [initXfers, hk, List.forall_mem_append, List.length_append, h2]
      refine ⟨⟨fits_set he, h1⟩, ?_⟩
      simp [initReads, hk, setXfers]; omega

theorem initRun_traffic {g : BitVec 3} (h : InitRun c cs g evs answers) :
    Traffic cs (initLocs c) evs (c.initSeq.length + initReads c.initSeq) := by
  obtain ⟨-, rfl⟩ := h
  obtain ⟨h1, h2⟩ := initXfers_fits (locs := initLocs c) g c.initSeq answers
    (fun e he => List.mem_map.2 ⟨e, he, rfl⟩)
  rw [← h2]
  exact Traffic.bus h1

theorem initRun_wait {g : BitVec 3} (h : InitRun c cs g evs answers) :
    Traffic cs (waitLocs c) evs (c.initSeq.length + initReads c.initSeq) := (initRun_traffic h).mono left_mem

theorem passRun_traffic {g : BitVec 3} {fired : Bool} (h : PassRun c cs g fired evs answers) :
    Traffic cs (waitLocs c) evs (c.initSeq.length + initReads c.initSeq + 3) := by
  obtain ⟨ievs, hi, rfl⟩ := h
  have arm := Traffic.bus (cs := cs) (locs := waitLocs c)
    (xs := [wr c.aFifoData 0x26, wr c.aCommand c.cmdTransceive, wr c.aBitFraming c.waitFraming]) (by
      simp only [List.forall_mem_cons]
      exact ⟨fits_wr _ (by simp [waitLocs]), fits_wr _ (by simp [waitLocs]), fits_wr _ (by simp [waitLocs]), fun _ h => by cases h⟩)
  exact ((initRun_wait hi).append arm).append (.signalWait fired)

theorem passesRun_traffic {g : BitVec 3} {k : Nat} (h : PassesRun c cs g k evs answers) :
    Traffic cs (waitLocs c) evs (k * (c.initSeq.length + initReads c.initSeq + 3)) := by
  induction k generalizing evs answers with
  | zero =>
    obtain ⟨rfl, -⟩ := h
    rw [Nat.zero_mul]
    exact .nil
  | succ k ih =>
    obtain ⟨e1, a1, e2, a2, h1, h2, rfl, -⟩ := h
    have t := (passRun_traffic h1).append (ih h2)
    rw [Nat.succ_mul, Nat.add_comm]
    exact t

theorem waitPrologueRun_traffic {g : BitVec 3} (h : WaitPrologueRun c cs g evs answers) :
    Traffic cs (waitLocs c) evs (c.initSeq.length + initReads c.initSeq + 2) := by
  obtain ⟨ievs, hi, rfl⟩ := h
  have arm := Traffic.bus (cs := cs) (locs := waitLocs c)
    (xs := [wr c.aIrq c.waitIrqClear, wr c.aIrqEn c.waitIen]) (by
      simp only [List.forall_mem_cons]
      exact ⟨fits_wr _ (by simp [waitLocs]), fits_wr _ (by simp [waitLocs]), fun _ h => by cases h⟩)
  exact ((initRun_wait hi).append .signalClear).append arm

end Sys2Proof.Laws
end

