-- ==== Sys2Proof/Laws/Wait.lean ====
section
/-! SUPPORT. What WAIT_FOR_TAG does: one pass, any number of quiet passes, and the three ways its loop can go (rules R205 to R209 of
spec/45_config_and_wait.md). -/

namespace Sys2Proof.Laws

open Sys2Proof Sys2Proof.Machine

/-- `t` comes from `s` with these events and answers, the register space changed by the write frames among them, and nothing changed
but what WAIT_FOR_TAG moves and the results. -/
def Waited (evs : List Event) (answers : List Byte) (s t : State) : Prop :=
  t.trace = s.trace ++ evs ∧ Answered answers s t ∧ t.chipRegs = replay evs s.chipRegs ∧ SameBesidesWait s t

variable {s t u : State} {evs evs' : List Event} {as bs : List Byte}

theorem Waited.trans (h : Waited evs as s t) (g : Waited evs' bs t u) : Waited (evs ++ evs') (as ++ bs) s u := by
  obtain ⟨h1, h2, h3, ⟨a1, a2, a3, a4⟩, a5, a6, a7, a8, a9⟩ := h
  obtain ⟨g1, g2, g3, ⟨b1, b2, b3, b4⟩, b5, b6, b7, b8, b9⟩ := g
  exact ⟨by rw [g1, h1, List.append_assoc], answered_trans h2 g2, by rw [g3, h3, replay_append],
    ⟨b1.trans a1, b2.trans a2, b3.trans a3, b4.trans a4⟩, b5.trans a5, b6.trans a6, b7.trans a7, b8.trans a8, b9.trans a9⟩

theorem Waited.refl (s : State) : Waited [] [] s s :=
  ⟨by simp, answered_nil rfl, rfl, ⟨rfl, rfl, rfl, rfl⟩, rfl, rfl, rfl, rfl, rfl⟩

theorem Ran.waited (h : Ran evs as s t) : Waited evs as s t :=
  ⟨h.trace, h.answered, h.chipRegs, h.same.1, h.same.2.1.1, h.same.2.1.2.2.2, h.same.2.2.1, h.same.2.2.2.1, h.same.2.2.2.2.1⟩

theorem Waited.cfg (h : Waited evs as s t) : t.cfg = s.cfg := h.2.2.2.1.1
theorem Waited.csPresent (h : Waited evs as s t) : t.csPresent = s.csPresent := h.2.2.2.1.2.1
theorem Waited.gain (h : Waited evs as s t) : t.gain = s.gain := h.2.2.2.2.2.2.2.1

/-- Changing only the signal, the running wait, the coming passes, the results or the count of free draws is no traffic. -/
theorem waited_moved (s : State) (sig : Bool) (w : Option Waiting) (ds : List SliceDraw) (rs : List Completion) (k : Nat) :
    Waited [] [] s { s with signal := sig, waiting := w, results := rs,
                            env := { s.env with slices := ds, asked := k } } :=
  ⟨by simp, answered_nil rfl, rfl, ⟨rfl, rfl, rfl, rfl⟩, rfl, rfl, rfl, rfl, rfl⟩

/-- The state after one free value was asked for. -/
def asking (s : State) : State := { s with env := { s.env with asked := s.env.asked + 1 } }

theorem asking_waited (s : State) : Waited [] [] s (asking s) :=
  ⟨by simp [asking], answered_nil rfl, rfl, ⟨rfl, rfl, rfl, rfl⟩, rfl, rfl, rfl, rfl, rfl⟩

/-! ### The prologue and one pass -/

theorem waitPrologue_waited (s : State) :
    ∃ evs answers, WaitPrologueRun s.cfg s.csPresent s.gain evs answers ∧ Waited evs answers s (waitPrologue s) ∧
      (waitPrologue s).signal = false ∧ (waitPrologue s).results = s.results ∧ (waitPrologue s).env.slices = s.env.slices ∧
      (waitPrologue s).irqPresent = s.irqPresent := by
  obtain ⟨ievs, answers, hi, hr⟩ := init_ran s
  have clear : Waited [.signalClear] [] (init s) (emit [.signalClear] (setSignal false (init s))) :=
    ⟨rfl, answered_nil rfl, rfl, ⟨rfl, rfl, rfl, rfl⟩, rfl, rfl, rfl, rfl, rfl⟩
  have w := (regWrite_ran s.cfg.aIrq s.cfg.waitIrqClear (emit [.signalClear] (setSignal false (init s)))).bus
    (regWrite_ran s.cfg.aIrqEn s.cfg.waitIen _)
  have ecs : (emit [.signalClear] (setSignal false (init s))).csPresent = s.csPresent := hr.csPresent
  rw [ecs] at w
  have e : waitPrologue s = regWrite s.cfg.aIrqEn s.cfg.waitIen
      (regWrite s.cfg.aIrq s.cfg.waitIrqClear (emit [.signalClear] (setSignal false (init s)))) := by
    have ecfg : (emit [.signalClear] (setSignal false (init s))).cfg = s.cfg := hr.cfg
    simp only [waitPrologue, ecfg]
  refine ⟨_, answers, ⟨ievs, hi, rfl⟩, ?_, ?_, ?_, ?_, ?_⟩
  · rw [e]
    have all := (hr.waited.trans clear).trans w.waited
    simpa using all
  · rw [e]; rfl
  · rw [e]; exact hr.results
  · rw [e]; exact hr.same.2.1.2.2.1
  · rw [e]; exact hr.same.1.2.2.1

/-- One pass, deadline test apart: the signal it ends with is the answer of the slice wait. -/
theorem pass_waited (irq : Bool) (s : State) :
    ∃ evs answers, PassRun s.cfg s.csPresent s.gain (s.signal || irq) evs answers ∧
      Waited evs answers s (signalWait irq (rearm s)) ∧ (signalWait irq (rearm s)).signal = (s.signal || irq) ∧
      (signalWait irq (rearm s)).results = s.results ∧ (signalWait irq (rearm s)).env.slices = s.env.slices ∧
      (signalWait irq (rearm s)).waiting = s.waiting := by
  obtain ⟨ievs, answers, hi, hr⟩ := rearm_ran s
  have hs : (rearm s).signal = s.signal := hr.same.2.2.2.2.2
  have w : Waited [.signalWait (s.signal || irq)] [] (rearm s) (signalWait irq (rearm s)) := by
    rw [← hs]
    exact ⟨rfl, answered_nil rfl, rfl, ⟨rfl, rfl, rfl, rfl⟩, rfl, rfl, rfl, rfl, rfl⟩
  refine ⟨_, answers, ⟨ievs, hi, rfl⟩, ?_, ?_, hr.results, hr.same.2.1.2.2.1, hr.same.2.1.2.1⟩
  · simpa using hr.waited.trans w
  · rw [← hs]; rfl

/-- The end of the wait: one INIT, then the result. -/
theorem finishWait_waited (fired : Bool) (s : State) :
    ∃ evs answers, InitRun s.cfg s.csPresent s.gain evs answers ∧ Waited evs answers s (finishWait fired s) ∧
      (finishWait fired s).signal = s.signal ∧ (finishWait fired s).results = s.results ++ [⟨.fired fired, .eNone⟩] ∧
      (finishWait fired s).env.slices = s.env.slices ∧ (finishWait fired s).waiting = none := by
  obtain ⟨evs, answers, hi, hr⟩ := init_ran s
  refine ⟨evs, answers, hi, ?_, hr.same.2.2.2.2.2, ?_, hr.same.2.1.2.2.1, rfl⟩
  · have w : Waited [] [] (init s) (finishWait fired s) :=
      ⟨by simp [finishWait], answered_nil rfl, rfl, ⟨rfl, rfl, rfl, rfl⟩, rfl, rfl, rfl, rfl, rfl⟩
    simpa using hr.waited.trans w
  · simp [finishWait, hr.results]

/-! ### The loop -/

/-- The state at the top of a pass, its draw taken. -/
def drawn (rest : List SliceDraw) (s : State) : State := { s with env := { s.env with slices := rest } }

theorem drawn_waited (rest : List SliceDraw) (s : State) : Waited [] [] s (drawn rest s) :=
  ⟨by simp [drawn], answered_nil rfl, rfl, ⟨rfl, rfl, rfl, rfl⟩, rfl, rfl, rfl, rfl, rfl⟩

theorem waitLoop_deadline {timeout : BitVec 16} {d : SliceDraw} (left : Nat) (rest : List SliceDraw) (s : State) (ht : timeout ≠ 0)
    (hd : d.deadline = true) : waitLoop timeout left (d :: rest) s = finishWait false (drawn rest s) := by
  simp only [waitLoop, if_pos (And.intro ht hd), drawn]

theorem waitLoop_pass {timeout : BitVec 16} {d : SliceDraw} (left : Nat) (rest : List SliceDraw) (s : State)
    (h : timeout = 0 ∨ d.deadline = false) :
    waitLoop timeout left (d :: rest) s =
      if (s.signal || d.irq) = true then finishWait true (signalWait d.irq (rearm (drawn rest s)))
      else waitLoop timeout left rest (signalWait d.irq (rearm (drawn rest s))) := by
  obtain ⟨_, _, -, -, hs, -⟩ := pass_waited d.irq (drawn rest s)
  have hn : ¬ (timeout ≠ 0 ∧ d.deadline = true) := by
    rintro ⟨h1, h2⟩
    rcases h with h | h
    · exact h1 h
    · rw [h] at h2; cases h2
  have hs' : (signalWait d.irq (rearm { s with env := { s.env with slices := rest } })).signal = (s.signal || d.irq) := hs
  simp only [waitLoop, if_neg hn, hs', drawn]

/-- Quiet passes lead to the same loop on the rest of the script. -/
theorem waitLoop_quiet (timeout : BitVec 16) (left : Nat) (before rest : List SliceDraw) (s : State) (hs : s.signal = false)
    (hq : ∀ x ∈ before, quiet timeout x) :
    ∃ evs answers u, PassesRun s.cfg s.csPresent s.gain before.length evs answers ∧ Waited evs answers s u ∧
      u.signal = false ∧ u.results = s.results ∧ waitLoop timeout left (before ++ rest) s = waitLoop timeout left rest u := by
  induction before generalizing s with
  | nil => exact ⟨[], [], s, ⟨rfl, rfl⟩, .refl s, hs, rfl, rfl⟩
  | cons d before ih =>
    obtain ⟨hd, hi⟩ := hq d List.mem_cons_self
    obtain ⟨e1, a1, hp, hw, hsig, hres, -, -⟩ := pass_waited d.irq (drawn (before ++ rest) s)
    have hd0 : (drawn (before ++ rest) s).signal = false := hs
    rw [hd0, hi] at hp hsig
    obtain ⟨e2, a2, u, hps, hw2, hu, hr2, hl⟩ := ih (signalWait d.irq (rearm (drawn (before ++ rest) s)))
      (by rw [hi]; exact hsig) (fun x hx => hq x (List.mem_cons_of_mem d hx))
    have all := (drawn_waited (before ++ rest) s).trans hw
    rw [all.cfg, all.csPresent, all.gain] at hps
    refine ⟨e1 ++ e2, a1 ++ a2, u, ⟨e1, a1, e2, a2, hp, hps, rfl, rfl⟩, all.trans hw2, hu, hr2.trans hres, ?_⟩
    rw [List.cons_append, waitLoop_pass left _ s hd, hs, hi]
    simpa [hi] using hl

/-- Where the loop leaves the operation: ended with its one result, or waiting on with none, the script used up and no deadline in it. -/
theorem waitLoop_settles (timeout : BitVec 16) (left : Nat) (ds : List SliceDraw) (s : State) :
    ((waitLoop timeout left ds s).waiting = none ∧
      ∃ b, (waitLoop timeout left ds s).results = s.results ++ [⟨.fired b, .eNone⟩]) ∨
    ((waitLoop timeout left ds s).waiting = some ⟨timeout, left⟩ ∧ (waitLoop timeout left ds s).results = s.results ∧
      (waitLoop timeout left ds s).env.slices = [] ∧ ∀ d ∈ ds, timeout = 0 ∨ d.deadline = false) := by
  induction ds generalizing s with
  | nil => exact .inr ⟨rfl, rfl, rfl, fun _ h => (by cases h)⟩
  | cons d ds ih =>
    by_cases h : timeout ≠ 0 ∧ d.deadline = true
    · rw [waitLoop_deadline left ds s h.1 h.2]
      obtain ⟨_, _, -, -, -, hr, -, hw⟩ := finishWait_waited false (drawn ds s)
      exact .inl ⟨hw, false, hr⟩
    · have h' : timeout = 0 ∨ d.deadline = false := by
        by_cases h0 : timeout = 0
        · exact .inl h0
        · exact .inr (by simpa using fun hd => h ⟨h0, hd⟩)
      rw [waitLoop_pass left ds s h']
      obtain ⟨_, _, -, -, -, hres, -⟩ := pass_waited d.irq (drawn ds s)
      have hres : (signalWait d.irq (rearm (drawn ds s))).results = s.results := hres
      split
      · obtain ⟨_, _, -, -, -, hr, -, hw⟩ := finishWait_waited true (signalWait d.irq (rearm (drawn ds s)))
        exact .inl ⟨hw, true, by rw [hr, hres]⟩
      · rcases ih (signalWait d.irq (rearm (drawn ds s))) with ⟨hw, b, hr⟩ | ⟨hw, hr, hs, hd⟩
        · exact .inl ⟨hw, b, by rw [hr, hres]⟩
        · refine .inr ⟨hw, by rw [hr, hres], hs, fun x hx => ?_⟩
          rcases List.mem_cons.1 hx with rfl | hx
          · exact h'
          · exact hd x hx

/-- No word is taken in the loop. -/
theorem waitLoop_port (timeout : BitVec 16) (left : Nat) (ds : List SliceDraw) (s : State) :
    (waitLoop timeout left ds s).port = s.port := by
  induction ds generalizing s with
  | nil => rfl
  | cons d ds ih =>
    have hp : (signalWait d.irq (rearm (drawn ds s))).port = s.port := by
      obtain ⟨_, _, -, hw, -⟩ := pass_waited d.irq (drawn ds s)
      exact hw.2.2.2.2.1
    have hf : ∀ b u, (finishWait b u).port = u.port := fun b u => by
      obtain ⟨_, _, -, hw, -⟩ := finishWait_waited b u
      exact hw.2.2.2.2.1
    by_cases h : timeout ≠ 0 ∧ d.deadline = true
    · rw [waitLoop_deadline left ds s h.1 h.2, hf]; rfl
    · have h' : timeout = 0 ∨ d.deadline = false := by
        by_cases h0 : timeout = 0
        · exact .inl h0
        · exact .inr (by simpa using fun hd => h ⟨h0, hd⟩)
      rw [waitLoop_pass left ds s h']
      split
      · rw [hf, hp]
      · rw [ih, hp]

/-! ### A wait that goes on -/

/-- A running wait moves past its script in one step, to its end or to the same wait with the script used up. -/
theorem resumeWait_scripted (w : Waiting) (s : State) (h : s.env.slices ≠ []) :
    resumeWait w s = waitLoop w.timeout w.left s.env.slices s := by
  unfold resumeWait
  split
  · rename_i e; exact absurd e h
  · rfl

/-- With no script one more pass is made, and the number of those left before the deadline goes down. -/
theorem resumeWait_free (w : Waiting) (s : State) (h : s.env.slices = []) :
    resumeWait w s = waitLoop w.timeout (w.left - 1) [nextPass w s] (asking s) := by
  simp only [resumeWait, h, asking]

end Sys2Proof.Laws
end

