-- ==== Sys2Proof/Laws/Effects.lean ====
section
/-! SUPPORT. From what a procedure does to what an operation leaves: the `Effect` of a run of accesses, and the lemmas about `sampleLine`
and the results that every claim about a step needs. -/

namespace Sys2Proof.Laws

open Sys2Proof Sys2Proof.Machine

variable {s t u : State} {evs : List Event} {as : List Byte} {locs : List Nat} {N : Nat} {r : Result} {c : Cause}

theorem answered_congr (h : Answered as s u) (e : t.env.chip = u.env.chip) : Answered as s t := ⟨h.1, by rw [e]; exact h.2⟩

/-- A run of accesses, then a result and perhaps registers. -/
theorem Ran.effect (h : Ran evs as s u) (w : Within s.csPresent locs evs N) (ht : t.trace = u.trace)
    (he : t.env.chip = u.env.chip) (hm : t.chipRegs = u.chipRegs) (hr : t.results = u.results ++ [⟨r, c⟩]) :
    Effect locs evs as r c s t :=
  have hc : t.chipRegs = replay evs s.chipRegs := by rw [hm, h.chipRegs]
  ⟨by rw [ht, h.trace], answered_congr h.answered he, by rw [Delivers, hr, h.results], hc, w.onlyWrites hc⟩

/-- The usual end: the result alone. -/
theorem Ran.complete (h : Ran evs as s u) (w : Within s.csPresent locs evs N) (r : Result) (c : Cause) :
    Effect locs evs as r c s (complete r c u) ∧ SameEngine s (complete r c u) :=
  ⟨h.effect w rfl rfl rfl rfl, h.same⟩

/-- A call that makes no transaction. -/
theorem no_traffic (ht : t.trace = s.trace) (he : t.env.chip = s.env.chip) (hm : t.chipRegs = s.chipRegs)
    (hr : t.results = s.results ++ [⟨r, c⟩]) : Effect [] [] [] r c s t :=
  ⟨by simp [ht], answered_nil he, hr, hm, fun _ _ => by rw [hm]⟩

theorem one_write (a v : Byte) {cs : Bool} : Within cs [location a] (onBus cs [wr a v]) 1 :=
  (Traffic.bus (xs := [wr a v]) (by simpa using fits_wr _ (by simp))).within (Nat.le_refl 1)

theorem one_read (a v : Byte) {cs : Bool} : Within cs [] (onBus cs [rd a v]) 1 :=
  (Traffic.bus (xs := [rd a v]) (by simpa using fits_rd _ _ _)).within (Nat.le_refl 1)

/-- A result delivered is the only one. -/
theorem delivers_unique {r r' : Result} {c c' : Cause} (h : Delivers r c s t) (g : Delivers r' c' s t) : r = r' ∧ c = c' := by
  rw [Delivers, h, List.append_cancel_left_eq] at g
  simpa using g

/-! ### The interrupt line -/

/-- The edge moves the signal and the environment's edges, and nothing else. -/
theorem sampleLine_same (s : State) : SameConfig s (sampleLine s) ∧ (sampleLine s).authed = s.authed ∧
    (sampleLine s).gain = s.gain ∧ (sampleLine s).pstate = s.pstate ∧ (sampleLine s).waiting = s.waiting ∧
    (sampleLine s).port = s.port ∧ (sampleLine s).results = s.results ∧ (sampleLine s).trace = s.trace ∧
    (sampleLine s).chipRegs = s.chipRegs ∧ (sampleLine s).env.chip = s.env.chip ∧
    (sampleLine s).env.slices = s.env.slices := by
  unfold sampleLine
  split
  · split <;> exact ⟨⟨rfl, rfl, rfl, rfl⟩, rfl, rfl, rfl, rfl, rfl, rfl, rfl, rfl, rfl, rfl⟩
  · exact ⟨⟨rfl, rfl, rfl, rfl⟩, rfl, rfl, rfl, rfl, rfl, rfl, rfl, rfl, rfl, rfl⟩

end Sys2Proof.Laws
end

