-- ==== Sys2Proof/Laws/Encoding.lean ====
section
/-! SUPPORT. The pieces of the encodings and how each is read back (rules R80, R81, R85, R87 of spec/30_encoding.md). -/

namespace Sys2Proof.Laws

open Sys2Proof

/-! ### The `len` operand -/

theorem lenByte_toNat {data : List Byte} (h : data.length ≤ 255) : (lenByte data).toNat = data.length := by
  simp only [lenByte, BitVec.toNat_ofNat]; omega

theorem lenByte_eq {data : List Byte} {len : Byte} (h : data.length = len.toNat) : lenByte data = len := by
  rw [lenByte, h, BitVec.ofNat_toNat, BitVec.setWidth_eq]

/-! ### The `timeout` operand -/

theorem timeout_join (t : BitVec 16) : t.extractLsb' 8 8 ++ t.extractLsb' 0 8 = t := by
  apply BitVec.eq_of_getLsbD_eq
  intro i hi
  rw [BitVec.getLsbD_append]
  by_cases h8 : i < 8
  · simp [h8]
  · have h1 : i - 8 < 8 := by omega
    have h2 : 8 + (i - 8) = i := by omega
    simp [h8, h1, h2]

theorem timeout_hi (hi lo : Byte) : (hi ++ lo).extractLsb' 8 8 = hi := by
  apply BitVec.eq_of_getLsbD_eq
  intro i hi
  simp only [BitVec.getLsbD_extractLsb', BitVec.getLsbD_append, hi]
  simp

theorem timeout_lo (hi lo : Byte) : (hi ++ lo).extractLsb' 0 8 = lo := by
  apply BitVec.eq_of_getLsbD_eq
  intro i hi
  simp only [BitVec.getLsbD_extractLsb', BitVec.getLsbD_append, hi]
  simp [hi]

/-! ### Byte 0 of a bus frame -/

theorem frameByte_fields : ∀ (r : Bool) (a : BitVec 6), (frameByte r a).getLsbD 0 = false ∧ (frameByte r a).getLsbD 7 = r ∧
    (frameByte r a).extractLsb' 1 6 = a := by decide

theorem frameByte_join : ∀ b : Byte, b.getLsbD 0 = false → frameByte (b.getLsbD 7) (b.extractLsb' 1 6) = b := by decide

/-! ### Tag frames -/

theorem decodeTag_long {bytes : List Byte} (h : bytes.length = blockLen + 2) : decodeTag bytes =
    .ok (.tagWritePhase2 (bytes.take blockLen) (bytes.getD blockLen 0) (bytes.getD (blockLen + 1) 0)) := by
  unfold decodeTag
  rw [if_pos h]

theorem decodeTag_data {data : List Byte} (lo hi : Byte) (h : data.length = blockLen) :
    decodeTag (data ++ [lo, hi]) = .ok (.tagWritePhase2 data lo hi) := by
  rw [decodeTag_long (by simp [h])]
  simp [← h]

theorem decodeTag_select {uid : List Byte} (lo hi : Byte) (h : uid.length = anticollLen) :
    decodeTag ([0x93, 0x70] ++ uid ++ [lo, hi]) = .ok (.tagSelect uid lo hi) := by
  match uid, h with
  | [_, _, _, _, _], _ => rfl

theorem decodeTag_auth {block : Byte} {key uid : List Byte} (hk : key.length = keyLen) (hu : uid.length = authUidLen) :
    decodeTag ([0x60, block] ++ key ++ uid) = .ok (.tagAuthA block key uid) ∧
    decodeTag ([0x61, block] ++ key ++ uid) = .ok (.tagAuthB block key uid) := by
  match key, uid, hk, hu with
  | [_, _, _, _, _, _], [_, _, _, _], _, _ => exact ⟨rfl, rfl⟩

end Sys2Proof.Laws
end

