-- ==== Sys2Proof/Laws/Operations.lean ====
section
/-! SUPPORT. What any operation leaves, said once for every constructor: it answers a next state, its events are whole windows around a
bounded number of transactions at the locations of its column of rule R53, the register space is their replay, and the
configuration stays (rules R23, R53, R114, R284 of spec/). -/

namespace Sys2Proof.Laws

open Sys2Proof Sys2Proof.Machine Host

/-- The account of an operation that went from `s` to `t`: traffic at these locations, of at most `N` transactions where a bound `N`
is given. -/
def Account (locs : List Nat) (bound : Option Nat) (s t : State) : Prop :=
  SameConfig s t ∧ ∃ evs answers n, t.trace = s.trace ++ evs ∧ Answered answers s t ∧ t.chipRegs = replay evs s.chipRegs ∧
    Traffic s.csPresent locs evs n ∧ ∀ N, bound = some N → n ≤ N

variable {s t u : State} {evs : List Event} {as : List Byte} {locs : List Nat} {N : Nat}

/-- A run of accesses within a bound, then changes of registers, results and ports alone. -/
theorem Ran.account (h : Ran evs as s u) (w : Within s.csPresent locs evs N) (hc : SameConfig u t) (ht : t.trace = u.trace)
    (he : t.env.chip = u.env.chip) (hm : t.chipRegs = u.chipRegs) : Account locs (some N) s t := by
  obtain ⟨n, hn, w⟩ := w
  obtain ⟨⟨a1, a2, a3, a4⟩, -⟩ := h.same
  obtain ⟨b1, b2, b3, b4⟩ := hc
  exact ⟨⟨b1.trans a1, b2.trans a2, b3.trans a3, b4.trans a4⟩, evs, as, n, by rw [ht, h.trace], answered_congr h.answered he,
    by rw [hm, h.chipRegs], w, fun _ e => by cases e; exact hn⟩

/-- The same with a bound that holds under a condition only. -/
theorem Ran.account_free (h : Ran evs as s u) (w : Within s.csPresent locs evs N) (hc : SameConfig u t) (ht : t.trace = u.trace)
    (he : t.env.chip = u.env.chip) (hm : t.chipRegs = u.chipRegs) : Account locs none s t := by
  obtain ⟨h1, evs, as, n, h2, h3, h4, h5, -⟩ := h.account w hc ht he hm
  exact ⟨h1, evs, as, n, h2, h3, h4, h5, fun _ e => by cases e⟩

/-- No transaction at all. -/
theorem account_idle (b : Option Nat) (hc : SameConfig s t) (ht : t.trace = s.trace) (he : t.env.chip = s.env.chip)
    (hm : t.chipRegs = s.chipRegs) : Account locs b s t :=
  ⟨hc, [], [], 0, by simp [ht], answered_nil he, hm, ⟨rfl, rfl, fun _ h => by cases h⟩, fun _ _ => Nat.zero_le _⟩

theorem complete_config (r : Result) (c : Cause) (s : State) : SameConfig s (complete r c s) := ⟨rfl, rfl, rfl, rfl⟩

theorem moved_config (r : Result) (c : Cause) (p : PState) (s : State) : SameConfig s (complete r c (setPState p s)) :=
  ⟨rfl, rfl, rfl, rfl⟩

/-- An operation that ends with its result alone. -/
theorem Ran.account_complete (h : Ran evs as s u) (w : Within s.csPresent locs evs N) (r : Result) (c : Cause) :
    Account locs (some N) s (Machine.complete r c u) := h.account w (complete_config r c u) rfl rfl rfl

/-- A rejected call. -/
theorem account_reject (b : Option Nat) (c : Cause) (s : State) : Account locs b s (reject c s) :=
  account_idle b (complete_config ..) rfl rfl rfl

/-! ### WAIT_FOR_TAG -/

theorem waited_account {n : Nat} (h : Waited evs as s t) (w : Traffic s.csPresent locs evs n) : Account locs none s t :=
  ⟨h.2.2.2.1, evs, as, n, h.1, h.2.1, h.2.2.1, w, fun _ e => by cases e⟩

theorem account_then {locs : List Nat} (h : Account locs none s t) (g : Account locs none t u) : Account locs none s u := by
  obtain ⟨⟨a1, a2, a3, a4⟩, e1, as1, n1, h1, h2, h3, h4, -⟩ := h
  obtain ⟨⟨b1, b2, b3, b4⟩, e2, as2, n2, g1, g2, g3, g4, -⟩ := g
  rw [a2] at g4
  exact ⟨⟨b1.trans a1, b2.trans a2, b3.trans a3, b4.trans a4⟩, e1 ++ e2, as1 ++ as2, n1 + n2,
    by rw [g1, h1, List.append_assoc], answered_trans h2 g2, by rw [g3, h3, replay_append], h4.append g4, fun _ e => by cases e⟩

theorem waitPrologue_account (s : State) : Account (waitLocs s.cfg) none s (waitPrologue s) := by
  obtain ⟨evs, as, hp, hw, -⟩ := waitPrologue_waited s
  exact waited_account hw (waitPrologueRun_traffic hp)

theorem finishWait_account (f : Bool) (s : State) : Account (waitLocs s.cfg) none s (finishWait f s) := by
  obtain ⟨evs, as, hi, hw, -⟩ := finishWait_waited f s
  exact waited_account hw (initRun_wait hi)

theorem pass_account (irq : Bool) (s : State) : Account (waitLocs s.cfg) none s (signalWait irq (rearm s)) := by
  obtain ⟨evs, as, hp, hw, -⟩ := pass_waited irq s
  exact waited_account hw (passRun_traffic hp)

/-- The loop, over any script. -/
theorem waitLoop_account (timeout : BitVec 16) (left : Nat) (ds : List SliceDraw) (s : State) :
    Account (waitLocs s.cfg) none s (waitLoop timeout left ds s) := by
  induction ds generalizing s with
  | nil => exact account_idle none ⟨rfl, rfl, rfl, rfl⟩ rfl rfl rfl
  | cons d ds ih =>
    have taken : Account (waitLocs s.cfg) none s (drawn ds s) := account_idle none ⟨rfl, rfl, rfl, rfl⟩ rfl rfl rfl
    by_cases h : timeout ≠ 0 ∧ d.deadline = true
    · rw [waitLoop_deadline left ds s h.1 h.2]
      exact account_then taken (finishWait_account false (drawn ds s))
    · have h' : timeout = 0 ∨ d.deadline = false := by
        by_cases h0 : timeout = 0
        · exact .inl h0
        · exact .inr (by simpa using fun hd => h ⟨h0, hd⟩)
      rw [waitLoop_pass left ds s h']
      have passed := account_then taken (pass_account d.irq (drawn ds s))
      have hcfg : (signalWait d.irq (rearm (drawn ds s))).cfg = s.cfg := passed.1.1
      split
      · have g := finishWait_account true (signalWait d.irq (rearm (drawn ds s)))
        rw [hcfg] at g
        exact account_then passed g
      · have g := ih (signalWait d.irq (rearm (drawn ds s)))
        rw [hcfg] at g
        exact account_then passed g

theorem resumeWait_account (w : Waiting) (s : State) : Account (waitLocs s.cfg) none s (resumeWait w s) := by
  unfold resumeWait
  split
  · exact account_then (account_idle none ⟨rfl, rfl, rfl, rfl⟩ rfl rfl rfl)
      (waitLoop_account w.timeout _ _ { s with env := { s.env with asked := s.env.asked + 1 } })
  · exact waitLoop_account w.timeout _ _ s

theorem beginWait_account (timeout : BitVec 16) (s : State) : Account (waitLocs s.cfg) none s (beginWait timeout s) := by
  have p := waitPrologue_account (asking s)
  have g := waitLoop_account timeout (Config.freePasses s.env.asked) (waitPrologue (asking s)).env.slices (waitPrologue (asking s))
  rw [p.1.1] at g
  exact account_then (account_then (account_idle none ⟨rfl, rfl, rfl, rfl⟩ rfl rfl rfl) p) g

/-! ### Every operation -/

theorem two_within (a v w : Byte) {cs : Bool} : Within cs [location a] (onBus cs [rd a v, wr a w]) 2 :=
  (Traffic.bus (xs := [rd a v, wr a w]) (by simpa using ⟨fits_rd _ _ _, fits_wr _ (by simp)⟩)).within (Nat.le_refl 2)

theorem setBits_within (a m v : Byte) {cs : Bool} : Within cs [location a] (onBus cs (setXfers a m v)) 2 := two_within ..

theorem location_extend : ∀ a : BitVec 6, location (a.setWidth 8) = a.toNat := by decide

theorem answerFrame_account {r : Exec × State} (h : Ran evs as s r.2) (w : Within s.csPresent locs evs N) :
    ∃ t, answerFrame r = .next t ∧ Account locs (some N) s t := ⟨_, rfl, h.account_complete w _ _⟩

/-- The bound of CARD_WRITE for either command. -/
theorem cardWriteRun_within_any {c : Config} {cs : Bool} {command : Byte} {data : List Byte} {r : Exec}
    (h : CardWriteRun c cs command data evs as r) :
    Within cs (executorLocs c) evs (data.length + if command = c.cmdTransceive then 2030 else 2010) := by
  split
  · exact (cardWriteRun_within h).le (by have := (cardWriteRun_resp h).1; omega)
  · rename_i hx
    exact cardWriteRun_within_other hx h

/-- A frame run by itself. -/
theorem transceive_account (frame : List Byte) (s : State) :
    ∃ evs as, Ran evs as s (transceive frame s).2 ∧ Within s.csPresent (executorLocs s.cfg) evs (frame.length + 2030) := by
  obtain ⟨evs, as, hx, hr⟩ := transceive_ran frame s
  exact ⟨evs, as, hr, by simpa using cardWriteRun_within_any hx⟩

/-- The two authentications, whose bound needs the commands told apart. -/
theorem sendAuth_account {mode block : Byte} {key uid : List Byte} (s : State)
    (ht : t.trace = (sendAuth mode block key uid s).2.trace) (he : t.env.chip = (sendAuth mode block key uid s).2.env.chip)
    (hm : t.chipRegs = (sendAuth mode block key uid s).2.chipRegs) (hc : SameConfig (sendAuth mode block key uid s).2 t) :
    Account (executorLocs s.cfg) none s t ∧ (s.cfg.cmdAuthent ≠ s.cfg.cmdTransceive → key.length = 6 → uid.length = 4 →
      Account (executorLocs s.cfg) (some 2023) s t) := by
  obtain ⟨evs, as, _, _, hx, -, hr⟩ := sendAuth_ran mode block key uid s
  refine ⟨?_, fun h hk hu => hr.account (authRun_within h hk hu hx) hc ht he hm⟩
  obtain ⟨N, w⟩ := authRun_within_any hx
  exact hr.account_free w hc ht he hm

/-- CARD_AUTH is its frame, and on success the two registers. -/
theorem cardAuth_snd (mode block : Byte) (key uid : List Byte) (s : State) : (cardAuth mode block key uid s).2 =
    setPState (if (sendAuth mode block key uid s).1.error then (sendAuth mode block key uid s).2.pstate else .authenticated)
      (setAuthed ((sendAuth mode block key uid s).2.authed || !(sendAuth mode block key uid s).1.error)
        (sendAuth mode block key uid s).2) := by
  simp only [cardAuth]
  cases (sendAuth mode block key uid s).1.error
  · simp
  · simp; rfl

/-- What an operation that completes leaves of the account, whichever it is. -/
theorem exec_account (i : Instr) (s : State) : ∃ t, exec i s = .next t ∧ Account (mayWrite s.cfg i) none s t ∧
    (s.cfg.cmdAuthent ≠ s.cfg.cmdTransceive → i.wellFormed = true →
      Account (mayWrite s.cfg i) (maxTransactions s.cfg i) s t) := by
  have both : ∀ {locs : List Nat} {N : Nat} {t : State}, Account locs (some N) s t → Account locs none s t := by
    rintro locs N t ⟨h1, evs, as, n, h2, h3, h4, h5, -⟩
    exact ⟨h1, evs, as, n, h2, h3, h4, h5, fun _ e => by cases e⟩
  have plain : ∀ {j : Instr} {t : State} {N : Nat}, exec j s = .next t → maxTransactions s.cfg j = some N →
      Account (mayWrite s.cfg j) (some N) s t → ∃ t, exec j s = .next t ∧ Account (mayWrite s.cfg j) none s t ∧
      (s.cfg.cmdAuthent ≠ s.cfg.cmdTransceive → j.wellFormed = true →
        Account (mayWrite s.cfg j) (maxTransactions s.cfg j) s t) :=
    fun h1 h2 h3 => ⟨_, h1, both h3, fun _ _ => by rw [h2]; exact h3⟩
  cases i with
  | regWrite a v => exact plain rfl rfl ((regWrite_ran a v s).account_complete (one_write a v) _ _)
  | regRead a => exact plain rfl rfl ((regRead_ran a s).account_complete (one_read a _) _ _)
  | setBits a m =>
    obtain ⟨v, h⟩ := setBits_ran a m s
    exact plain rfl rfl (h.account_complete (two_within ..) _ _)
  | clearBits a m =>
    obtain ⟨v, h⟩ := clearBits_ran a m s
    exact plain rfl rfl (h.account_complete (two_within ..) _ _)
  | computeCrc data =>
    obtain ⟨evs, as, hx, h⟩ := computeCrc_ran data s
    exact plain rfl rfl (h.account_complete (crcRun_within hx) _ _)
  | cardWrite command data =>
    obtain ⟨evs, as, hx, h⟩ := cardWrite_ran command data s
    exact plain rfl rfl (h.account_complete (cardWriteRun_within_any hx) _ _)
  | request mode =>
    obtain ⟨evs, as, r, v, u, hx, -, h, e⟩ := request_ran mode s
    refine plain rfl rfl (h.account (requestRun_within hx).1 ?_ ?_ ?_ ?_) <;> rw [e]
    exacts [moved_config .., rfl, rfl, rfl]
  | anticoll =>
    obtain ⟨evs, as, r, v, u, hx, -, h, e⟩ := anticollBody_ran selectCode1 s
    refine plain rfl rfl (h.account (anticollRun_within hx).1 ?_ ?_ ?_ ?_) <;> rw [e]
    exacts [moved_config .., rfl, rfl, rfl]
  | anticoll2 =>
    obtain ⟨evs, as, r, v, u, hx, -, h, e⟩ := anticollBody_ran selectCode2 s
    refine plain rfl rfl (h.account (anticollRun_within hx).1 ?_ ?_ ?_ ?_) <;> rw [e]
    exacts [moved_config .., rfl, rfl, rfl]
  | selectTag uid =>
    by_cases hu : uid.length = anticollLen
    · obtain ⟨evs, as, r, v, u, hx, -, h, e⟩ := selectTag_ran uid s
      have he : exec (.selectTag uid) s = .next (complete (.flag (selectTag uid s).1.error) (selectTag uid s).1.cause
          (selectTag uid s).2) := if_pos hu
      refine plain he rfl (h.account (selectRun_within hu hx).1 ?_ ?_ ?_ ?_) <;> rw [e]
      exacts [moved_config .., rfl, rfl, rfl]
    · exact plain (if_neg hu) rfl (account_reject ..)
  | readId n =>
    obtain ⟨evs, as, p, uid, v, u, hx, h, e⟩ := readId_ran n s
    refine plain rfl rfl (h.account (readIdRun_within hx) ?_ ?_ ?_ ?_) <;> rw [e]
    exacts [moved_config .., rfl, rfl, rfl]
  | cardAuth mode block key uid =>
    by_cases hl : key.length = keyLen ∧ uid.length = authUidLen
    · have he : exec (.cardAuth mode block key uid) s = .next (complete (.flag (cardAuth mode block key uid s).1.error)
          (cardAuth mode block key uid s).1.cause (cardAuth mode block key uid s).2) := if_pos hl
      obtain ⟨h1, h2⟩ := sendAuth_account (t := complete (.flag (cardAuth mode block key uid s).1.error)
          (cardAuth mode block key uid s).1.cause (cardAuth mode block key uid s).2) (mode := mode) (block := block)
          (key := key) (uid := uid) s (by rw [cardAuth_snd]; rfl) (by rw [cardAuth_snd]; rfl) (by rw [cardAuth_snd]; rfl)
          (by rw [cardAuth_snd]; exact ⟨rfl, rfl, rfl, rfl⟩)
      exact ⟨_, he, h1, fun hx _ => h2 hx hl.1 hl.2⟩
    · exact plain (if_neg hl) rfl (account_reject ..)
  | read block =>
    obtain ⟨evs, as, r, hx, -, h⟩ := readBlock_ran block s
    have := (frameRun_resp hx).1
    exact plain rfl rfl (h.account_complete ((frameRun_within hx).le (by simp; omega)) _ _)
  | write block data =>
    by_cases hd : data.length = blockLen
    · obtain ⟨evs, as, v, hx, -, -, h⟩ := writeBlock_ran block data s
      exact plain (if_pos hd) rfl (h.account_complete (writeRun_within hd hx) _ _)
    · exact plain (if_neg hd) rfl (account_reject ..)
  | halt =>
    obtain ⟨evs, as, u, hx, h, e⟩ := halt_ran s
    refine plain rfl rfl (h.account (haltRun_within hx) ?_ ?_ ?_ ?_) <;> rw [e]
    exacts [⟨rfl, rfl, rfl, rfl⟩, rfl, rfl, rfl]
  | stopCrypto =>
    obtain ⟨st, u, h, e⟩ := stopCrypto_ran s
    refine plain rfl rfl (h.account (two_within ..) ?_ ?_ ?_ ?_) <;> rw [e]
    exacts [⟨rfl, rfl, rfl, rfl⟩, rfl, rfl, rfl]
  | setAntennaGain g =>
    by_cases hg : gainInRange (gainOperand g) = true
    · have h := regWrite_ran s.cfg.aRfCfg (gainField (g.setWidth 3)) s
      exact plain (if_pos hg) rfl (h.account (one_write ..) ⟨rfl, rfl, rfl, rfl⟩ rfl rfl rfl)
    · exact plain (if_neg hg) rfl (account_reject ..)
  | init =>
    obtain ⟨evs, as, hi, h⟩ := init_ran s
    exact plain rfl rfl (h.account_complete ((initRun_traffic hi).within (Nat.le_refl _)) _ _)
  | cleanup =>
    cases ha : s.authed
    · have he : exec .cleanup s = .next (complete .done .eNone s) := by simp [exec, execCleanup, ha]
      exact plain he rfl (account_idle _ (complete_config ..) rfl rfl rfl)
    · have he : exec .cleanup s = .next (complete .done .eNone (stopCrypto s)) := by simp [exec, execCleanup, ha]
      obtain ⟨st, u, h, e⟩ := stopCrypto_ran s
      refine plain he rfl (h.account (two_within ..) ?_ ?_ ?_ ?_) <;> rw [e]
      exacts [⟨rfl, rfl, rfl, rfl⟩, rfl, rfl, rfl]
  | waitForTag timeout =>
    have h : Account (waitLocs s.cfg) none s (if s.irqPresent then beginWait timeout s else reject .noInterruptLine s) := by
      split
      · exact beginWait_account timeout s
      · exact account_reject ..
    exact ⟨_, rfl, h, fun _ _ => h⟩
  | busWriteFrame a v =>
    have h := (regWrite_ran (a.setWidth 8) v s).account_complete (one_write _ v) .done .eNone
    rw [location_extend] at h
    exact plain rfl rfl h
  | busReadFrame a => exact plain rfl rfl ((regRead_ran (a.setWidth 8) s).account_complete (one_read _ _) _ _)
  | tagRequest mode =>
    obtain ⟨evs, as, r, v, hx, -, h⟩ := sendRequest_ran mode s
    exact plain rfl rfl (h.account_complete (requestRun_within hx).1 _ _)
  | tagAnticoll1 =>
    obtain ⟨evs, as, r, v, hx, -, h⟩ := sendAnticoll_ran selectCode1 s
    exact plain rfl rfl (h.account_complete (anticollRun_within hx).1 _ _)
  | tagAnticoll2 =>
    obtain ⟨evs, as, r, v, hx, -, h⟩ := sendAnticoll_ran selectCode2 s
    exact plain rfl rfl (h.account_complete (anticollRun_within hx).1 _ _)
  | tagSelect uid lo hi =>
    by_cases hu : uid.length = anticollLen
    · obtain ⟨evs, as, h, w⟩ := transceive_account (withCrc (selectBody uid) (lo, hi)) s
      have hn : (withCrc (selectBody uid) (lo, hi)).length = 9 := by simp [withCrc, selectBody, hu, anticollLen]
      rw [hn] at w
      exact plain (if_pos hu) rfl (h.account_complete w _ _)
    · exact plain (if_neg hu) rfl (account_reject ..)
  | tagAuthA block key uid =>
    by_cases hl : key.length = keyLen ∧ uid.length = authUidLen
    · obtain ⟨h1, h2⟩ := sendAuth_account (mode := authKeyA) (block := block) (key := key) (uid := uid)
        (t := complete (.executed (sendAuth authKeyA block key uid s).1.error (sendAuth authKeyA block key uid s).1.resp
          (sendAuth authKeyA block key uid s).1.rlen) (sendAuth authKeyA block key uid s).1.cause
          (sendAuth authKeyA block key uid s).2) s rfl rfl rfl (complete_config ..)
      exact ⟨_, if_pos hl, h1, fun hx _ => h2 hx hl.1 hl.2⟩
    · exact plain (if_neg hl) rfl (account_reject ..)
  | tagAuthB block key uid =>
    by_cases hl : key.length = keyLen ∧ uid.length = authUidLen
    · obtain ⟨h1, h2⟩ := sendAuth_account (mode := authKeyB) (block := block) (key := key) (uid := uid)
        (t := complete (.executed (sendAuth authKeyB block key uid s).1.error (sendAuth authKeyB block key uid s).1.resp
          (sendAuth authKeyB block key uid s).1.rlen) (sendAuth authKeyB block key uid s).1.cause
          (sendAuth authKeyB block key uid s).2) s rfl rfl rfl (complete_config ..)
      exact ⟨_, if_pos hl, h1, fun hx _ => h2 hx hl.1 hl.2⟩
    · exact plain (if_neg hl) rfl (account_reject ..)
  | tagRead block lo hi =>
    obtain ⟨evs, as, h, w⟩ := transceive_account (withCrc (readBody block) (lo, hi)) s
    exact plain rfl rfl (h.account_complete w _ _)
  | tagWritePhase1 block lo hi =>
    obtain ⟨evs, as, h, w⟩ := transceive_account (withCrc (writeBody block) (lo, hi)) s
    exact plain rfl rfl (h.account_complete w _ _)
  | tagWritePhase2 data lo hi =>
    by_cases hd : data.length = blockLen
    · obtain ⟨evs, as, h, w⟩ := transceive_account (withCrc data (lo, hi)) s
      have hn : (withCrc data (lo, hi)).length = 18 := by simp [withCrc, hd, blockLen]
      rw [hn] at w
      exact plain (if_pos hd) rfl (h.account_complete w _ _)
    · exact plain (if_neg hd) rfl (account_reject ..)
  | tagHalt lo hi =>
    obtain ⟨evs, as, h, w⟩ := transceive_account (withCrc haltBody (lo, hi)) s
    exact plain rfl rfl (h.account_complete w _ _)
  | cmdIdle => exact plain rfl rfl ((regWrite_ran _ _ s).account_complete (one_write _ _) _ _)
  | cmdCalcCrc => exact plain rfl rfl ((regWrite_ran _ _ s).account_complete (one_write _ _) _ _)
  | cmdTransceive => exact plain rfl rfl ((regWrite_ran _ _ s).account_complete (one_write _ _) _ _)
  | cmdAuthent => exact plain rfl rfl ((regWrite_ran _ _ s).account_complete (one_write _ _) _ _)
  | cmdSoftReset => exact plain rfl rfl ((regWrite_ran _ _ s).account_complete (one_write _ _) _ _)

end Sys2Proof.Laws
end

