-- ==== Sys2Proof/Laws/PerInstr.lean ====
section
/-! SUPPORT. Facts about every instruction as syntax, one lemma for each constructor: the length of its word is the `length_bytes` of its
row in spec/opcode_table.json, and two bytes for a bus frame (R83). -/

namespace Sys2Proof.Laws.EncodedLength

open Sys2Proof

/-- The length of the row (rules R83, R85, R87). -/
def rowLength : Instr → Nat
  | .regWrite _ _ => 3
  | .regRead _ => 2
  | .setBits _ _ => 3
  | .clearBits _ _ => 3
  | .computeCrc data => 2 + data.length
  | .cardWrite _ data => 3 + data.length
  | .request _ => 2
  | .anticoll => 1
  | .anticoll2 => 1
  | .selectTag _ => 6
  | .readId _ => 2
  | .cardAuth _ _ _ _ => 13
  | .read _ => 2
  | .write _ _ => 18
  | .halt => 1
  | .stopCrypto => 1
  | .setAntennaGain _ => 2
  | .init => 1
  | .cleanup => 1
  | .waitForTag _ => 3
  | .busWriteFrame _ _ => 2
  | .busReadFrame _ => 2
  | .tagRequest _ => 1
  | .tagAnticoll1 => 2
  | .tagAnticoll2 => 2
  | .tagSelect _ _ _ => 9
  | .tagAuthA _ _ _ => 12
  | .tagAuthB _ _ _ => 12
  | .tagRead _ _ _ => 4
  | .tagWritePhase1 _ _ _ => 4
  | .tagWritePhase2 _ _ _ => 18
  | .tagHalt _ _ => 4
  | .cmdIdle => 1
  | .cmdCalcCrc => 1
  | .cmdTransceive => 1
  | .cmdAuthent => 1
  | .cmdSoftReset => 1

/-- The word of a well-formed instruction has its row's length, under every configuration. -/
def Statement (i : Instr) : Prop := i.wellFormed = true → ∀ cfg : Config, (encode cfg i).bytes.length = rowLength i

theorem regWrite (addr : Byte) (value : Byte) : Statement (.regWrite addr value) := fun _ _ => rfl
theorem regRead (addr : Byte) : Statement (.regRead addr) := fun _ _ => rfl
theorem setBits (addr : Byte) (mask : Byte) : Statement (.setBits addr mask) := fun _ _ => rfl
theorem clearBits (addr : Byte) (mask : Byte) : Statement (.clearBits addr mask) := fun _ _ => rfl
theorem computeCrc (data : List Byte) : Statement (.computeCrc data) := by
  intro _ cfg
  simp [encode, rowLength]
  omega
theorem cardWrite (command : Byte) (data : List Byte) : Statement (.cardWrite command data) := by
  intro _ cfg
  simp [encode, rowLength]
  omega
theorem request (mode : Byte) : Statement (.request mode) := fun _ _ => rfl
theorem anticoll : Statement .anticoll := fun _ _ => rfl
theorem anticoll2 : Statement .anticoll2 := fun _ _ => rfl
theorem selectTag (uid : List Byte) : Statement (.selectTag uid) := by
  intro h cfg
  have hl : uid.length = anticollLen := of_decide_eq_true h
  simp [encode, rowLength, hl, anticollLen]
theorem readId (asNumber : Bool) : Statement (.readId asNumber) := fun _ _ => rfl
theorem cardAuth (mode : Byte) (block : Byte) (key : List Byte) (uid : List Byte) : Statement (.cardAuth mode block key uid) := by
  intro h cfg
  simp only [Instr.wellFormed, Bool.and_eq_true, decide_eq_true_eq] at h
  simp [encode, rowLength, h, keyLen, authUidLen]
theorem read (block : Byte) : Statement (.read block) := fun _ _ => rfl
theorem write (block : Byte) (data : List Byte) : Statement (.write block data) := by
  intro h cfg
  have hl : data.length = blockLen := of_decide_eq_true h
  simp [encode, rowLength, hl, blockLen]
theorem halt : Statement .halt := fun _ _ => rfl
theorem stopCrypto : Statement .stopCrypto := fun _ _ => rfl
theorem setAntennaGain (gain : Byte) : Statement (.setAntennaGain gain) := fun _ _ => rfl
theorem init : Statement .init := fun _ _ => rfl
theorem cleanup : Statement .cleanup := fun _ _ => rfl
theorem waitForTag (timeout : BitVec 16) : Statement (.waitForTag timeout) := fun _ _ => rfl
theorem busWriteFrame (address : BitVec 6) (value : Byte) : Statement (.busWriteFrame address value) := fun _ _ => rfl
theorem busReadFrame (address : BitVec 6) : Statement (.busReadFrame address) := fun _ _ => rfl
theorem tagRequest (mode : Byte) : Statement (.tagRequest mode) := fun _ _ => rfl
theorem tagAnticoll1 : Statement .tagAnticoll1 := fun _ _ => rfl
theorem tagAnticoll2 : Statement .tagAnticoll2 := fun _ _ => rfl
theorem tagSelect (uid : List Byte) (lo : Byte) (hi : Byte) : Statement (.tagSelect uid lo hi) := by
  intro h cfg
  have hl : uid.length = anticollLen := of_decide_eq_true h
  simp [encode, rowLength, hl, anticollLen]
theorem tagAuthA (block : Byte) (key : List Byte) (uid : List Byte) : Statement (.tagAuthA block key uid) := by
  intro h cfg
  simp only [Instr.wellFormed, Bool.and_eq_true, decide_eq_true_eq] at h
  simp [encode, rowLength, h, keyLen, authUidLen]
theorem tagAuthB (block : Byte) (key : List Byte) (uid : List Byte) : Statement (.tagAuthB block key uid) := by
  intro h cfg
  simp only [Instr.wellFormed, Bool.and_eq_true, decide_eq_true_eq] at h
  simp [encode, rowLength, h, keyLen, authUidLen]
theorem tagRead (block : Byte) (lo : Byte) (hi : Byte) : Statement (.tagRead block lo hi) := fun _ _ => rfl
theorem tagWritePhase1 (block : Byte) (lo : Byte) (hi : Byte) : Statement (.tagWritePhase1 block lo hi) := fun _ _ => rfl
theorem tagWritePhase2 (data : List Byte) (lo : Byte) (hi : Byte) : Statement (.tagWritePhase2 data lo hi) := by
  intro h cfg
  have hl : data.length = blockLen := of_decide_eq_true h
  simp [encode, rowLength, hl, blockLen]
theorem tagHalt (lo : Byte) (hi : Byte) : Statement (.tagHalt lo hi) := fun _ _ => rfl
theorem cmdIdle : Statement .cmdIdle := fun _ _ => rfl
theorem cmdCalcCrc : Statement .cmdCalcCrc := fun _ _ => rfl
theorem cmdTransceive : Statement .cmdTransceive := fun _ _ => rfl
theorem cmdAuthent : Statement .cmdAuthent := fun _ _ => rfl
theorem cmdSoftReset : Statement .cmdSoftReset := fun _ _ => rfl

end Sys2Proof.Laws.EncodedLength
end

