-- ==== Sys2Proof/Laws/Reset.lean ====
section
/-! SUPPORT. The state after construction is what INIT makes of the registers (rules R45, R263, R264 of spec/): the bus side of
Machine/Bus.lean and `init` are the same. -/

namespace Sys2Proof.Laws

open Sys2Proof Sys2Proof.Machine

/-- A state with this bus side and no scripted answer. -/
def onSide (s : State) (b : BusSide) : State :=
  { s with trace := b.trace, chipRegs := b.chipRegs, env := { s.env with chip := [], asked := b.asked } }

theorem initStep_onSide (e : InitEntry) (s : State) (b : BusSide) :
    initStep e (onSide s b) = onSide s
      (match e.kind with
        | .write => busWrite s.csPresent e.addr (initByte s.gain e.arg) b
        | .set   => busSet s.csPresent e.addr (initByte s.gain e.arg) b) := by
  unfold initStep
  cases e.kind <;> rfl

theorem initSteps_onSide (es : List InitEntry) (s : State) (b : BusSide) :
    initSteps es (onSide s b) = onSide s (busInit s.csPresent s.gain es b) := by
  induction es generalizing b with
  | nil => rfl
  | cons e es ih => rw [initSteps, initStep_onSide, ih]; rfl

/-- Construction with every answer free: the registers, then INIT. -/
theorem constructed_eq (p : SessionParams) : State.constructed p = init (State.beforeInit p Env.free) :=
  (initSteps_onSide p.chip.initSeq (State.beforeInit p Env.free) ⟨[], [], 0⟩).symm

/-! ### The registers after construction (R45) -/

@[simp] theorem constructed_cfg (p : SessionParams) : (State.constructed p).cfg = p.chip := rfl
@[simp] theorem constructed_csPresent (p : SessionParams) : (State.constructed p).csPresent = p.csPresent := rfl
@[simp] theorem constructed_irqPresent (p : SessionParams) : (State.constructed p).irqPresent = p.irqPresent := rfl
@[simp] theorem constructed_authed (p : SessionParams) : (State.constructed p).authed = false := rfl
@[simp] theorem constructed_gain (p : SessionParams) : (State.constructed p).gain = BitVec.ofInt 3 p.gainInit := rfl
@[simp] theorem constructed_pstate (p : SessionParams) : (State.constructed p).pstate = .idle := rfl
@[simp] theorem constructed_signal (p : SessionParams) : (State.constructed p).signal = false := rfl
@[simp] theorem constructed_waiting (p : SessionParams) : (State.constructed p).waiting = none := rfl
@[simp] theorem constructed_port (p : SessionParams) : (State.constructed p).port = [] := rfl
@[simp] theorem constructed_results (p : SessionParams) : (State.constructed p).results = [] := rfl

end Sys2Proof.Laws
end

