-- ==== Sys2Proof/Tests/Slice0.lean ====
section
/-! SUPPORT. The model's own tests, each about one step on a small state.  The words are written out from the tables of
spec/30_encoding.md and the expected traces, results and registers are the vectors of spec/95_test_vectors.md, which the spec derives
by hand and by its reference transcription; none comes from this model. -/

namespace Sys2Proof.Tests

-- One test after the other: as many threads at once as there are tests would not fit in memory.
set_option Elab.async false

open Sys2Proof Sys2Proof.Machine Host

/-! ### Ill-formed terms -/

theorem test_wellFormed_crc : Instr.wellFormed (.computeCrc (List.replicate 256 0)) = false := by decide +kernel
theorem test_wellFormed_card_write : Instr.wellFormed (.cardWrite 0x0C (List.replicate 256 0)) = false := by decide +kernel
theorem test_wellFormed_select : Instr.wellFormed (.selectTag [1, 2, 3, 4]) = false := by decide
theorem test_wellFormed_auth_key : Instr.wellFormed (.cardAuth 0x60 4 [1, 2, 3, 4, 5] [1, 2, 3, 4]) = false := by decide
theorem test_wellFormed_auth_uid : Instr.wellFormed (.cardAuth 0x60 4 [1, 2, 3, 4, 5, 6] [1, 2, 3, 4, 5]) = false := by decide
theorem test_wellFormed_write : Instr.wellFormed (.write 4 [1, 2, 3]) = false := by decide
theorem test_wellFormed_tag_select : Instr.wellFormed (.tagSelect [1, 2, 3, 4] 0 0) = false := by decide
theorem test_wellFormed_tag_auth_a : Instr.wellFormed (.tagAuthA 4 [1] [1, 2, 3, 4]) = false := by decide
theorem test_wellFormed_tag_auth_b : Instr.wellFormed (.tagAuthB 4 [1, 2, 3, 4, 5, 6] [1]) = false := by decide
theorem test_wellFormed_tag_write : Instr.wellFormed (.tagWritePhase2 [1] 0 0) = false := by decide

/-! ### Words -/

/-- R85: one word of each operation with operands, each operand byte a different one. -/
theorem test_decode_host :
    [[0x01, 0x26, 0x30], [0x02, 0x08], [0x03, 0x14, 0x03], [0x04, 0x08, 0x80], [0x05, 0x01, 0xAA], [0x06, 0x0C, 0x01, 0x26],
     [0x10, 0x52], [0x14, 0x00], [0x14, 0x01], [0x21, 0x04], [0x30, 0xFF], [0x33, 0x12, 0x34]].map
      (fun b => decode Config.mfrc522 ⟨.host, b⟩) =
    [.ok (.regWrite 0x26 0x30), .ok (.regRead 0x08), .ok (.setBits 0x14 0x03), .ok (.clearBits 0x08 0x80),
     .ok (.computeCrc [0xAA]), .ok (.cardWrite 0x0C [0x26]), .ok (.request 0x52), .ok (.readId false), .ok (.readId true),
     .ok (.read 0x04), .ok (.setAntennaGain 0xFF), .ok (.waitForTag 0x1234)] := by decide +kernel

/-- R85: the operations without an operand. -/
theorem test_decode_host_bare :
    [0x11#8, 0x12, 0x23, 0x24, 0x31, 0x32].map (fun b => decode Config.mfrc522 ⟨.host, [b]⟩) =
    [.ok .anticoll, .ok .anticoll2, .ok .halt, .ok .stopCrypto, .ok .init, .ok .cleanup] := by decide +kernel

/-- R85: the operations with a fixed run of bytes. -/
theorem test_decode_host_runs :
    [[0x13, 1, 2, 3, 4, 5], [0x20, 0x61, 7, 1, 2, 3, 4, 5, 6, 9, 8, 7, 6],
     [0x22, 5, 0, 1, 2, 3, 4, 5, 6, 7, 8, 9, 10, 11, 12, 13, 14, 15]].map (fun b => decode Config.mfrc522 ⟨.host, b⟩) =
    [.ok (.selectTag [1, 2, 3, 4, 5]), .ok (.cardAuth 0x61 7 [1, 2, 3, 4, 5, 6] [9, 8, 7, 6]),
     .ok (.write 5 [0, 1, 2, 3, 4, 5, 6, 7, 8, 9, 10, 11, 12, 13, 14, 15])] := by decide +kernel

/-- R80, R81, bit by bit: direction, six address bits, zero, then the value. -/
theorem test_decode_bus :
    decode Config.mfrc522 ⟨.bus, [0b01001100, 0b00110000]⟩ = .ok (.busWriteFrame 0b100110 0x30) ∧
    decode Config.mfrc522 ⟨.bus, [0b10010000, 0x00]⟩ = .ok (.busReadFrame 0b001000) ∧
    decode Config.mfrc522 ⟨.bus, [0b01001101, 0x30]⟩ = .error .unknownOp ∧
    decode Config.mfrc522 ⟨.bus, [0b10010000, 0x01]⟩ = .error .unknownOp := by decide +kernel

/-- R87, byte for byte. -/
theorem test_decode_tag :
    [[0x26], [0x93, 0x20], [0x95, 0x20], [0x93, 0x70, 1, 2, 3, 4, 5, 6, 7], [0x60, 4, 1, 2, 3, 4, 5, 6, 9, 8, 7, 6],
     [0x61, 4, 1, 2, 3, 4, 5, 6, 9, 8, 7, 6], [0x30, 4, 0x26, 0xEE], [0xA0, 4, 0x7B, 0xF7], [0x50, 0, 0x57, 0xCD],
     [0, 1, 2, 3, 4, 5, 6, 7, 8, 9, 10, 11, 12, 13, 14, 15, 0x75, 0x25], [0x50, 1, 0x57, 0xCD]].map
      (fun b => decode Config.mfrc522 ⟨.tag, b⟩) =
    [.ok (.tagRequest 0x26), .ok .tagAnticoll1, .ok .tagAnticoll2, .ok (.tagSelect [1, 2, 3, 4, 5] 6 7),
     .ok (.tagAuthA 4 [1, 2, 3, 4, 5, 6] [9, 8, 7, 6]), .ok (.tagAuthB 4 [1, 2, 3, 4, 5, 6] [9, 8, 7, 6]),
     .ok (.tagRead 4 0x26 0xEE), .ok (.tagWritePhase1 4 0x7B 0xF7), .ok (.tagHalt 0x57 0xCD),
     .ok (.tagWritePhase2 [0, 1, 2, 3, 4, 5, 6, 7, 8, 9, 10, 11, 12, 13, 14, 15] 0x75 0x25), .error .unknownOp] := by
  decide +kernel

/-- R8, R94: the default codes. -/
theorem test_decode_chip :
    [0x00#8, 0x03, 0x0C, 0x0E, 0x0F, 0x01].map (fun b => decode Config.mfrc522 ⟨.chip, [b]⟩) =
    [.ok .cmdIdle, .ok .cmdCalcCrc, .ok .cmdTransceive, .ok .cmdAuthent, .ok .cmdSoftReset, .error .unknownOp] := by
  decide +kernel

/-- V66. -/
theorem test_decode_unassigned :
    [0x00#8, 0x07, 0x0F, 0x15, 0x25, 0x2F, 0x34, 0xFF].all
      (fun b => decide (decode Config.mfrc522 ⟨.host, [b]⟩ = .error .unknownOp)) = true := by decide +kernel

/-- The rows of the opcode table, by their bits; a row the table gives no operand bits has zero operands. -/
theorem test_table_words :
    decodeTableWord 8 0x01 = some (.regWrite 0 0) ∧ decodeTableWord 8 0x05 = some (.computeCrc []) ∧
    decodeTableWord 8 0x13 = some (.selectTag [0, 0, 0, 0, 0]) ∧ decodeTableWord 16 0x0000 = some (.busWriteFrame 0 0) ∧
    decodeTableWord 16 0x8000 = some (.busReadFrame 0) ∧ decodeTableWord 16 0x9370 = some (.tagSelect [0, 0, 0, 0, 0] 0 0) ∧
    decodeTableWord 8 0x26 = some (.tagRequest 0x26) ∧ decodeTableWord 8 0x0E = some .cmdAuthent := by decide +kernel

/-- R92 and V44. -/
theorem test_number_field :
    numberField 4 (number [0xDE, 0xAD, 0xBE, 0xEF]) = [0x04, 0x00, 0x00, 0x00, 0xDE, 0xAD, 0xBE, 0xEF] ∧
    numberField 7 (number [0x04, 0x12, 0x34, 0x56, 0x78, 0x9A, 0xBC]) = [0x07, 0x04, 0x12, 0x34, 0x56, 0x78, 0x9A, 0xBC] := by
  decide +kernel

/-- V65: the four rejections, and the transactions of a construction that passes. -/
theorem test_construct :
    construct { SessionParams.usual with rstCfg := none } Env.free = .rejected .missingResetLine ∧
    construct { SessionParams.usual with pinModeOk := false } Env.free = .rejected .pinNamingMode ∧
    construct { SessionParams.usual with gainInit := 8 } Env.free = .rejected .gainRange ∧
    construct { SessionParams.usual with rstCfg := none, gainInit := 8 } Env.free = .rejected .missingResetLine ∧
    (match construct SessionParams.usual { Env.free with chip := [0x80] } with
      | .session s => decide (transactions s.trace = 10 ∧ Memory.get 0x26 s.chipRegs = some 0x40 ∧ s.gain = 4)
      | _ => false) = true := by
  decide +kernel

/-- R45, R263 with the list of R203 and the gain 4: the registers INIT wrote hold it after reset, and no other register has a value. -/
theorem test_reset_registers :
    ([0x01, 0x2A, 0x2B, 0x2D, 0x2C, 0x15, 0x11, 0x26].map fun a => Memory.get a State.reset.chipRegs) =
      [some 0x0F, some 0x8D, some 0x3E, some 0x1E, some 0x00, some 0x40, some 0x3D, some 0x40] ∧
    (Memory.get 0x14 State.reset.chipRegs).isSome = true ∧ Memory.get 0x02 State.reset.chipRegs = none ∧
    transactions State.reset.trace = 10 := by decide +kernel

/-- R220: codes as the vectors give them. -/
theorem test_cause_codes :
    [Cause.missingResetLine, .pinNamingMode, .gainRange, .noInterruptLine, .unknownOp].map causeCode = [16, 17, 18, 32, 33] := by
  decide

/-! ### One step -/

/-- The state of the vectors: no interrupt line, nothing observed yet, and these answers of the chip. -/
def plain (chip : List Byte) : State :=
  { State.reset with irqPresent := false, trace := [], chipRegs := [], env := { Env.free with chip := chip } }

/-- The same with the chip-select line. -/
def lined (chip : List Byte) : State := { plain chip with csPresent := true }

/-- The same with the tag selected. -/
def selected (chip : List Byte) : State := { plain chip with pstate := .selected }

/-- The same with the tag authenticated. -/
def authenticated (chip : List Byte) : State := { plain chip with pstate := .authenticated, authed := true }

/-- With the interrupt line, a gain of 3, these passes of a wait, and no edge before the step. -/
def waits (slices : List SliceDraw) (chip : List Byte) : State :=
  { State.reset with gain := 3, trace := [], chipRegs := [], env := ⟨chip, slices, [false], 0⟩ }

/-- `W aa vv`. -/
def w (aa vv : Byte) : Event := .xferWrite aa vv

/-- `R aa 00 -> rr`. -/
def r (aa rr : Byte) : Event := .xferRead aa 0x00 rr

/-- What one step with this word offered shows: the trace, the results, and `authed`, `gain`, `pstate`, `signal`. -/
def seen (layer : Layer) (bytes : List Byte) (s : State) :
    Option (List Event × List Completion × (Bool × BitVec 3 × PState × Bool)) :=
  match step { s with port := [⟨layer, bytes⟩] } with
  | .next t => some (t.trace, t.results, (t.authed, t.gain, t.pstate, t.signal))
  | _ => none

/-- V10. -/
theorem test_reg_write : seen .host [0x01, 0x26, 0x30] (plain []) = some
    ([w 0x4C 0x30],
     [⟨.done, .eNone⟩], (false, 4, .idle, false)) := by decide +kernel

/-- V10c. -/
theorem test_reg_write_window : seen .host [0x01, 0x26, 0x30] (lined []) = some
    ([.csAssert, w 0x4C 0x30, .csRelease],
     [⟨.done, .eNone⟩], (false, 4, .idle, false)) := by decide +kernel

/-- V11. -/
theorem test_reg_read : seen .host [0x02, 0x08] (plain [0x09]) = some
    ([r 0x90 0x09],
     [⟨.value 0x09, .eNone⟩], (false, 4, .idle, false)) := by decide +kernel

/-- V12. -/
theorem test_set_bits : seen .host [0x03, 0x14, 0x03] (plain [0x80]) = some
    ([r 0xA8 0x80, w 0x28 0x83],
     [⟨.done, .eNone⟩], (false, 4, .idle, false)) := by decide +kernel

/-- V12a. -/
theorem test_set_bits_already_set : seen .host [0x03, 0x14, 0x03] (plain [0x83]) = some
    ([r 0xA8 0x83, w 0x28 0x83],
     [⟨.done, .eNone⟩], (false, 4, .idle, false)) := by decide +kernel

/-- V13. -/
theorem test_clear_bits : seen .host [0x04, 0x08, 0x08] (plain [0x09]) = some
    ([r 0x90 0x09, w 0x10 0x01],
     [⟨.done, .eNone⟩], (false, 4, .idle, false)) := by decide +kernel

/-- V13b. -/
theorem test_clear_bits_writes_the_rest_back : seen .host [0x04, 0x04, 0x80] (plain [0xFF]) = some
    ([r 0x88 0xFF, w 0x08 0x7F],
     [⟨.done, .eNone⟩], (false, 4, .idle, false)) := by decide +kernel

/-- V20. -/
theorem test_compute_crc : seen .host [0x05, 0x02, 0x30, 0x04] (plain [0x04, 0x00, 0x00, 0x04, 0x26, 0xEE]) = some
    ([r 0x8A 0x04, w 0x0A 0x00, r 0x94 0x00, w 0x14 0x80, w 0x12 0x30, w 0x12 0x04, w 0x02 0x03, r 0x8A 0x00,
     r 0x8A 0x04, r 0xC4 0x26, r 0xC2 0xEE],
     [⟨.crc 0x26 0xEE, .eNone⟩], (false, 4, .idle, false)) := by decide +kernel

/-- V21. -/
theorem test_compute_crc_empty : seen .host [0x05, 0x00] (plain [0x00, 0x00, 0x04, 0x63, 0x63]) = some
    ([r 0x8A 0x00, w 0x0A 0x00, r 0x94 0x00, w 0x14 0x80, w 0x02 0x03, r 0x8A 0x04, r 0xC4 0x63, r 0xC2 0x63],
     [⟨.crc 0x63 0x63, .eNone⟩], (false, 4, .idle, false)) := by decide +kernel

/-- V34: the warning is logged before the drain, whose byte is returned. -/
theorem test_card_write_warning : seen .host [0x06, 0x0C, 0x01, 0x26] (plain [0x00, 0x00, 0x00, 0x45, 0x80, 0x00, 0x01, 0x00, 0x5A]) = some
    ([w 0x04 0xF7, r 0x88 0x00, w 0x08 0x00, r 0x94 0x00, w 0x14 0x80, w 0x02 0x00, w 0x12 0x26, w 0x02 0x0C,
     r 0x9A 0x00, w 0x1A 0x80, r 0x88 0x45, r 0x9A 0x80, w 0x1A 0x00, r 0x8C 0x00, .logE1, r 0x94 0x01, r 0x98 0x00,
     r 0x92 0x5A],
     [⟨.executed true [0x5A] 8, .eSoftE1⟩], (false, 4, .idle, false)) := by decide +kernel

/-- V38. -/
theorem test_card_write_negative_length : seen .host [0x06, 0x0C, 0x01, 0x26] (plain [0x00, 0x00, 0x00, 0x20, 0x80, 0x00, 0x00, 0x03]) = some
    ([w 0x04 0xF7, r 0x88 0x00, w 0x08 0x00, r 0x94 0x00, w 0x14 0x80, w 0x02 0x00, w 0x12 0x26, w 0x02 0x0C,
     r 0x9A 0x00, w 0x1A 0x80, r 0x88 0x20, r 0x9A 0x80, w 0x1A 0x00, r 0x8C 0x00, r 0x94 0x00, r 0x98 0x03],
     [⟨.executed false [] (-5), .eNone⟩], (false, 4, .idle, false)) := by decide +kernel

/-- V40. -/
theorem test_request : seen .host [0x10, 0x26] (plain [0x00, 0x00, 0x07, 0x00, 0x64, 0x87, 0x00, 0x02, 0x10, 0x04, 0x00]) = some
    ([w 0x1A 0x07, w 0x04 0xF7, r 0x88 0x00, w 0x08 0x00, r 0x94 0x00, w 0x14 0x80, w 0x02 0x00, w 0x12 0x26,
     w 0x02 0x0C, r 0x9A 0x07, w 0x1A 0x87, r 0x88 0x00, r 0x88 0x64, r 0x9A 0x87, w 0x1A 0x07, r 0x8C 0x00,
     r 0x94 0x02, r 0x98 0x10, r 0x92 0x04, r 0x92 0x00],
     [⟨.answered false 16, .eNone⟩], (false, 4, .requested, false)) := by decide +kernel

/-- V40a. -/
theorem test_request_short : seen .host [0x10, 0x26] (plain [0x00, 0x00, 0x07, 0x20, 0x87, 0x00, 0x01, 0x00, 0x04]) = some
    ([w 0x1A 0x07, w 0x04 0xF7, r 0x88 0x00, w 0x08 0x00, r 0x94 0x00, w 0x14 0x80, w 0x02 0x00, w 0x12 0x26,
     w 0x02 0x0C, r 0x9A 0x07, w 0x1A 0x87, r 0x88 0x20, r 0x9A 0x87, w 0x1A 0x07, r 0x8C 0x00, r 0x94 0x01,
     r 0x98 0x00, r 0x92 0x04],
     [⟨.answered true 0, .eShape⟩], (false, 4, .idle, false)) := by decide +kernel

/-- V41. -/
theorem test_anticoll : seen .host [0x11] (plain [0x00, 0x00, 0x00, 0x00, 0x64, 0x80, 0x00, 0x05, 0x10, 0xDE, 0xAD, 0xBE, 0xEF, 0x22]) = some
    ([w 0x1A 0x00, w 0x04 0xF7, r 0x88 0x00, w 0x08 0x00, r 0x94 0x00, w 0x14 0x80, w 0x02 0x00, w 0x12 0x93,
     w 0x12 0x20, w 0x02 0x0C, r 0x9A 0x00, w 0x1A 0x80, r 0x88 0x00, r 0x88 0x64, r 0x9A 0x80, w 0x1A 0x00,
     r 0x8C 0x00, r 0x94 0x05, r 0x98 0x10, r 0x92 0xDE, r 0x92 0xAD, r 0x92 0xBE, r 0x92 0xEF, r 0x92 0x22],
     [⟨.bytes false [0xDE, 0xAD, 0xBE, 0xEF, 0x22], .eNone⟩], (false, 4, .uidPartial, false)) := by decide +kernel

/-- V41b. -/
theorem test_anticoll_bad_check : seen .host [0x11] (plain [0x00, 0x00, 0x00, 0x00, 0x64, 0x80, 0x00, 0x05, 0x10, 0xDE, 0xAD, 0xBE, 0xEF, 0x23]) = some
    ([w 0x1A 0x00, w 0x04 0xF7, r 0x88 0x00, w 0x08 0x00, r 0x94 0x00, w 0x14 0x80, w 0x02 0x00, w 0x12 0x93,
     w 0x12 0x20, w 0x02 0x0C, r 0x9A 0x00, w 0x1A 0x80, r 0x88 0x00, r 0x88 0x64, r 0x9A 0x80, w 0x1A 0x00,
     r 0x8C 0x00, r 0x94 0x05, r 0x98 0x10, r 0x92 0xDE, r 0x92 0xAD, r 0x92 0xBE, r 0x92 0xEF, r 0x92 0x23],
     [⟨.bytes true [0xDE, 0xAD, 0xBE, 0xEF, 0x23], .eChecksum⟩], (false, 4, .idle, false)) := by decide +kernel

/-- V43. -/
theorem test_anticoll2 : seen .host [0x12] (plain [0x00, 0x00, 0x00, 0x00, 0x64, 0x80, 0x00, 0x05, 0x10, 0x56, 0x78, 0x9A, 0xBC, 0x08]) = some
    ([w 0x1A 0x00, w 0x04 0xF7, r 0x88 0x00, w 0x08 0x00, r 0x94 0x00, w 0x14 0x80, w 0x02 0x00, w 0x12 0x95,
     w 0x12 0x20, w 0x02 0x0C, r 0x9A 0x00, w 0x1A 0x80, r 0x88 0x00, r 0x88 0x64, r 0x9A 0x80, w 0x1A 0x00,
     r 0x8C 0x00, r 0x94 0x05, r 0x98 0x10, r 0x92 0x56, r 0x92 0x78, r 0x92 0x9A, r 0x92 0xBC, r 0x92 0x08],
     [⟨.bytes false [0x56, 0x78, 0x9A, 0xBC, 0x08], .eNone⟩], (false, 4, .uidPartial, false)) := by decide +kernel

/-- V42. -/
theorem test_select_tag : seen .host [0x13, 0xDE, 0xAD, 0xBE, 0xEF, 0x22] (plain [0x00, 0x00, 0x04, 0xB9, 0x9C, 0x00, 0x00, 0x00, 0x00, 0x64, 0x80, 0x00, 0x03, 0x10, 0x08, 0xB6, 0xDD]) = some
    ([r 0x8A 0x00, w 0x0A 0x00, r 0x94 0x00, w 0x14 0x80, w 0x12 0x93, w 0x12 0x70, w 0x12 0xDE, w 0x12 0xAD,
     w 0x12 0xBE, w 0x12 0xEF, w 0x12 0x22, w 0x02 0x03, r 0x8A 0x04, r 0xC4 0xB9, r 0xC2 0x9C, w 0x04 0xF7,
     r 0x88 0x00, w 0x08 0x00, r 0x94 0x00, w 0x14 0x80, w 0x02 0x00, w 0x12 0x93, w 0x12 0x70, w 0x12 0xDE]
    ++ [w 0x12 0xAD, w 0x12 0xBE, w 0x12 0xEF, w 0x12 0x22, w 0x12 0xB9, w 0x12 0x9C, w 0x02 0x0C, r 0x9A 0x00,
     w 0x1A 0x80, r 0x88 0x00, r 0x88 0x64, r 0x9A 0x80, w 0x1A 0x00, r 0x8C 0x00, r 0x94 0x03, r 0x98 0x10,
     r 0x92 0x08, r 0x92 0xB6, r 0x92 0xDD],
     [⟨.flag false, .eNone⟩], (false, 4, .selected, false)) := by decide +kernel

/-- P1. -/
theorem test_read_id : seen .host [0x14, 0x00] (plain ([0x00, 0x00, 0x07, 0x00, 0x64, 0x87, 0x00, 0x02, 0x10, 0x04, 0x00, 0x64, 0x00, 0x00, 0x00, 0x64, 0x80, 0x00, 0x05,
     0x10, 0xDE, 0xAD, 0xBE, 0xEF]
    ++ [0x22])) = some
    ([w 0x1A 0x07, w 0x04 0xF7, r 0x88 0x00, w 0x08 0x00, r 0x94 0x00, w 0x14 0x80, w 0x02 0x00, w 0x12 0x26,
     w 0x02 0x0C, r 0x9A 0x07, w 0x1A 0x87, r 0x88 0x00, r 0x88 0x64, r 0x9A 0x87, w 0x1A 0x07, r 0x8C 0x00,
     r 0x94 0x02, r 0x98 0x10, r 0x92 0x04, r 0x92 0x00, w 0x1A 0x00, w 0x04 0xF7, r 0x88 0x64, w 0x08 0x64]
    ++ [r 0x94 0x00, w 0x14 0x80, w 0x02 0x00, w 0x12 0x93, w 0x12 0x20, w 0x02 0x0C, r 0x9A 0x00, w 0x1A 0x80,
     r 0x88 0x00, r 0x88 0x64, r 0x9A 0x80, w 0x1A 0x00, r 0x8C 0x00, r 0x94 0x05, r 0x98 0x10, r 0x92 0xDE,
     r 0x92 0xAD, r 0x92 0xBE, r 0x92 0xEF, r 0x92 0x22],
     [⟨.uid [0xDE, 0xAD, 0xBE, 0xEF], .eNone⟩], (false, 4, .uidPartial, false)) := by decide +kernel

/-- P2 and V44: seven bytes, as a number. -/
theorem test_read_id_cascade_number : seen .host [0x14, 0x01] (plain ([0x00, 0x00, 0x07, 0x00, 0x64, 0x87, 0x00, 0x02, 0x10, 0x44, 0x00, 0x64, 0x00, 0x00, 0x00, 0x64, 0x80, 0x00, 0x05,
     0x10, 0x88, 0x04, 0x12, 0x34]
    ++ [0xAA, 0x00, 0x00, 0x04, 0xBA, 0x90, 0x64, 0x00, 0x00, 0x00, 0x64, 0x80, 0x00, 0x03, 0x10, 0x04, 0xDA, 0x17, 0x64,
     0x00, 0x00, 0x00, 0x64, 0x80]
    ++ [0x00, 0x05, 0x10, 0x56, 0x78, 0x9A, 0xBC, 0x08])) = some
    ([w 0x1A 0x07, w 0x04 0xF7, r 0x88 0x00, w 0x08 0x00, r 0x94 0x00, w 0x14 0x80, w 0x02 0x00, w 0x12 0x26,
     w 0x02 0x0C, r 0x9A 0x07, w 0x1A 0x87, r 0x88 0x00, r 0x88 0x64, r 0x9A 0x87, w 0x1A 0x07, r 0x8C 0x00,
     r 0x94 0x02, r 0x98 0x10, r 0x92 0x44, r 0x92 0x00, w 0x1A 0x00, w 0x04 0xF7, r 0x88 0x64, w 0x08 0x64]
    ++ [r 0x94 0x00, w 0x14 0x80, w 0x02 0x00, w 0x12 0x93, w 0x12 0x20, w 0x02 0x0C, r 0x9A 0x00, w 0x1A 0x80,
     r 0x88 0x00, r 0x88 0x64, r 0x9A 0x80, w 0x1A 0x00, r 0x8C 0x00, r 0x94 0x05, r 0x98 0x10, r 0x92 0x88,
     r 0x92 0x04, r 0x92 0x12, r 0x92 0x34, r 0x92 0xAA, r 0x8A 0x00, w 0x0A 0x00, r 0x94 0x00, w 0x14 0x80]
    ++ [w 0x12 0x93, w 0x12 0x70, w 0x12 0x88, w 0x12 0x04, w 0x12 0x12, w 0x12 0x34, w 0x12 0xAA, w 0x02 0x03,
     r 0x8A 0x04, r 0xC4 0xBA, r 0xC2 0x90, w 0x04 0xF7, r 0x88 0x64, w 0x08 0x64, r 0x94 0x00, w 0x14 0x80,
     w 0x02 0x00, w 0x12 0x93, w 0x12 0x70, w 0x12 0x88, w 0x12 0x04, w 0x12 0x12, w 0x12 0x34, w 0x12 0xAA]
    ++ [w 0x12 0xBA, w 0x12 0x90, w 0x02 0x0C, r 0x9A 0x00, w 0x1A 0x80, r 0x88 0x00, r 0x88 0x64, r 0x9A 0x80,
     w 0x1A 0x00, r 0x8C 0x00, r 0x94 0x03, r 0x98 0x10, r 0x92 0x04, r 0x92 0xDA, r 0x92 0x17, w 0x1A 0x00,
     w 0x04 0xF7, r 0x88 0x64, w 0x08 0x64, r 0x94 0x00, w 0x14 0x80, w 0x02 0x00, w 0x12 0x95, w 0x12 0x20]
    ++ [w 0x02 0x0C, r 0x9A 0x00, w 0x1A 0x80, r 0x88 0x00, r 0x88 0x64, r 0x9A 0x80, w 0x1A 0x00, r 0x8C 0x00,
     r 0x94 0x05, r 0x98 0x10, r 0x92 0x56, r 0x92 0x78, r 0x92 0x9A, r 0x92 0xBC, r 0x92 0x08],
     [⟨.number 7 0x04123456789ABC, .eNone⟩], (false, 4, .uidPartial, false)) := by decide +kernel

/-- V50. -/
theorem test_card_auth : seen .host [0x20, 0x60, 0x04, 0xFF, 0xFF, 0xFF, 0xFF, 0xFF, 0xFF, 0xDE, 0xAD, 0xBE, 0xEF] (selected [0x00, 0x00, 0x00, 0x10, 0x00, 0x00, 0x08]) = some
    ([w 0x04 0x92, r 0x88 0x00, w 0x08 0x00, r 0x94 0x00, w 0x14 0x80, w 0x02 0x00, w 0x12 0x60, w 0x12 0x04,
     w 0x12 0xFF, w 0x12 0xFF, w 0x12 0xFF, w 0x12 0xFF, w 0x12 0xFF, w 0x12 0xFF, w 0x12 0xDE, w 0x12 0xAD,
     w 0x12 0xBE, w 0x12 0xEF, w 0x02 0x0E, r 0x88 0x00, r 0x88 0x10, r 0x9A 0x00, w 0x1A 0x00, r 0x8C 0x00]
    ++ [r 0x90 0x08],
     [⟨.flag false, .eNone⟩], (true, 4, .authenticated, false)) := by decide +kernel

/-- V50a. -/
theorem test_card_auth_no_crypto : seen .host [0x20, 0x61, 0x04, 0xFF, 0xFF, 0xFF, 0xFF, 0xFF, 0xFF, 0xDE, 0xAD, 0xBE, 0xEF] (selected [0x00, 0x00, 0x00, 0x10, 0x00, 0x00, 0x00]) = some
    ([w 0x04 0x92, r 0x88 0x00, w 0x08 0x00, r 0x94 0x00, w 0x14 0x80, w 0x02 0x00, w 0x12 0x61, w 0x12 0x04,
     w 0x12 0xFF, w 0x12 0xFF, w 0x12 0xFF, w 0x12 0xFF, w 0x12 0xFF, w 0x12 0xFF, w 0x12 0xDE, w 0x12 0xAD,
     w 0x12 0xBE, w 0x12 0xEF, w 0x02 0x0E, r 0x88 0x00, r 0x88 0x10, r 0x9A 0x00, w 0x1A 0x00, r 0x8C 0x00]
    ++ [r 0x90 0x00],
     [⟨.flag true, .eNoCrypto⟩], (false, 4, .selected, false)) := by decide +kernel

/-- V51. -/
theorem test_read : seen .host [0x21, 0x04] (authenticated ([0x00, 0x00, 0x04, 0x26, 0xEE, 0x00, 0x00, 0x00, 0x00, 0x64, 0x80, 0x00, 0x12, 0x10, 0x00, 0x01, 0x02, 0x03, 0x04,
     0x05, 0x06, 0x07, 0x08, 0x09]
    ++ [0x0A, 0x0B, 0x0C, 0x0D, 0x0E, 0x0F])) = some
    ([r 0x8A 0x00, w 0x0A 0x00, r 0x94 0x00, w 0x14 0x80, w 0x12 0x30, w 0x12 0x04, w 0x02 0x03, r 0x8A 0x04,
     r 0xC4 0x26, r 0xC2 0xEE, w 0x04 0xF7, r 0x88 0x00, w 0x08 0x00, r 0x94 0x00, w 0x14 0x80, w 0x02 0x00,
     w 0x12 0x30, w 0x12 0x04, w 0x12 0x26, w 0x12 0xEE, w 0x02 0x0C, r 0x9A 0x00, w 0x1A 0x80, r 0x88 0x00]
    ++ [r 0x88 0x64, r 0x9A 0x80, w 0x1A 0x00, r 0x8C 0x00, r 0x94 0x12, r 0x98 0x10, r 0x92 0x00, r 0x92 0x01,
     r 0x92 0x02, r 0x92 0x03, r 0x92 0x04, r 0x92 0x05, r 0x92 0x06, r 0x92 0x07, r 0x92 0x08, r 0x92 0x09,
     r 0x92 0x0A, r 0x92 0x0B, r 0x92 0x0C, r 0x92 0x0D, r 0x92 0x0E, r 0x92 0x0F],
     [⟨.bytes false [0x00, 0x01, 0x02, 0x03, 0x04, 0x05, 0x06, 0x07, 0x08, 0x09, 0x0A, 0x0B, 0x0C, 0x0D, 0x0E, 0x0F], .eNone⟩], (true, 4, .authenticated, false)) := by decide +kernel

/-- V52. -/
theorem test_write : seen .host [0x22, 0x04, 0xA0, 0xA1, 0xA2, 0xA3, 0xA4, 0xA5, 0xA6, 0xA7, 0xA8, 0xA9, 0xAA, 0xAB, 0xAC, 0xAD, 0xAE, 0xAF] (authenticated ([0x00, 0x00, 0x04, 0x7B, 0xF7, 0x00, 0x00, 0x00, 0x00, 0x64, 0x80, 0x00, 0x01, 0x14, 0x0A, 0x04, 0x00, 0x04, 0x75,
     0x25, 0x64, 0x00, 0x00, 0x00]
    ++ [0x64, 0x80, 0x00, 0x01, 0x14, 0x0A])) = some
    ([r 0x8A 0x00, w 0x0A 0x00, r 0x94 0x00, w 0x14 0x80, w 0x12 0xA0, w 0x12 0x04, w 0x02 0x03, r 0x8A 0x04,
     r 0xC4 0x7B, r 0xC2 0xF7, w 0x04 0xF7, r 0x88 0x00, w 0x08 0x00, r 0x94 0x00, w 0x14 0x80, w 0x02 0x00,
     w 0x12 0xA0, w 0x12 0x04, w 0x12 0x7B, w 0x12 0xF7, w 0x02 0x0C, r 0x9A 0x00, w 0x1A 0x80, r 0x88 0x00]
    ++ [r 0x88 0x64, r 0x9A 0x80, w 0x1A 0x00, r 0x8C 0x00, r 0x94 0x01, r 0x98 0x14, r 0x92 0x0A, r 0x8A 0x04,
     w 0x0A 0x00, r 0x94 0x00, w 0x14 0x80, w 0x12 0xA0, w 0x12 0xA1, w 0x12 0xA2, w 0x12 0xA3, w 0x12 0xA4,
     w 0x12 0xA5, w 0x12 0xA6, w 0x12 0xA7, w 0x12 0xA8, w 0x12 0xA9, w 0x12 0xAA, w 0x12 0xAB, w 0x12 0xAC]
    ++ [w 0x12 0xAD, w 0x12 0xAE, w 0x12 0xAF, w 0x02 0x03, r 0x8A 0x04, r 0xC4 0x75, r 0xC2 0x25, w 0x04 0xF7,
     r 0x88 0x64, w 0x08 0x64, r 0x94 0x00, w 0x14 0x80, w 0x02 0x00, w 0x12 0xA0, w 0x12 0xA1, w 0x12 0xA2,
     w 0x12 0xA3, w 0x12 0xA4, w 0x12 0xA5, w 0x12 0xA6, w 0x12 0xA7, w 0x12 0xA8, w 0x12 0xA9, w 0x12 0xAA]
    ++ [w 0x12 0xAB, w 0x12 0xAC, w 0x12 0xAD, w 0x12 0xAE, w 0x12 0xAF, w 0x12 0x75, w 0x12 0x25, w 0x02 0x0C,
     r 0x9A 0x00, w 0x1A 0x80, r 0x88 0x00, r 0x88 0x64, r 0x9A 0x80, w 0x1A 0x00, r 0x8C 0x00, r 0x94 0x01,
     r 0x98 0x14, r 0x92 0x0A],
     [⟨.flag false, .eNone⟩], (true, 4, .authenticated, false)) := by decide +kernel

/-- V53. -/
theorem test_write_refused : seen .host [0x22, 0x04, 0xA0, 0xA1, 0xA2, 0xA3, 0xA4, 0xA5, 0xA6, 0xA7, 0xA8, 0xA9, 0xAA, 0xAB, 0xAC, 0xAD, 0xAE, 0xAF] (authenticated [0x00, 0x00, 0x04, 0x7B, 0xF7, 0x00, 0x00, 0x00, 0x00, 0x64, 0x80, 0x00, 0x01, 0x14, 0x04]) = some
    ([r 0x8A 0x00, w 0x0A 0x00, r 0x94 0x00, w 0x14 0x80, w 0x12 0xA0, w 0x12 0x04, w 0x02 0x03, r 0x8A 0x04,
     r 0xC4 0x7B, r 0xC2 0xF7, w 0x04 0xF7, r 0x88 0x00, w 0x08 0x00, r 0x94 0x00, w 0x14 0x80, w 0x02 0x00,
     w 0x12 0xA0, w 0x12 0x04, w 0x12 0x7B, w 0x12 0xF7, w 0x02 0x0C, r 0x9A 0x00, w 0x1A 0x80, r 0x88 0x00]
    ++ [r 0x88 0x64, r 0x9A 0x80, w 0x1A 0x00, r 0x8C 0x00, r 0x94 0x01, r 0x98 0x14, r 0x92 0x04],
     [⟨.flag true, .eAck⟩], (true, 4, .authenticated, false)) := by decide +kernel

/-- V54. -/
theorem test_halt : seen .host [0x23] (authenticated [0x00, 0x00, 0x04, 0x57, 0xCD, 0x08, 0x00, 0x00, 0x00, 0x00, 0x45, 0x80, 0x00, 0x00, 0x10]) = some
    ([r 0x8A 0x00, w 0x0A 0x00, r 0x94 0x00, w 0x14 0x80, w 0x12 0x50, w 0x12 0x00, w 0x02 0x03, r 0x8A 0x04,
     r 0xC4 0x57, r 0xC2 0xCD, r 0x90 0x08, w 0x10 0x00, w 0x04 0xF7, r 0x88 0x00, w 0x08 0x00, r 0x94 0x00,
     w 0x14 0x80, w 0x02 0x00, w 0x12 0x50, w 0x12 0x00, w 0x12 0x57, w 0x12 0xCD, w 0x02 0x0C, r 0x9A 0x00]
    ++ [w 0x1A 0x80, r 0x88 0x00, r 0x88 0x45, r 0x9A 0x80, w 0x1A 0x00, r 0x8C 0x00, .logE1, r 0x94 0x00, r 0x98 0x10],
     [⟨.done, .eNone⟩], (false, 4, .halted, false)) := by decide +kernel

/-- V55. -/
theorem test_stop_crypto : seen .host [0x24] (authenticated [0x09]) = some
    ([r 0x90 0x09, w 0x10 0x01],
     [⟨.done, .eNone⟩], (false, 4, .selected, false)) := by decide +kernel

/-- V60, with the gain of reset (V65e). -/
theorem test_init : seen .host [0x31] (plain [0x80]) = some
    ([w 0x02 0x0F, w 0x54 0x8D, w 0x56 0x3E, w 0x5A 0x1E, w 0x58 0x00, w 0x2A 0x40, w 0x22 0x3D, w 0x4C 0x40,
     r 0xA8 0x80, w 0x28 0x83],
     [⟨.done, .eNone⟩], (false, 4, .idle, false)) := by decide +kernel

/-- V62. -/
theorem test_set_antenna_gain : seen .host [0x30, 0x03] (plain []) = some
    ([w 0x4C 0x30],
     [⟨.done, .eNone⟩], (false, 3, .idle, false)) := by decide +kernel

/-- V62b. -/
theorem test_set_antenna_gain_negative : seen .host [0x30, 0xFF] (plain []) = some
    ([],
     [⟨.rejected, .gainRange⟩], (false, 4, .idle, false)) := by decide +kernel

/-- V63. -/
theorem test_cleanup : seen .host [0x32] (authenticated [0x08]) = some
    ([r 0x90 0x08, w 0x10 0x00],
     [⟨.done, .eNone⟩], (false, 4, .selected, false)) := by decide +kernel

/-- V63a. -/
theorem test_cleanup_idle : seen .host [0x32] (plain []) = some
    ([],
     [⟨.done, .eNone⟩], (false, 4, .idle, false)) := by decide +kernel

/-- V64. -/
theorem test_wait_for_tag_no_line : seen .host [0x33, 0x00, 0x05] (plain []) = some
    ([],
     [⟨.rejected, .noInterruptLine⟩], (false, 4, .idle, false)) := by decide +kernel

/-- V61: the line fires in the second slice. -/
theorem test_wait_for_tag : seen .host [0x33, 0x00, 0x02] (waits [⟨false, false⟩, ⟨false, true⟩] [0x80, 0x80, 0x80, 0x80]) = some
    ([w 0x02 0x0F, w 0x54 0x8D, w 0x56 0x3E, w 0x5A 0x1E, w 0x58 0x00, w 0x2A 0x40, w 0x22 0x3D, w 0x4C 0x30,
     r 0xA8 0x80, w 0x28 0x83, .signalClear, w 0x08 0x00, w 0x04 0xA0, w 0x02 0x0F, w 0x54 0x8D, w 0x56 0x3E,
     w 0x5A 0x1E, w 0x58 0x00, w 0x2A 0x40, w 0x22 0x3D, w 0x4C 0x30, r 0xA8 0x80, w 0x28 0x83, w 0x12 0x26]
    ++ [w 0x02 0x0C, w 0x1A 0x87, .signalWait false, w 0x02 0x0F, w 0x54 0x8D, w 0x56 0x3E, w 0x5A 0x1E, w 0x58 0x00,
     w 0x2A 0x40, w 0x22 0x3D, w 0x4C 0x30, r 0xA8 0x80, w 0x28 0x83, w 0x12 0x26, w 0x02 0x0C, w 0x1A 0x87,
     .signalWait true, w 0x02 0x0F, w 0x54 0x8D, w 0x56 0x3E, w 0x5A 0x1E, w 0x58 0x00, w 0x2A 0x40, w 0x22 0x3D]
    ++ [w 0x4C 0x30, r 0xA8 0x80, w 0x28 0x83],
     [⟨.fired true, .eNone⟩], (false, 3, .idle, true)) := by decide +kernel

/-- V61a: the deadline is true at the top of the third pass. -/
theorem test_wait_for_tag_times_out : seen .host [0x33, 0x00, 0x02] (waits [⟨false, false⟩, ⟨false, false⟩, ⟨true, false⟩] [0x80, 0x80, 0x80, 0x80]) = some
    ([w 0x02 0x0F, w 0x54 0x8D, w 0x56 0x3E, w 0x5A 0x1E, w 0x58 0x00, w 0x2A 0x40, w 0x22 0x3D, w 0x4C 0x30,
     r 0xA8 0x80, w 0x28 0x83, .signalClear, w 0x08 0x00, w 0x04 0xA0, w 0x02 0x0F, w 0x54 0x8D, w 0x56 0x3E,
     w 0x5A 0x1E, w 0x58 0x00, w 0x2A 0x40, w 0x22 0x3D, w 0x4C 0x30, r 0xA8 0x80, w 0x28 0x83, w 0x12 0x26]
    ++ [w 0x02 0x0C, w 0x1A 0x87, .signalWait false, w 0x02 0x0F, w 0x54 0x8D, w 0x56 0x3E, w 0x5A 0x1E, w 0x58 0x00,
     w 0x2A 0x40, w 0x22 0x3D, w 0x4C 0x30, r 0xA8 0x80, w 0x28 0x83, w 0x12 0x26, w 0x02 0x0C, w 0x1A 0x87,
     .signalWait false, w 0x02 0x0F, w 0x54 0x8D, w 0x56 0x3E, w 0x5A 0x1E, w 0x58 0x00, w 0x2A 0x40, w 0x22 0x3D]
    ++ [w 0x4C 0x30, r 0xA8 0x80, w 0x28 0x83],
     [⟨.fired false, .eNone⟩], (false, 3, .idle, false)) := by decide +kernel

/-- The frame of V10. -/
theorem test_bus_write_frame : seen .bus [0x4C, 0x30] (plain []) = some
    ([w 0x4C 0x30],
     [⟨.done, .eNone⟩], (false, 4, .idle, false)) := by decide +kernel

/-- The frame of V11. -/
theorem test_bus_read_frame : seen .bus [0x90, 0x00] (plain [0x09]) = some
    ([r 0x90 0x09],
     [⟨.value 0x09, .eNone⟩], (false, 4, .idle, false)) := by decide +kernel

/-- The frame of V40, by itself: the same traffic, no procedure state. -/
theorem test_tag_request : seen .tag [0x26] (plain [0x00, 0x00, 0x07, 0x00, 0x64, 0x87, 0x00, 0x02, 0x10, 0x04, 0x00]) = some
    ([w 0x1A 0x07, w 0x04 0xF7, r 0x88 0x00, w 0x08 0x00, r 0x94 0x00, w 0x14 0x80, w 0x02 0x00, w 0x12 0x26,
     w 0x02 0x0C, r 0x9A 0x07, w 0x1A 0x87, r 0x88 0x00, r 0x88 0x64, r 0x9A 0x87, w 0x1A 0x07, r 0x8C 0x00,
     r 0x94 0x02, r 0x98 0x10, r 0x92 0x04, r 0x92 0x00],
     [⟨.executed false [0x04, 0x00] 16, .eNone⟩], (false, 4, .idle, false)) := by decide +kernel

/-- The frame of V41b. -/
theorem test_tag_anticoll_1 : seen .tag [0x93, 0x20] (plain [0x00, 0x00, 0x00, 0x00, 0x64, 0x80, 0x00, 0x05, 0x10, 0xDE, 0xAD, 0xBE, 0xEF, 0x23]) = some
    ([w 0x1A 0x00, w 0x04 0xF7, r 0x88 0x00, w 0x08 0x00, r 0x94 0x00, w 0x14 0x80, w 0x02 0x00, w 0x12 0x93,
     w 0x12 0x20, w 0x02 0x0C, r 0x9A 0x00, w 0x1A 0x80, r 0x88 0x00, r 0x88 0x64, r 0x9A 0x80, w 0x1A 0x00,
     r 0x8C 0x00, r 0x94 0x05, r 0x98 0x10, r 0x92 0xDE, r 0x92 0xAD, r 0x92 0xBE, r 0x92 0xEF, r 0x92 0x23],
     [⟨.executed true [0xDE, 0xAD, 0xBE, 0xEF, 0x23] 40, .eChecksum⟩], (false, 4, .idle, false)) := by decide +kernel

/-- The frame of V43. -/
theorem test_tag_anticoll_2 : seen .tag [0x95, 0x20] (plain [0x00, 0x00, 0x00, 0x00, 0x64, 0x80, 0x00, 0x05, 0x10, 0x56, 0x78, 0x9A, 0xBC, 0x08]) = some
    ([w 0x1A 0x00, w 0x04 0xF7, r 0x88 0x00, w 0x08 0x00, r 0x94 0x00, w 0x14 0x80, w 0x02 0x00, w 0x12 0x95,
     w 0x12 0x20, w 0x02 0x0C, r 0x9A 0x00, w 0x1A 0x80, r 0x88 0x00, r 0x88 0x64, r 0x9A 0x80, w 0x1A 0x00,
     r 0x8C 0x00, r 0x94 0x05, r 0x98 0x10, r 0x92 0x56, r 0x92 0x78, r 0x92 0x9A, r 0x92 0xBC, r 0x92 0x08],
     [⟨.executed false [0x56, 0x78, 0x9A, 0xBC, 0x08] 40, .eNone⟩], (false, 4, .idle, false)) := by decide +kernel

/-- The frame of V42, its checksum given. -/
theorem test_tag_select : seen .tag [0x93, 0x70, 0xDE, 0xAD, 0xBE, 0xEF, 0x22, 0xB9, 0x9C] (plain [0x00, 0x00, 0x00, 0x00, 0x64, 0x80, 0x00, 0x03, 0x10, 0x08, 0xB6, 0xDD]) = some
    ([w 0x04 0xF7, r 0x88 0x00, w 0x08 0x00, r 0x94 0x00, w 0x14 0x80, w 0x02 0x00, w 0x12 0x93, w 0x12 0x70,
     w 0x12 0xDE, w 0x12 0xAD, w 0x12 0xBE, w 0x12 0xEF, w 0x12 0x22, w 0x12 0xB9, w 0x12 0x9C, w 0x02 0x0C,
     r 0x9A 0x00, w 0x1A 0x80, r 0x88 0x00, r 0x88 0x64, r 0x9A 0x80, w 0x1A 0x00, r 0x8C 0x00, r 0x94 0x03]
    ++ [r 0x98 0x10, r 0x92 0x08, r 0x92 0xB6, r 0x92 0xDD],
     [⟨.executed false [0x08, 0xB6, 0xDD] 24, .eNone⟩], (false, 4, .idle, false)) := by decide +kernel

/-- The frame of V50. -/
theorem test_tag_auth_a : seen .tag [0x60, 0x04, 0xFF, 0xFF, 0xFF, 0xFF, 0xFF, 0xFF, 0xDE, 0xAD, 0xBE, 0xEF] (plain [0x00, 0x00, 0x00, 0x10, 0x00, 0x00, 0x08]) = some
    ([w 0x04 0x92, r 0x88 0x00, w 0x08 0x00, r 0x94 0x00, w 0x14 0x80, w 0x02 0x00, w 0x12 0x60, w 0x12 0x04,
     w 0x12 0xFF, w 0x12 0xFF, w 0x12 0xFF, w 0x12 0xFF, w 0x12 0xFF, w 0x12 0xFF, w 0x12 0xDE, w 0x12 0xAD,
     w 0x12 0xBE, w 0x12 0xEF, w 0x02 0x0E, r 0x88 0x00, r 0x88 0x10, r 0x9A 0x00, w 0x1A 0x00, r 0x8C 0x00]
    ++ [r 0x90 0x08],
     [⟨.executed false [] 0, .eNone⟩], (false, 4, .idle, false)) := by decide +kernel

/-- The frame of V50a. -/
theorem test_tag_auth_b : seen .tag [0x61, 0x04, 0xFF, 0xFF, 0xFF, 0xFF, 0xFF, 0xFF, 0xDE, 0xAD, 0xBE, 0xEF] (plain [0x00, 0x00, 0x00, 0x10, 0x00, 0x00, 0x00]) = some
    ([w 0x04 0x92, r 0x88 0x00, w 0x08 0x00, r 0x94 0x00, w 0x14 0x80, w 0x02 0x00, w 0x12 0x61, w 0x12 0x04,
     w 0x12 0xFF, w 0x12 0xFF, w 0x12 0xFF, w 0x12 0xFF, w 0x12 0xFF, w 0x12 0xFF, w 0x12 0xDE, w 0x12 0xAD,
     w 0x12 0xBE, w 0x12 0xEF, w 0x02 0x0E, r 0x88 0x00, r 0x88 0x10, r 0x9A 0x00, w 0x1A 0x00, r 0x8C 0x00]
    ++ [r 0x90 0x00],
     [⟨.executed true [] 0, .eNoCrypto⟩], (false, 4, .idle, false)) := by decide +kernel

/-- The frame of V51. -/
theorem test_tag_read : seen .tag [0x30, 0x04, 0x26, 0xEE] (plain ([0x00, 0x00, 0x00, 0x00, 0x64, 0x80, 0x00, 0x12, 0x10, 0x00, 0x01, 0x02, 0x03, 0x04, 0x05, 0x06, 0x07, 0x08, 0x09,
     0x0A, 0x0B, 0x0C, 0x0D, 0x0E]
    ++ [0x0F])) = some
    ([w 0x04 0xF7, r 0x88 0x00, w 0x08 0x00, r 0x94 0x00, w 0x14 0x80, w 0x02 0x00, w 0x12 0x30, w 0x12 0x04,
     w 0x12 0x26, w 0x12 0xEE, w 0x02 0x0C, r 0x9A 0x00, w 0x1A 0x80, r 0x88 0x00, r 0x88 0x64, r 0x9A 0x80,
     w 0x1A 0x00, r 0x8C 0x00, r 0x94 0x12, r 0x98 0x10, r 0x92 0x00, r 0x92 0x01, r 0x92 0x02, r 0x92 0x03]
    ++ [r 0x92 0x04, r 0x92 0x05, r 0x92 0x06, r 0x92 0x07, r 0x92 0x08, r 0x92 0x09, r 0x92 0x0A, r 0x92 0x0B,
     r 0x92 0x0C, r 0x92 0x0D, r 0x92 0x0E, r 0x92 0x0F],
     [⟨.executed false [0x00, 0x01, 0x02, 0x03, 0x04, 0x05, 0x06, 0x07, 0x08, 0x09, 0x0A, 0x0B, 0x0C, 0x0D, 0x0E, 0x0F] 144, .eNone⟩], (false, 4, .idle, false)) := by decide +kernel

/-- The frame of V53. -/
theorem test_tag_write_phase1 : seen .tag [0xA0, 0x04, 0x7B, 0xF7] (plain [0x00, 0x00, 0x00, 0x00, 0x64, 0x80, 0x00, 0x01, 0x14, 0x04]) = some
    ([w 0x04 0xF7, r 0x88 0x00, w 0x08 0x00, r 0x94 0x00, w 0x14 0x80, w 0x02 0x00, w 0x12 0xA0, w 0x12 0x04,
     w 0x12 0x7B, w 0x12 0xF7, w 0x02 0x0C, r 0x9A 0x00, w 0x1A 0x80, r 0x88 0x00, r 0x88 0x64, r 0x9A 0x80,
     w 0x1A 0x00, r 0x8C 0x00, r 0x94 0x01, r 0x98 0x14, r 0x92 0x04],
     [⟨.executed true [0x04] 4, .eAck⟩], (false, 4, .idle, false)) := by decide +kernel

/-- The second frame of V52. -/
theorem test_tag_write_phase2 : seen .tag [0xA0, 0xA1, 0xA2, 0xA3, 0xA4, 0xA5, 0xA6, 0xA7, 0xA8, 0xA9, 0xAA, 0xAB, 0xAC, 0xAD, 0xAE, 0xAF, 0x75, 0x25] (plain [0x64, 0x00, 0x00, 0x00, 0x64, 0x80, 0x00, 0x01, 0x14, 0x0A]) = some
    ([w 0x04 0xF7, r 0x88 0x64, w 0x08 0x64, r 0x94 0x00, w 0x14 0x80, w 0x02 0x00, w 0x12 0xA0, w 0x12 0xA1,
     w 0x12 0xA2, w 0x12 0xA3, w 0x12 0xA4, w 0x12 0xA5, w 0x12 0xA6, w 0x12 0xA7, w 0x12 0xA8, w 0x12 0xA9,
     w 0x12 0xAA, w 0x12 0xAB, w 0x12 0xAC, w 0x12 0xAD, w 0x12 0xAE, w 0x12 0xAF, w 0x12 0x75, w 0x12 0x25]
    ++ [w 0x02 0x0C, r 0x9A 0x00, w 0x1A 0x80, r 0x88 0x00, r 0x88 0x64, r 0x9A 0x80, w 0x1A 0x00, r 0x8C 0x00,
     r 0x94 0x01, r 0x98 0x14, r 0x92 0x0A],
     [⟨.executed false [0x0A] 4, .eNone⟩], (false, 4, .idle, false)) := by decide +kernel

/-- The frame of V54: the answer is ignored. -/
theorem test_tag_halt : seen .tag [0x50, 0x00, 0x57, 0xCD] (plain [0x00, 0x00, 0x00, 0x00, 0x45, 0x80, 0x00, 0x00, 0x10]) = some
    ([w 0x04 0xF7, r 0x88 0x00, w 0x08 0x00, r 0x94 0x00, w 0x14 0x80, w 0x02 0x00, w 0x12 0x50, w 0x12 0x00,
     w 0x12 0x57, w 0x12 0xCD, w 0x02 0x0C, r 0x9A 0x00, w 0x1A 0x80, r 0x88 0x00, r 0x88 0x45, r 0x9A 0x80,
     w 0x1A 0x00, r 0x8C 0x00, .logE1, r 0x94 0x00, r 0x98 0x10],
     [⟨.done, .eNone⟩], (false, 4, .idle, false)) := by decide +kernel

/-- R31: one write of the code. -/
theorem test_cmd_idle : seen .chip [0x00] (plain []) = some
    ([w 0x02 0x00],
     [⟨.done, .eNone⟩], (false, 4, .idle, false)) := by decide +kernel

/-- R31: one write of the code. -/
theorem test_cmd_calc_crc : seen .chip [0x03] (plain []) = some
    ([w 0x02 0x03],
     [⟨.done, .eNone⟩], (false, 4, .idle, false)) := by decide +kernel

/-- R31: one write of the code. -/
theorem test_cmd_transceive : seen .chip [0x0C] (plain []) = some
    ([w 0x02 0x0C],
     [⟨.done, .eNone⟩], (false, 4, .idle, false)) := by decide +kernel

/-- R31: one write of the code. -/
theorem test_cmd_authent : seen .chip [0x0E] (plain []) = some
    ([w 0x02 0x0E],
     [⟨.done, .eNone⟩], (false, 4, .idle, false)) := by decide +kernel

/-- R31: one write of the code. -/
theorem test_cmd_soft_reset : seen .chip [0x0F] (plain []) = some
    ([w 0x02 0x0F],
     [⟨.done, .eNone⟩], (false, 4, .idle, false)) := by decide +kernel

/-- R208: the deadline of a running wait with no pass left before it has passed, and nothing but the last INIT follows; with `timeout = 0` it
is not asked. -/
theorem test_wait_deadline :
    (match step { waits [] [0x80] with waiting := some ⟨2, 0⟩ } with
      | .next t => decide (t.results = [⟨.fired false, .eNone⟩] ∧ t.waiting = none ∧ transactions t.trace = 10)
      | _ => false) = true ∧
    (match step { waits [⟨true, true⟩] [] with waiting := some ⟨0, 0⟩ } with
      | .next t => decide (t.results = [⟨.fired true, .eNone⟩] ∧ t.waiting = none)
      | _ => false) = true := by decide +kernel

/-! ### Witnesses

For every statement with hypotheses, a state and operands that meet all of them together, at boundary values where there are some. -/

theorem witness_DecodeOfEncodeIsTheOperation : Instr.wellFormed .cmdSoftReset = true ∧
    [Config.mfrc522.cmdIdle, Config.mfrc522.cmdCalcCrc, Config.mfrc522.cmdTransceive, Config.mfrc522.cmdAuthent,
      Config.mfrc522.cmdSoftReset].Nodup ∧ Instr.wellFormed (.computeCrc (List.replicate 255 0)) = true ∧
    Instr.wellFormed (.cardWrite 0 (List.replicate 255 0)) = true := by decide +kernel

theorem witness_EncodeOfDecodeIsTheWord : decode Config.mfrc522 ⟨.host, [0x20, 0x60, 4, 1, 2, 3, 4, 5, 6, 7, 8, 9, 10]⟩ =
    .ok (.cardAuth 0x60 4 [1, 2, 3, 4, 5, 6] [7, 8, 9, 10]) := by decide

/-- Each range of codes at its ends, a word cut short, and a state with such a word. -/
theorem witness_WordsOutsideTheTableAreRejected :
    (∀ n ∈ [0x00, 0x07, 0x0F, 0x15, 0x1F, 0x25, 0x2F, 0x34, 0xFF],
      decode Config.mfrc522 ⟨.host, [BitVec.ofNat 8 n]⟩ = .error .unknownOp) ∧
    ([0x05, 0x01] <+: (encode Config.mfrc522 (.computeCrc [0xAA])).bytes ∧
      [0x05, 0x01] ≠ (encode Config.mfrc522 (.computeCrc [0xAA])).bytes) ∧
    ((State.reset.withFetchWord 8 0x00).waiting = none ∧
      (placeWord ⟨.host, [0x07]⟩ State.reset).port = [⟨.host, [0x07]⟩] ∧
      decode Config.mfrc522 ⟨.host, [0x07]⟩ = .error .unknownOp) := by decide +kernel

theorem witness_StepRunsTheDecodedOperation : (placeWord ⟨.host, [0x31]⟩ State.reset).waiting = none ∧
    (placeWord ⟨.host, [0x31]⟩ State.reset).port = ⟨.host, [0x31]⟩ :: [] ∧
    decode (placeWord ⟨.host, [0x31]⟩ State.reset).cfg ⟨.host, [0x31]⟩ = .ok .init := by decide +kernel

theorem witness_StepWithoutAWord : (State.reset.waiting = none ∧ State.reset.port = []) ∧
    ({ State.reset with waiting := some ⟨5, 2⟩ } : State).waiting = some ⟨5, 2⟩ := by decide +kernel

theorem witness_LineEdgeSetsTheSignal : (plain []).irqPresent = false ∧ State.reset.irqPresent = true ∧
    (waits [] []).env.edges = [false] := by decide +kernel

theorem witness_AddressesAbove3FAlias : (0x26 : Byte) ∈ addressRoles Config.mfrc522 ∧ location 0xFF = 63 ∧ location 0x40 = 0 := by
  decide

theorem witness_ResponseBitLength : (7 : Byte) ≠ 0 ∧ (7 : Byte).toNat ≤ 7 ∧ responseBits 0xFF 7 = 2039 ∧ responseBits 0 1 = -7 ∧
    responseBits 0xFF 0 = 2040 := by decide

theorem witness_NumberFieldHoldsTheUid : [0x04#8, 0x12, 0x34, 0x56, 0x78, 0x9A, 0xBC].length ≤ 7 ∧ ([] : List Byte).length ≤ 7 := by
  decide

theorem witness_ComputeCrcFollowsItsSteps : (List.replicate 255 (0xAA : Byte)).length ≤ 255 := by decide +kernel

theorem witness_CardWriteFollowsItsSteps : (List.replicate 255 (0xAA : Byte)).length ≤ 255 := by decide +kernel

/-- A chip that answers 0x00 to every read. -/
theorem witness_ExhaustedPollIsATimeout : 2004 ≤ (plain (List.replicate 2004 0x00)).env.chip.length ∧
    ∀ b ∈ (plain (List.replicate 2004 0x00)).env.chip, endsPoll Config.mfrc522 0x0C b = false := by
  refine ⟨?_, fun b hb => ?_⟩
  · show 2004 ≤ (List.replicate 2004 (0x00 : Byte)).length
    rw [List.length_replicate]
  have h : b ∈ List.replicate 2004 (0x00 : Byte) := hb
  rw [List.eq_of_mem_replicate h]
  decide

theorem witness_CardAuthFollowsItsSteps : [1#8, 2, 3, 4, 5, 6].length = 6 ∧ [1#8, 2, 3, 4].length = 4 := by decide

theorem witness_WriteFollowsItsSteps : (List.replicate 16 (0x11 : Byte)).length = 16 := by decide

theorem witness_SetAntennaGainStoresAndWrites : (7 : Byte).toNat ≤ 7 ∧ (0 : Byte).toNat ≤ 7 := by decide

theorem witness_ConfigurationErrorsReject :
    ({ SessionParams.usual with rstCfg := none } : SessionParams).rstCfg = none ∧
    (SessionParams.usual.rstCfg ≠ none ∧ ({ SessionParams.usual with pinModeOk := false } : SessionParams).pinModeOk = false) ∧
    (SessionParams.usual.pinModeOk = true ∧ (-1 : Int) < 0 ∧ (7 : Int) < 8) ∧
    ((0xFF : Byte).toInt < 0 ∧ 7 < (0x08 : Byte).toInt) := by decide

theorem witness_CleanupDeauthenticatesOnce : (authenticated []).authed = true ∧ (plain []).authed = false ∧
    ∃ t, exec .cleanup (authenticated [0x08]) = .next t := ⟨rfl, rfl, _, rfl⟩

theorem witness_WaitForTagNeedsTheLine : (plain []).irqPresent = false ∧ (∀ timeout, Instr.init ≠ .waitForTag timeout) ∧
    ∃ t, exec .init (plain []) = .next t := ⟨rfl, fun _ h => (nomatch h), _, rfl⟩

theorem witness_InitRunsItsList : ∃ s, construct SessionParams.usual Env.free = .session s := ⟨_, rfl⟩

/-- A quiet pass, then the edge; the deadline not asked, and asked and not passed. -/
theorem witness_WaitForTagFires : (waits [⟨false, false⟩, ⟨false, true⟩] []).irqPresent = true ∧
    (waits [⟨false, false⟩, ⟨false, true⟩] []).env.slices = [⟨false, false⟩] ++ ⟨false, true⟩ :: [] ∧
    (quiet 0 ⟨true, false⟩ ∧ quiet 2 ⟨false, false⟩) := by
  refine ⟨rfl, rfl, ⟨.inl rfl, rfl⟩, .inr rfl, rfl⟩

theorem witness_WaitForTagTimesOut : (waits [⟨true, false⟩] []).irqPresent = true ∧
    (waits [⟨true, false⟩] []).env.slices = [] ++ ⟨true, false⟩ :: [] ∧ (1 : BitVec 16) ≠ 0 := by decide +kernel

theorem witness_WaitForTagGoesOn : (waits [⟨false, false⟩] []).irqPresent = true ∧
    ∀ x ∈ (waits [⟨false, false⟩] []).env.slices, quiet 1 x := by
  refine ⟨rfl, fun x hx => ?_⟩
  rw [List.mem_singleton.1 hx]
  exact ⟨.inr rfl, rfl⟩

/-- Running waits: a quiet pass and then the deadline, a quiet pass and then the edge, two quiet passes, an edge that came before, and no
script with the deadline next. -/
theorem witness_RunningWaitMakesAPass :
    ({ waits [⟨false, false⟩, ⟨true, false⟩] [] with waiting := some ⟨1, 0⟩ } : State).waiting = some ⟨1, 0⟩ ∧
    ((waits [⟨false, false⟩, ⟨true, false⟩] []).env.slices = [⟨false, false⟩] ++ ⟨true, false⟩ :: [] ∧
      (sampleLine (waits [⟨false, false⟩, ⟨true, false⟩] [])).signal = false) ∧
    ((waits [⟨false, false⟩, ⟨false, true⟩] []).env.slices = [⟨false, false⟩] ++ ⟨false, true⟩ :: [] ∧
      ((sampleLine (waits [⟨false, false⟩, ⟨false, true⟩] [])).signal || true) = true) ∧
    (waits [⟨false, false⟩, ⟨false, false⟩] []).env.slices ≠ [] ∧
    ((sampleLine { waits [⟨false, false⟩] [] with signal := true }).signal || false) = true ∧
    ((waits [] []).env.slices = [] ∧ decide ((Waiting.mk 1 0).left = 0) = true) := by decide +kernel

/-- A running wait with a deadline, and a state in which one can begin. -/
theorem witness_TimedWaitEnds : ({ waits [] [] with waiting := some ⟨1, 3⟩ } : State).waiting = some ⟨1, 3⟩ ∧
    (Waiting.mk 1 3).timeout ≠ 0 ∧ (waits [] []).irqPresent = true ∧ (0xFFFF : BitVec 16) ≠ 0 := by decide +kernel

theorem witness_FramesWithAChecksum : [0xDE#8, 0xAD, 0xBE, 0xEF, 0x22].length = 5 ∧ (List.replicate 16 (0x11 : Byte)).length = 16 := by
  decide

theorem witness_AuthenticationFrames : [1#8, 2, 3, 4, 5, 6].length = 6 ∧ [1#8, 2, 3, 4].length = 4 := by decide

theorem witness_ChipCommandsAreOneWrite : (Instr.cmdSoftReset, State.reset.cfg.cmdSoftReset) ∈
    [(.cmdIdle, State.reset.cfg.cmdIdle), (.cmdCalcCrc, State.reset.cfg.cmdCalcCrc),
      (.cmdTransceive, State.reset.cfg.cmdTransceive), (.cmdAuthent, State.reset.cfg.cmdAuthent),
      (.cmdSoftReset, State.reset.cfg.cmdSoftReset)] := by decide +kernel

theorem witness_WrongOperandLengthsAreRejected : Instr.wellFormed (.write 4 []) = false ∧
    (∀ data, Instr.write 4 [] ≠ .computeCrc data) ∧ (∀ command data, Instr.write 4 [] ≠ .cardWrite command data) :=
  ⟨by decide, fun _ h => (nomatch h), fun _ _ h => (nomatch h)⟩

theorem witness_ProcedureStateTable : (∃ t, exec .stopCrypto (authenticated [0x09]) = .next t ∧
      Delivers .done .eNone (authenticated [0x09]) t) ∧
    pstateTable .stopCrypto (resultFailed .done) true .authenticated = some .selected := ⟨⟨_, rfl, rfl⟩, rfl⟩

/-- An operation that sets the flag (V50), and one that clears it. -/
theorem witness_AuthedIsSetAndClearedOnlyAsStated :
    (∃ t, exec (.cardAuth 0x60 4 [1, 2, 3, 4, 5, 6] [1, 2, 3, 4]) (selected [0x00, 0x00, 0x10, 0x00, 0x00, 0x08]) = .next t ∧
      (selected []).authed = false ∧ t.authed = true) ∧
    (∃ t, exec .stopCrypto (authenticated [0x09]) = .next t ∧ (authenticated [0x09]).authed = true ∧ t.authed = false) :=
  ⟨⟨_, rfl, rfl, by decide +kernel⟩, _, rfl, rfl, rfl⟩

theorem witness_ConfigurationNeverChanges : ∃ t, step (placeWord ⟨.host, [0x30, 0x03]⟩ (plain [])) = .next t := ⟨_, rfl⟩

theorem witness_GainIsMutatedOnlyByItsOperation :
    (∃ t, exec (.setAntennaGain 3) (plain []) = .next t ∧ t.gain ≠ (plain []).gain) ∧
    (⟨.write, 0x26, .gain⟩ : InitEntry) ∈ (plain []).cfg.initSeq ∧
    (0 ≤ SessionParams.usual.gainInit ∧ SessionParams.usual.gainInit ≤ 7) ∧
    ∃ s, construct SessionParams.usual Env.free = .session s :=
  ⟨⟨_, rfl, by decide +kernel⟩, by decide +kernel, by decide, _, rfl⟩

/-- An authenticated state that has the invariant, and a step from it. -/
theorem witness_EveryStepKeepsTheInvariant : Inv (authenticated [0x09]) ∧
    ∃ t, step (placeWord ⟨.host, [0x24]⟩ (authenticated [0x09])) = .next t := ⟨⟨fun _ => rfl, rfl⟩, _, rfl⟩

theorem witness_ResetHasTheInvariant : ∃ s, construct SessionParams.usual Env.free = .session s := ⟨_, rfl⟩

theorem witness_RegisterMapOfWrites : ∃ t, exec (.regWrite 0x26 0x30) (plain []) = .next t := ⟨_, rfl⟩

theorem witness_EveryTransferHasItsWindow : ∃ t, step (placeWord ⟨.host, [0x01, 0x26, 0x30]⟩ (lined [])) = .next t := ⟨_, rfl⟩

theorem witness_TransactionBounds : (plain []).cfg.cmdAuthent ≠ (plain []).cfg.cmdTransceive ∧ Instr.wellFormed .halt = true ∧
    maxTransactions (plain []).cfg .halt = some 2300 ∧ ∃ t, exec .halt (plain []) = .next t :=
  ⟨by decide +kernel, rfl, rfl, _, rfl⟩

theorem witness_ConstructionSetsTheRegistersAndInitialises : SessionParams.usual.rstCfg ≠ none ∧
    SessionParams.usual.pinModeOk = true ∧ 0 ≤ SessionParams.usual.gainInit ∧ SessionParams.usual.gainInit ≤ 7 ∧
    configValid SessionParams.usual.chip = true := by decide +kernel

theorem witness_ProcedureStateGatesNothing : ∃ t, exec .anticoll (plain []) = .next t := ⟨_, rfl⟩

theorem witness_OnlyCleanupReadsAuthedAndOnlyTheWaitReadsTheSignal : Instr.read 4 ≠ .cleanup ∧
    (∀ timeout, Instr.read 4 ≠ .waitForTag timeout) ∧ ∃ t, exec (.read 4) (plain []) = .next t :=
  ⟨by decide, fun _ h => (nomatch h), _, rfl⟩

end Sys2Proof.Tests
end

section
/-! SUPPORT. What each procedure leaves of `gain` (R21): every one but SET_ANTENNA_GAIN leaves it as it was. -/

namespace Sys2Proof.Proofs.Gain

open Sys2Proof Sys2Proof.Machine Sys2Proof.Laws Host

/-! ### The shared procedures keep `gain` -/

@[simp] theorem setBits_gain (a m : Byte) (s : State) : (setBits a m s).gain = s.gain := by
  obtain ⟨_, hr⟩ := setBits_ran a m s
  exact hr.gain

@[simp] theorem clearBits_gain (a m : Byte) (s : State) : (clearBits a m s).gain = s.gain := by
  obtain ⟨_, hr⟩ := clearBits_ran a m s
  exact hr.gain

@[simp] theorem computeCrc_gain (data : List Byte) (s : State) : (computeCrc data s).2.gain = s.gain := by
  obtain ⟨_, _, -, hr⟩ := computeCrc_ran data s
  exact hr.gain

@[simp] theorem cardWrite_gain (command : Byte) (data : List Byte) (s : State) :
    (cardWrite command data s).2.gain = s.gain := by
  obtain ⟨_, _, -, hr⟩ := cardWrite_ran command data s
  exact hr.gain

@[simp] theorem transceive_gain (frame : List Byte) (s : State) : (transceive frame s).2.gain = s.gain :=
  cardWrite_gain ..

@[simp] theorem sendRequest_gain (mode : Byte) (s : State) : (sendRequest mode s).2.gain = s.gain :=
  transceive_gain ..

@[simp] theorem sendAnticoll_gain (sel : Byte) (s : State) : (sendAnticoll sel s).2.gain = s.gain :=
  transceive_gain ..

@[simp] theorem request_gain (mode : Byte) (s : State) : (request mode s).2.gain = s.gain := by
  rw [request, advance_snd, setPState_gain, sendRequest_gain]

@[simp] theorem anticollBody_gain (sel : Byte) (s : State) : (anticollBody sel s).2.gain = s.gain := by
  rw [anticollBody, advance_snd, setPState_gain, sendAnticoll_gain]

@[simp] theorem selectTag_gain (uid : List Byte) (s : State) : (selectTag uid s).2.gain = s.gain := by
  obtain ⟨_, _, _, _, u, -, -, hr, hs⟩ := selectTag_ran uid s
  rw [hs, setPState_gain, hr.gain]

@[simp] theorem readId_gain (asNumber : Bool) (s : State) : (readId asNumber s).gain = s.gain := by
  obtain ⟨_, _, _, _, _, u, -, hr, hs⟩ := readId_ran asNumber s
  rw [hs, complete_gain, setPState_gain, hr.gain]

@[simp] theorem sendAuth_gain (mode block : Byte) (key uid : List Byte) (s : State) :
    (sendAuth mode block key uid s).2.gain = s.gain := by
  obtain ⟨_, _, _, _, -, -, hr⟩ := sendAuth_ran mode block key uid s
  exact hr.gain

@[simp] theorem cardAuth_gain (mode block : Byte) (key uid : List Byte) (s : State) :
    (cardAuth mode block key uid s).2.gain = s.gain := by
  rw [cardAuth_snd, setPState_gain, setAuthed_gain, sendAuth_gain]

@[simp] theorem readBlock_gain (block : Byte) (s : State) : (readBlock block s).2.gain = s.gain := by
  obtain ⟨_, _, _, -, -, hr⟩ := readBlock_ran block s
  exact hr.gain

@[simp] theorem writeBlock_gain (block : Byte) (data : List Byte) (s : State) :
    (writeBlock block data s).2.gain = s.gain := by
  obtain ⟨_, _, _, -, -, -, hr⟩ := writeBlock_ran block data s
  exact hr.gain

@[simp] theorem halt_gain (s : State) : (halt s).gain = s.gain := by
  obtain ⟨_, _, u, -, hr, hs⟩ := halt_ran s
  rw [hs, setPState_gain, setAuthed_gain, hr.gain]

@[simp] theorem stopCrypto_gain (s : State) : (stopCrypto s).gain = s.gain := by
  obtain ⟨_, u, hr, hs⟩ := stopCrypto_ran s
  rw [hs, setPState_gain, setAuthed_gain, hr.gain]

@[simp] theorem init_gain (s : State) : (init s).gain = s.gain := by
  obtain ⟨_, _, -, hr⟩ := init_ran s
  exact hr.gain

/-! ### The wait keeps `gain` -/

@[simp] theorem waitPrologue_gain (s : State) : (waitPrologue s).gain = s.gain := by
  obtain ⟨_, _, -, hw, -⟩ := waitPrologue_waited s
  exact hw.gain

@[simp] theorem signalWait_rearm_gain (irq : Bool) (s : State) : (signalWait irq (rearm s)).gain = s.gain := by
  obtain ⟨_, _, -, hw, -⟩ := pass_waited irq s
  exact hw.gain

@[simp] theorem finishWait_gain (fired : Bool) (s : State) : (finishWait fired s).gain = s.gain := by
  obtain ⟨_, _, -, hw, -⟩ := finishWait_waited fired s
  exact hw.gain

@[simp] theorem waitLoop_gain (timeout : BitVec 16) (left : Nat) (ds : List SliceDraw) (s : State) :
    (waitLoop timeout left ds s).gain = s.gain := by
  induction ds generalizing s with
  | nil => rfl
  | cons d ds ih =>
    dsimp only [waitLoop]
    split
    · rw [finishWait_gain]
    · split
      · rw [finishWait_gain, signalWait_rearm_gain]
      · rw [ih, signalWait_rearm_gain]

@[simp] theorem beginWait_gain (timeout : BitVec 16) (s : State) : (beginWait timeout s).gain = s.gain := by
  rw [beginWait, waitLoop_gain, waitPrologue_gain]

/-! ### Every operation -/

/-- A checked operation keeps `gain` when its work and its rejection do. -/
theorem checked_gain {p : Prop} [Decidable p] {s t u : State} (ht : t.gain = s.gain) (hu : u.gain = s.gain) :
    ∃ v, (if p then (.next t : Outcome State Fault Refusal) else .next u) = .next v ∧ v.gain = s.gain := by
  split
  · exact ⟨t, rfl, ht⟩
  · exact ⟨u, rfl, hu⟩

/-- Every operation but SET_ANTENNA_GAIN keeps `gain` (R21). -/
theorem exec_gain (i : Instr) (s : State) (hi : ∀ g, i ≠ .setAntennaGain g) :
    ∃ t, exec i s = .next t ∧ t.gain = s.gain := by
  cases i with
  | setAntennaGain g => exact absurd rfl (hi g)
  | regWrite a v => exact ⟨_, rfl, regWrite_gain a v s⟩
  | regRead a => exact ⟨_, rfl, regRead_gain a s⟩
  | setBits a m => exact ⟨_, rfl, setBits_gain a m s⟩
  | clearBits a m => exact ⟨_, rfl, clearBits_gain a m s⟩
  | computeCrc data => exact ⟨_, rfl, computeCrc_gain data s⟩
  | cardWrite command data => exact ⟨_, rfl, cardWrite_gain command data s⟩
  | request mode => exact ⟨_, rfl, request_gain mode s⟩
  | anticoll => exact ⟨_, rfl, anticollBody_gain selectCode1 s⟩
  | anticoll2 => exact ⟨_, rfl, anticollBody_gain selectCode2 s⟩
  | selectTag uid => exact checked_gain (selectTag_gain uid s) rfl
  | readId asNumber => exact ⟨_, rfl, readId_gain asNumber s⟩
  | cardAuth mode block key uid => exact checked_gain (cardAuth_gain mode block key uid s) rfl
  | read block => exact ⟨_, rfl, readBlock_gain block s⟩
  | write block data => exact checked_gain (writeBlock_gain block data s) rfl
  | halt => exact ⟨_, rfl, halt_gain s⟩
  | stopCrypto => exact ⟨_, rfl, stopCrypto_gain s⟩
  | init => exact ⟨_, rfl, init_gain s⟩
  | cleanup =>
    refine ⟨_, rfl, ?_⟩
    rw [complete_gain]
    split
    · exact stopCrypto_gain s
    · rfl
  | waitForTag timeout =>
    refine ⟨_, rfl, ?_⟩
    split
    · exact beginWait_gain timeout s
    · exact reject_gain ..
  | busWriteFrame address value => exact ⟨_, rfl, regWrite_gain (address.setWidth 8) value s⟩
  | busReadFrame address => exact ⟨_, rfl, regRead_gain (address.setWidth 8) s⟩
  | tagRequest mode => exact ⟨_, rfl, sendRequest_gain mode s⟩
  | tagAnticoll1 => exact ⟨_, rfl, sendAnticoll_gain selectCode1 s⟩
  | tagAnticoll2 => exact ⟨_, rfl, sendAnticoll_gain selectCode2 s⟩
  | tagSelect uid lo hi => exact checked_gain (transceive_gain _ s) rfl
  | tagAuthA block key uid => exact checked_gain (sendAuth_gain authKeyA block key uid s) rfl
  | tagAuthB block key uid => exact checked_gain (sendAuth_gain authKeyB block key uid s) rfl
  | tagRead block lo hi => exact ⟨_, rfl, transceive_gain _ s⟩
  | tagWritePhase1 block lo hi => exact ⟨_, rfl, transceive_gain _ s⟩
  | tagWritePhase2 data lo hi => exact checked_gain (transceive_gain _ s) rfl
  | tagHalt lo hi => exact ⟨_, rfl, transceive_gain _ s⟩
  | cmdIdle => exact ⟨_, rfl, regWrite_gain s.cfg.aCommand s.cfg.cmdIdle s⟩
  | cmdCalcCrc => exact ⟨_, rfl, regWrite_gain s.cfg.aCommand s.cfg.cmdCalcCrc s⟩
  | cmdTransceive => exact ⟨_, rfl, regWrite_gain s.cfg.aCommand s.cfg.cmdTransceive s⟩
  | cmdAuthent => exact ⟨_, rfl, regWrite_gain s.cfg.aCommand s.cfg.cmdAuthent s⟩
  | cmdSoftReset => exact ⟨_, rfl, regWrite_gain s.cfg.aCommand s.cfg.cmdSoftReset s⟩

/-! ### SET_ANTENNA_GAIN -/

theorem gainInRange_iff (g : Int) : gainInRange g = true ↔ 0 ≤ g ∧ g ≤ 7 := by
  simp [gainInRange]

/-- The operand, read as a two's-complement value, is in range exactly when the byte is at most 7 (R97, R200). -/
theorem gainInRange_gainOperand_iff (g : Byte) : gainInRange (gainOperand g) = true ↔ g.toNat ≤ 7 := by
  have hg := g.isLt
  rw [gainInRange_iff, gainOperand, BitVec.toInt_eq_toNat_cond]
  split <;> omega

/-- SET_ANTENNA_GAIN stores an operand in range (R200). -/
theorem exec_setAntennaGain_of_le {g : Byte} (s : State) (hg : g.toNat ≤ 7) :
    ∃ t, exec (.setAntennaGain g) s = .next t ∧ t.gain = g.setWidth 3 :=
  ⟨_, if_pos ((gainInRange_gainOperand_iff g).2 hg), rfl⟩

/-- SET_ANTENNA_GAIN rejects an operand out of range (R230). -/
theorem exec_setAntennaGain_of_lt {g : Byte} (s : State) (hg : 7 < g.toNat) :
    exec (.setAntennaGain g) s = .next (reject .gainRange s) :=
  if_neg fun h => absurd ((gainInRange_gainOperand_iff g).1 h) (by omega)

/-- An operation that changes `gain` is SET_ANTENNA_GAIN with an operand in range, which `gain` then is. -/
theorem setAntennaGain_of_gain_ne {i : Instr} {s t : State} (he : exec i s = .next t) (hne : t.gain ≠ s.gain) :
    ∃ g : Byte, i = .setAntennaGain g ∧ g.toNat ≤ 7 ∧ t.gain = g.setWidth 3 := by
  by_cases hi : ∃ g, i = .setAntennaGain g
  · obtain ⟨g, rfl⟩ := hi
    by_cases hg : g.toNat ≤ 7
    · obtain ⟨u, hu, hgain⟩ := exec_setAntennaGain_of_le s hg
      cases he.symm.trans hu
      exact ⟨g, rfl, hg, hgain⟩
    · cases he.symm.trans (exec_setAntennaGain_of_lt s (Nat.lt_of_not_le hg))
      exact absurd (reject_gain ..) hne
  · obtain ⟨u, hu, hgain⟩ := exec_gain i s fun g h => hi ⟨g, h⟩
    cases he.symm.trans hu
    exact absurd hgain hne

/-! ### The `GAIN` entries of INIT -/

/-- A transaction on the bus is one of the events, in its window or bare (R114). -/
theorem mem_onBus {e : Event} {xfers : List Event} (cs : Bool) (h : e ∈ xfers) : e ∈ onBus cs xfers :=
  List.mem_flatMap.2 ⟨e, h, by cases cs <;> simp [window]⟩

/-- A write entry of the list is a write of its byte, whatever the reads were answered (R201). -/
theorem wr_mem_initXfers (gain : BitVec 3) {a : Byte} {arg : InitArg} {es : List InitEntry} (answers : List Byte)
    (h : (⟨.write, a, arg⟩ : InitEntry) ∈ es) : wr a (initValue gain arg) ∈ initXfers gain es answers := by
  induction es generalizing answers with
  | nil => cases h
  | cons e es ih =>
    rcases List.mem_cons.1 h with rfl | h
    · exact List.mem_cons_self
    · cases hk : e.kind with
      | write =>
        simp only [initXfers, hk]
        exact List.mem_cons_of_mem _ (ih answers h)
      | set =>
        simp only [initXfers, hk]
        exact List.mem_append_right _ (ih answers.tail h)

/-- INIT writes the byte of every write entry of its list (R201). -/
theorem exec_init_writes (s : State) {a : Byte} {arg : InitArg} (h : (⟨.write, a, arg⟩ : InitEntry) ∈ s.cfg.initSeq) :
    ∃ t evs, exec .init s = .next t ∧ t.trace = s.trace ++ evs ∧ wr a (initValue s.gain arg) ∈ evs := by
  obtain ⟨evs, answers, ⟨-, rfl⟩, hr⟩ := init_ran s
  exact ⟨_, _, rfl, hr.trace, mem_onBus _ (wr_mem_initXfers s.gain answers h)⟩

/-! ### Construction -/

/-- A construction gives a session only after its checks, and the session is the registers after one INIT (R262, R263). -/
theorem construct_eq_session {p : SessionParams} {env : Env} {s : State} (h : construct p env = .session s) :
    p.rstCfg ≠ none ∧ p.pinModeOk = true ∧ gainInRange p.gainInit = true ∧ configValid p.chip = true ∧
      s = init (State.beforeInit p env) := by
  unfold construct at h
  split at h
  case h_1 => cases h
  case h_2 hrst =>
    split at h
    · cases h
    next hpin =>
      split at h
      · cases h
      next hgain =>
        split at h
        · cases h
        next hcfg =>
          cases h
          exact ⟨by simp [hrst], by simpa using hpin, by simpa using hgain, by simpa using hcfg, rfl⟩

/-- An initial gain in range fits the register (R21, R45). -/
theorem ofInt_gain_toNat {g : Int} (h0 : 0 ≤ g) (h7 : g ≤ 7) : ((BitVec.ofInt 3 g).toNat : Int) = g := by
  rw [BitVec.toNat_ofInt]
  omega

/-- A session is constructed with the initial gain of its parameters (R45). -/
theorem gain_of_construct {p : SessionParams} {env : Env} {s : State} (h : construct p env = .session s) :
    (s.gain.toNat : Int) = p.gainInit := by
  obtain ⟨-, -, hgain, -, rfl⟩ := construct_eq_session h
  obtain ⟨h0, h7⟩ := (gainInRange_iff _).1 hgain
  rw [init_gain]
  exact ofInt_gain_toNat h0 h7

/-! ### The obligation -/

/-- Settles O50: each procedure keeps `gain`, and SET_ANTENNA_GAIN stores an operand in range; the entries of INIT by induction on
its list; construction by its checks. -/
theorem gainIsMutatedOnlyByItsOperation : Obligations.GainIsMutatedOnlyByItsOperation := by
  refine ⟨fun i s t => setAntennaGain_of_gain_ne, fun s a h => exec_init_writes s h, fun p h0 h7 => ?_,
    fun p env s => gain_of_construct⟩
  rw [constructed_gain]
  exact ofInt_gain_toNat h0 h7

end Sys2Proof.Proofs.Gain
end

section
/-! SUPPORT. The computed bytes of the encoding as numbers: the address byte of a bus frame (R89), the anti-collision check
byte and the acknowledge nibble (R93). -/

namespace Sys2Proof.Proofs.Encoding

open Sys2Proof Sys2Proof.Machine Sys2Proof.Laws

/-! ### The address byte -/

/-- The low six bits of an operand as a number (R51). -/
theorem location_eq_mod (a : Byte) : location a = a.toNat % 64 := by
  rw [location, BitVec.toNat_and]
  exact Nat.and_two_pow_sub_one_eq_mod a.toNat 6

/-- The address bits are the location shifted over the zero of bit 0: the mask 0x7E is 0x3F shifted with them (R89). -/
theorem shiftLeft_and_frameMask (a : Byte) : (a <<< 1) &&& (0x7E : Byte) = (a &&& 0x3F) <<< 1 := by
  rw [BitVec.shiftLeft_and_distrib]
  rfl

/-- The address bits of a frame byte are twice the location. -/
theorem shiftLeft_and_frameMask_toNat (a : Byte) : ((a <<< 1) &&& 0x7E).toNat = 2 * location a := by
  have hlt : location a < 64 := location_lt a
  rw [shiftLeft_and_frameMask, BitVec.toNat_shiftLeft, Nat.shiftLeft_eq]
  change location a * 2 ^ 1 % 2 ^ 8 = 2 * location a
  omega

/-- A write frame's direction bit is 0. -/
theorem addrByte_write_toNat (a : Byte) : (addrByte a false).toNat = 2 * location a := by
  rw [← shiftLeft_and_frameMask_toNat]
  exact congrArg BitVec.toNat BitVec.or_zero

/-- A read frame's direction bit lies above the address bits, so it adds 128. -/
theorem addrByte_read_toNat (a : Byte) : (addrByte a true).toNat = 2 * location a + 128 := by
  have hlt : 2 * location a < 2 ^ 7 := by
    have := location_lt a
    omega
  calc (addrByte a true).toNat
      = 2 ^ 7 * 1 ||| 2 * location a := by
        rw [← shiftLeft_and_frameMask_toNat, Nat.or_comm]
        exact BitVec.toNat_or _ _
    _ = 2 ^ 7 * 1 + 2 * location a := (Nat.two_pow_add_eq_or_of_lt hlt 1).symm
    _ = 2 * location a + 128 := by omega

theorem addrByte_toNat (a : Byte) (r : Bool) :
    (addrByte a r).toNat = 2 * (a.toNat % 64) + (if r then 128 else 0) := by
  rw [← location_eq_mod]
  cases r with
  | false => exact addrByte_write_toNat a
  | true => exact addrByte_read_toNat a

/-- Settles O8: the address bits are twice the location and the direction adds 128; the formula is the definition, and the
rule's examples are evaluated. -/
theorem addressByteAssembly : Obligations.AddressByteAssembly :=
  ⟨addrByte_toNat, fun _ _ => rfl, by decide, by decide, by decide, by decide, by decide⟩

/-! ### The check byte and the acknowledge nibble -/

theorem checkByteGood_iff (b0 b1 b2 b3 b4 : Byte) :
    checkByteGood [b0, b1, b2, b3, b4] = true ↔ b4 = b0 ^^^ b1 ^^^ b2 ^^^ b3 := by
  rw [checkByteGood, decide_eq_true_iff]
  exact eq_comm

/-- A masked nibble is the remainder by 16. -/
theorem lowNibble_toNat (b : Byte) : (b &&& 0x0F).toNat = b.toNat % 16 := by
  rw [BitVec.toNat_and]
  exact Nat.and_two_pow_sub_one_eq_mod b.toNat 4

theorem ackNibble_cons_iff (b : Byte) (rest : List Byte) : ackNibble (b :: rest) = true ↔ b.toNat % 16 = 0x0A := by
  rw [ackNibble, decide_eq_true_iff, ← lowNibble_toNat]
  exact BitVec.toNat_inj.symm

/-- Settles O14: the anti-collision test compares the fifth byte with the exclusive or of the first four, and the
acknowledge test the low nibble of the first byte with 0x0A. -/
theorem checkByteAndAckNibble : Obligations.CheckByteAndAckNibble :=
  ⟨checkByteGood_iff, ackNibble_cons_iff⟩

end Sys2Proof.Proofs.Encoding
end

section
/-! SUPPORT. The two single accesses as operations, REG_WRITE and REG_READ (R110, R111): each is one frame in one window and then its
result. -/

namespace Sys2Proof.Proofs.RegisterAccess

open Sys2Proof Sys2Proof.Machine Sys2Proof.Laws

/-! ### REG_WRITE -/

/-- The location of the operand holds the value written (R51, R110). -/
theorem regWrite_get_same (a v : Byte) (s : State) : Memory.get (location a) (regWrite a v s).chipRegs = some v := by
  rw [regWrite_chipRegs, get_set_same]

/-- One write frame, its answer discarded, then `done`; no draw is taken (R110). -/
theorem exec_regWrite (addr value : Byte) (s : State) :
    ∃ t, exec (.regWrite addr value) s = .next t ∧
      Effect [location addr] (onBus s.csPresent [wr addr value]) [] .done .eNone s t ∧
      Memory.get (location addr) t.chipRegs = some value ∧ SameEngine s t ∧ t.env = s.env := by
  obtain ⟨heffect, hsame⟩ := (regWrite_ran addr value s).complete (one_write addr value) .done .eNone
  exact ⟨_, rfl, heffect, regWrite_get_same addr value s, hsame, regWrite_env addr value s⟩

/-- Settles O15: the word decodes by its row, the effect is that of one write, and the rule's example is evaluated. -/
theorem regWriteSendsOneFrame : Obligations.RegWriteSendsOneFrame :=
  ⟨fun addr value s => ⟨rfl, exec_regWrite addr value s⟩, by decide⟩

/-! ### REG_READ -/

/-- One read frame, then the byte it was answered as the value (R111). -/
theorem exec_regRead (addr : Byte) (s : State) :
    ∃ t v, exec (.regRead addr) s = .next t ∧
      Effect [] (onBus s.csPresent [rd addr v]) [v] (.value v) .eNone s t ∧ SameEngine s t := by
  obtain ⟨heffect, hsame⟩ := (regRead_ran addr s).complete (one_read addr _) (.value (regRead addr s).1) .eNone
  exact ⟨_, _, rfl, heffect, hsame⟩

/-- Settles O16: the word decodes by its row, and the effect is that of one read whose answer, whatever it is, is the value. -/
theorem regReadReturnsTheSecondByte : Obligations.RegReadReturnsTheSecondByte :=
  ⟨fun addr s => ⟨rfl, exec_regRead addr s⟩, fun _ => rfl⟩

end Sys2Proof.Proofs.RegisterAccess
end

section
/-! SUPPORT. What operations read of the interrupt line (R206): WAIT_FOR_TAG stops at once without it, and no other operation asks
whether it is there. -/

namespace Sys2Proof.Proofs.InterruptLine

open Sys2Proof Sys2Proof.Machine Sys2Proof.Laws Host

/-! ### WAIT_FOR_TAG -/

/-- Without an interrupt line WAIT_FOR_TAG is the rejection and nothing else (R206). -/
theorem exec_waitForTag_of_noLine (timeout : BitVec 16) {s : State} (h : s.irqPresent = false) :
    exec (.waitForTag timeout) s = .next (reject .noInterruptLine s) :=
  congrArg Outcome.next (if_neg (by simp [h]))

/-- A rejection adds its result and changes nothing else (R241). -/
theorem reject_effect (c : Cause) (s : State) :
    Effect [] [] [] .rejected c s (reject c s) ∧ SameEngine s (reject c s) ∧ (reject c s).env = s.env :=
  ⟨no_traffic rfl rfl rfl rfl, same_refl s, rfl⟩

/-! ### Every other operation -/

/-- CLEANUP, whatever the unread pieces, once the flag it does read is fixed (R204). -/
theorem exec_cleanup_moves (s : State) (b : Bool) :
    ∃ u fp fa, ∀ x : Unread, x.authed = b → exec .cleanup (x.into s) = .next ((x.moved fp fa).into u) := by
  have hexec (x : Unread) : exec .cleanup (x.into s) =
      .next (complete .done .eNone (if x.authed then stopCrypto (x.into s) else x.into s)) := rfl
  cases b with
  | false => exact ⟨complete .done .eNone s, id, id, fun x hx => by rw [hexec, hx]; rfl⟩
  | true =>
    obtain ⟨u, fp, fa, hstop⟩ := stopCrypto_moves s
    exact ⟨complete .done .eNone u, fp, fa, fun x hx => by rw [hexec, hx, if_pos rfl, hstop, complete_blind]⟩

/-- What every operation but WAIT_FOR_TAG does, whatever the unread pieces, the Authenticated flag apart. -/
theorem exec_moves_of_authed {i : Instr} (s : State) (b : Bool) (hi : ∀ timeout, i ≠ .waitForTag timeout) :
    ∃ u fp fa, ∀ x : Unread, x.authed = b → exec i (x.into s) = .next ((x.moved fp fa).into u) := by
  by_cases hc : i = .cleanup
  · subst hc
    exact exec_cleanup_moves s b
  · obtain ⟨u, fp, fa, hexec⟩ := exec_moves i s hc hi
    exact ⟨u, fp, fa, fun x _ => hexec x⟩

/-- Every operation but WAIT_FOR_TAG does the same with the line as without it: the line's presence is an unread piece which no
operation moves. -/
theorem exec_with_irqPresent {i : Instr} {s t : State} (b : Bool) (hi : ∀ timeout, i ≠ .waitForTag timeout)
    (he : exec i s = .next t) : exec i { s with irqPresent := b } = .next { t with irqPresent := b } := by
  obtain ⟨u, fp, fa, hexec⟩ := exec_moves_of_authed s s.authed hi
  have own := hexec ⟨s.pstate, s.authed, s.signal, s.irqPresent, s.rstCfg, s.cfg.fifoCapacity⟩ rfl
  have other := hexec ⟨s.pstate, s.authed, s.signal, b, s.rstCfg, s.cfg.fifoCapacity⟩ rfl
  rw [into_self, he] at own
  cases own
  exact other

/-! ### The obligation -/

/-- Settles O37: WAIT_FOR_TAG by its test of the line, every other operation by what its procedures do not read. -/
theorem waitForTagNeedsTheLine : Obligations.WaitForTagNeedsTheLine :=
  ⟨fun timeout s h => ⟨_, exec_waitForTag_of_noLine timeout h, reject_effect .noInterruptLine s⟩,
    fun _ _ _ b hi => exec_with_irqPresent b hi⟩

end Sys2Proof.Proofs.InterruptLine
end

section
/-! SUPPORT. The encoder and the decoder are inverse on well-formed operations, and an operation word tells its own length (rules R80, R81,
R84, R85, R87, R94, R95, R98 of spec/30_encoding.md). -/

namespace Sys2Proof.Proofs.Codec

open Sys2Proof Sys2Proof.Machine Sys2Proof.Laws

/-! ### Reading an encoded word -/

theorem decode_computeCrc {data : List Byte} (cfg : Config) (h : data.length ≤ 255) :
    decode cfg (encode cfg (.computeCrc data)) = .ok (.computeCrc data) :=
  if_pos (lenByte_toNat h).symm

theorem decode_cardWrite {data : List Byte} (cfg : Config) (command : Byte) (h : data.length ≤ 255) :
    decode cfg (encode cfg (.cardWrite command data)) = .ok (.cardWrite command data) :=
  if_pos (lenByte_toNat h).symm

/-- The key and the uid are told apart by the length of the key (R85). -/
theorem decode_cardAuth {key uid : List Byte} (cfg : Config) (mode block : Byte) (hk : key.length = keyLen)
    (hu : uid.length = authUidLen) :
    decode cfg (encode cfg (.cardAuth mode block key uid)) = .ok (.cardAuth mode block key uid) := by
  have hl : (key ++ uid).length = keyLen + authUidLen := by rw [List.length_append, hk, hu]
  calc decode cfg (encode cfg (.cardAuth mode block key uid))
      = .ok (.cardAuth mode block ((key ++ uid).take keyLen) ((key ++ uid).drop keyLen)) := if_pos hl
    _ = .ok (.cardAuth mode block key uid) := by rw [← hk, List.take_left, List.drop_left]

theorem decodeBus_write (address : BitVec 6) (value : Byte) :
    decodeBus (frameByte false address) value = .ok (.busWriteFrame address value) := by
  obtain ⟨h0, h7, ha⟩ := frameByte_fields false address
  rw [decodeBus, h0, h7, ha]
  rfl

theorem decodeBus_read (address : BitVec 6) : decodeBus (frameByte true address) 0x00 = .ok (.busReadFrame address) := by
  obtain ⟨h0, h7, ha⟩ := frameByte_fields true address
  rw [decodeBus, h0, h7, ha]
  rfl

/-- Settles O1: each word by its row; the lengths of the operands place what follows them, and different chip codes are told apart. -/
theorem decodeOfEncodeIsTheOperation : Obligations.DecodeOfEncodeIsTheOperation := by
  intro cfg i hwf hchip
  cases i with
  | computeCrc data => exact decode_computeCrc cfg (of_decide_eq_true hwf)
  | cardWrite command data => exact decode_cardWrite cfg command (of_decide_eq_true hwf)
  | selectTag uid => exact if_pos (of_decide_eq_true hwf)
  | cardAuth mode block key uid =>
    obtain ⟨hk, hu⟩ := (Bool.and_eq_true ..).mp hwf
    exact decode_cardAuth cfg mode block (of_decide_eq_true hk) (of_decide_eq_true hu)
  | write block data => exact if_pos (of_decide_eq_true hwf)
  | readId asNumber => cases asNumber <;> rfl
  | waitForTag timeout => exact congrArg (fun t => Except.ok (Instr.waitForTag t)) (timeout_join timeout)
  | busWriteFrame address value => exact decodeBus_write address value
  | busReadFrame address => exact decodeBus_read address
  | tagSelect uid lo hi => exact decodeTag_select lo hi (of_decide_eq_true hwf)
  | tagAuthA block key uid =>
    obtain ⟨hk, hu⟩ := (Bool.and_eq_true ..).mp hwf
    exact (decodeTag_auth (of_decide_eq_true hk) (of_decide_eq_true hu)).1
  | tagAuthB block key uid =>
    obtain ⟨hk, hu⟩ := (Bool.and_eq_true ..).mp hwf
    exact (decodeTag_auth (of_decide_eq_true hk) (of_decide_eq_true hu)).2
  | tagWritePhase2 data lo hi => exact decodeTag_data lo hi (of_decide_eq_true hwf)
  | cmdIdle | cmdCalcCrc | cmdTransceive | cmdAuthent | cmdSoftReset =>
    have hcodes := hchip rfl
    simp only [List.nodup_cons, List.mem_cons, not_or, List.not_mem_nil] at hcodes
    simp [decode, encode, decodeChip, hcodes, eq_comm]
  | regWrite | regRead | setBits | clearBits | request | anticoll | anticoll2 | read | halt | stopCrypto
  | setAntennaGain | init | cleanup | tagRequest | tagAnticoll1 | tagAnticoll2 | tagRead | tagWritePhase1 | tagHalt => rfl

/-! ### Writing a decoded word -/

/-- The operation is the one this word spells, and its operands have the lengths of its row. -/
def Spells (cfg : Config) (w : PortWord) (i : Instr) : Prop := encode cfg i = w ∧ i.wellFormed = true

theorem byte_eq_ofNat {b : Byte} {n : Nat} (h : b.toNat = n) : b = BitVec.ofNat 8 n := by
  rw [← h, BitVec.ofNat_toNat, BitVec.setWidth_eq]

/-- A `len` operand equal to the number of bytes after it is the one byte that encodes that number (R85). -/
theorem lenByte_fits {data : List Byte} {len : Byte} (h : data.length = len.toNat) :
    lenByte data = len ∧ data.length ≤ 255 :=
  ⟨lenByte_eq h, by have := len.isLt; omega⟩

/-- The two parts of a key and uid of the right total length have the right lengths. -/
theorem keyUid_lengths {rest : List Byte} (h : rest.length = keyLen + authUidLen) :
    (decide ((rest.take keyLen).length = keyLen) && decide ((rest.drop keyLen).length = authUidLen)) = true := by
  simp [h]

theorem spells_of_decodeHost {cfg : Config} {op : Byte} {args : List Byte} {i : Instr} (h : decodeHost op args = .ok i) :
    Spells cfg ⟨.host, op :: args⟩ i := by
  unfold decodeHost at h
  split at h
  -- rows with operands of one byte each, or none
  case h_1 hop | h_2 hop | h_3 hop | h_4 hop | h_7 hop | h_8 hop | h_9 hop | h_13 hop | h_15 hop | h_16 hop | h_17 hop | h_18 hop
    | h_19 hop =>
    rw [byte_eq_ofNat hop]
    split at h
    · cases h
      exact ⟨rfl, rfl⟩
    · cases h
  case h_5 hop | h_6 hop =>
    rw [byte_eq_ofNat hop]
    split at h
    · split at h
      next hlen =>
        cases h
        obtain ⟨heq, hle⟩ := lenByte_fits hlen
        exact ⟨by rw [← heq]; rfl, decide_eq_true hle⟩
      · cases h
    · cases h
  case h_10 hop =>
    rw [byte_eq_ofNat hop]
    split at h
    next hlen =>
      cases h
      exact ⟨rfl, decide_eq_true hlen⟩
    · cases h
  case h_11 hop =>
    rw [byte_eq_ofNat hop]
    split at h
    · split at h
      next hn =>
        cases h
        exact ⟨by rw [hn]; rfl, rfl⟩
      · split at h
        next hn =>
          cases h
          exact ⟨by rw [hn]; rfl, rfl⟩
        · cases h
    · cases h
  case h_12 hop =>
    rw [byte_eq_ofNat hop]
    split at h
    · split at h
      next rest hlen =>
        cases h
        refine ⟨?_, keyUid_lengths hlen⟩
        rw [encode, List.append_assoc, List.take_append_drop]
        rfl
      · cases h
    · cases h
  case h_14 hop =>
    rw [byte_eq_ofNat hop]
    split at h
    · split at h
      next hlen =>
        cases h
        exact ⟨rfl, decide_eq_true hlen⟩
      · cases h
    · cases h
  case h_20 hop =>
    rw [byte_eq_ofNat hop]
    split at h
    next hi lo =>
      cases h
      refine ⟨?_, rfl⟩
      rw [encode, timeout_hi, timeout_lo]
      rfl
    · cases h
  case h_21 => cases h

theorem spells_of_decodeBus {cfg : Config} {b0 b1 : Byte} {i : Instr} (h : decodeBus b0 b1 = .ok i) :
    Spells cfg ⟨.bus, [b0, b1]⟩ i := by
  unfold decodeBus at h
  split at h
  · cases h
  next h0 =>
    have hjoin := frameByte_join b0 (by simpa using h0)
    split at h
    next h7 =>
      rw [h7] at hjoin
      split at h
      next h1 =>
        cases h
        exact ⟨by rw [encode, hjoin, h1], rfl⟩
      · cases h
    next h7 =>
      cases h
      rw [Bool.eq_false_iff.mpr h7] at hjoin
      exact ⟨by rw [encode, hjoin], rfl⟩

theorem spells_of_decodeChip {cfg : Config} {code : Byte} {i : Instr} (h : decodeChip cfg code = .ok i) :
    Spells cfg ⟨.chip, [code]⟩ i := by
  unfold decodeChip at h
  repeat' split at h
  all_goals cases h
  all_goals exact ⟨by simp [encode, *], rfl⟩

/-- Two bytes at the end of a frame, as the decoder takes them. -/
theorem take_append_lastTwo {bytes : List Byte} {n : Nat} (h : bytes.length = n + 2) :
    bytes.take n ++ [bytes.getD n 0, bytes.getD (n + 1) 0] = bytes := by
  have e0 : bytes.getD n 0 = bytes[n] := List.getD_eq_getElem _ _ (by omega)
  have e1 : bytes.getD (n + 1) 0 = bytes[n + 1] := List.getD_eq_getElem _ _ (by omega)
  have hend : bytes.drop n = [bytes[n], bytes[n + 1]] := by
    rw [List.drop_eq_getElem_cons (by omega), List.drop_eq_getElem_cons (by omega), List.drop_of_length_le (by omega)]
  rw [e0, e1, ← hend, List.take_append_drop]

theorem spells_of_decodeTag {cfg : Config} {bytes : List Byte} {i : Instr} (h : decodeTag bytes = .ok i) :
    Spells cfg ⟨.tag, bytes⟩ i := by
  unfold decodeTag at h
  split at h
  next hlen =>
    cases h
    exact ⟨by rw [encode, take_append_lastTwo hlen], decide_eq_true (by simp [hlen])⟩
  split at h
  case h_1 => cases h
  case h_2 =>
    cases h
    exact ⟨rfl, rfl⟩
  case h_3 =>
    split at h
    next hb =>
      cases h
      exact ⟨by rw [hb.1, hb.2]; rfl, rfl⟩
    split at h
    next hb =>
      cases h
      exact ⟨by rw [hb.1, hb.2]; rfl, rfl⟩
    · cases h
  case h_4 =>
    split at h
    next hb =>
      cases h
      exact ⟨by rw [hb]; rfl, rfl⟩
    split at h
    next hb =>
      cases h
      exact ⟨by rw [hb]; rfl, rfl⟩
    split at h
    next hb =>
      cases h
      exact ⟨by rw [hb.1, hb.2]; rfl, rfl⟩
    · cases h
  case h_5 =>
    split at h
    next hlen =>
      split at h
      next hb =>
        cases h
        refine ⟨?_, decide_eq_true (by simp [hlen])⟩
        rw [encode, List.append_assoc, take_append_lastTwo hlen, hb.1, hb.2]
        rfl
      · cases h
    split at h
    next hlen =>
      split at h
      next hb =>
        cases h
        refine ⟨?_, keyUid_lengths hlen⟩
        rw [encode, List.append_assoc, List.take_append_drop, hb]
        rfl
      split at h
      next hb =>
        cases h
        refine ⟨?_, keyUid_lengths hlen⟩
        rw [encode, List.append_assoc, List.take_append_drop, hb]
        rfl
      · cases h
    · cases h

/-- Settles O2: by the layer of the word, each row read backwards. -/
theorem encodeOfDecodeIsTheWord : Obligations.EncodeOfDecodeIsTheWord := by
  rintro cfg ⟨layer, bytes⟩ i h
  cases layer with
  | host =>
    match bytes, h with
    | _ :: _, h => exact spells_of_decodeHost h
  | bus =>
    match bytes, h with
    | [_, _], h => exact spells_of_decodeBus h
  | tag => exact spells_of_decodeTag h
  | chip =>
    match bytes, h with
    | [_], h => exact spells_of_decodeChip h

/-- Settles O3: the rows compute. -/
theorem decodedWordsOfTheSpec : Obligations.DecodedWordsOfTheSpec :=
  ⟨fun _ => ⟨rfl, rfl, rfl, rfl, rfl, rfl, rfl, rfl, rfl, rfl, rfl⟩, rfl⟩

/-! ### Words outside the table -/

/-- A code in a gap of the table spells nothing (R95). -/
theorem decodeHost_unassigned {op : Byte} (args : List Byte)
    (h : op.toNat = 0x00 ∨ (0x07 ≤ op.toNat ∧ op.toNat ≤ 0x0F) ∨ (0x15 ≤ op.toNat ∧ op.toNat ≤ 0x1F) ∨
      (0x25 ≤ op.toNat ∧ op.toNat ≤ 0x2F) ∨ 0x34 ≤ op.toNat) :
    decodeHost op args = .error .unknownOp := by
  unfold decodeHost
  split
  case h_21 => rfl
  all_goals
    exfalso
    omega

/-- The length that the table reads off a word is settled once the word is that long: the bytes after it do not matter (R98). -/
theorem hostLength_append {bytes : List Byte} (more : List Byte) (h : hostLength bytes = some bytes.length) :
    hostLength (bytes ++ more) = some bytes.length := by
  match bytes, h with
  | [b0], h =>
    simp only [hostLength, List.cons_append, List.getD_cons_zero] at h ⊢
    split at h <;> simp_all
  | [b0, b1], h =>
    simp only [hostLength, List.cons_append, List.getD_cons_zero, List.getD_cons_succ] at h ⊢
    split at h <;> simp_all
  | b0 :: b1 :: b2 :: rest, h => exact h

/-- The encoder writes as many bytes as the word announces (R85, R98). -/
theorem hostLength_encode (cfg : Config) {i : Instr} (hwf : i.wellFormed = true) (hl : (encode cfg i).layer = .host) :
    hostLength (encode cfg i).bytes = some (encode cfg i).bytes.length := by
  cases i with
  | computeCrc data =>
    have hlen : (lenByte data).toNat = data.length := lenByte_toNat (of_decide_eq_true hwf)
    change some (2 + (lenByte data).toNat) = some (data.length + 2)
    rw [hlen, Nat.add_comm]
  | cardWrite command data =>
    have hlen : (lenByte data).toNat = data.length := lenByte_toNat (of_decide_eq_true hwf)
    change some (3 + (lenByte data).toNat) = some (data.length + 3)
    rw [hlen, Nat.add_comm]
  | selectTag uid => exact congrArg some (EncodedLength.selectTag uid hwf cfg).symm
  | cardAuth mode block key uid => exact congrArg some (EncodedLength.cardAuth mode block key uid hwf cfg).symm
  | write block data => exact congrArg some (EncodedLength.write block data hwf cfg).symm
  | regWrite | regRead | setBits | clearBits | request | anticoll | anticoll2 | readId | read | halt | stopCrypto
  | setAntennaGain | init | cleanup | waitForTag => rfl
  | busWriteFrame | busReadFrame | tagRequest | tagAnticoll1 | tagAnticoll2 | tagSelect | tagAuthA | tagAuthB | tagRead
  | tagWritePhase1 | tagWritePhase2 | tagHalt | cmdIdle | cmdCalcCrc | cmdTransceive | cmdAuthent | cmdSoftReset => cases hl

/-- A word the decoder takes on the host port has the length it announces. -/
theorem hostLength_of_decode {cfg : Config} {bytes : List Byte} {i : Instr} (h : decode cfg ⟨.host, bytes⟩ = .ok i) :
    hostLength bytes = some bytes.length := by
  obtain ⟨he, hwf⟩ := encodeOfDecodeIsTheWord cfg _ i h
  have hlen := hostLength_encode cfg hwf (by rw [he])
  rwa [he] at hlen

/-- An operation word cut short spells nothing: what is left would announce its own length, and the whole word announces a longer one. -/
theorem decode_cut_short (cfg : Config) {i : Instr} {bytes : List Byte} (hwf : i.wellFormed = true)
    (hl : (encode cfg i).layer = .host) (hcut : bytes <+: (encode cfg i).bytes) (hne : bytes ≠ (encode cfg i).bytes) :
    ∃ e, decode cfg ⟨.host, bytes⟩ = .error e := by
  cases hd : decode cfg ⟨.host, bytes⟩ with
  | error e => exact ⟨e, rfl⟩
  | ok j =>
    exfalso
    apply hne
    apply hcut.eq_of_length
    obtain ⟨more, hmore⟩ := hcut
    have hcutLength := hostLength_append more (hostLength_of_decode hd)
    rw [hmore, hostLength_encode cfg hwf hl] at hcutLength
    exact (Option.some.inj hcutLength).symm

end Sys2Proof.Proofs.Codec
end

section
/-! SUPPORT. What one step is (rules R24, R95, R233, R248, R264 of spec/): the line's edge, and then one of four things, by what the engine
finds when it looks for work. -/

namespace Sys2Proof.Proofs.Stepping

open Sys2Proof Sys2Proof.Machine Sys2Proof.Laws Host

/-! ### The interrupt line -/

/-- The line's edge, as far as the signal and the script of edges tell it (R24, R233). -/
theorem sampleLine_edge {s : State} (h : s.irqPresent = true) :
    ∃ edge : Bool, (sampleLine s).signal = (s.signal || edge) ∧
      ∀ e rest, s.env.edges = e :: rest → edge = e ∧ (sampleLine s).env.edges = rest := by
  unfold sampleLine
  rw [if_pos h]
  split
  next e rest he => exact ⟨e, rfl, fun _ _ h => by cases he.symm.trans h; exact ⟨rfl, rfl⟩⟩
  next he => exact ⟨_, rfl, fun _ _ h => by cases he.symm.trans h⟩

/-- Settles O7: the edge is the next scripted one or a free one; what the line leaves is `sampleLine_same`. -/
theorem lineEdgeSetsTheSignal : Obligations.LineEdgeSetsTheSignal := by
  intro s
  refine ⟨fun h => if_neg (by simp [h]), fun h => ?_⟩
  obtain ⟨edge, hsignal, hedges⟩ := sampleLine_edge h
  exact ⟨edge, hsignal, hedges, sampleLine_same s⟩

@[simp] theorem sampleLine_cfg (s : State) : (sampleLine s).cfg = s.cfg := (sampleLine_same s).1.1
@[simp] theorem sampleLine_waiting (s : State) : (sampleLine s).waiting = s.waiting := (sampleLine_same s).2.2.2.2.1
@[simp] theorem sampleLine_port (s : State) : (sampleLine s).port = s.port := (sampleLine_same s).2.2.2.2.2.1

/-! ### The four steps -/

theorem step_of_waiting {s : State} {w : Waiting} (h : s.waiting = some w) :
    step s = .next (resumeWait w (sampleLine s)) := by
  simp [step, fetch, h]

theorem step_of_nothing {s : State} (hw : s.waiting = none) (hp : s.port = []) : step s = .next (sampleLine s) := by
  simp [step, fetch, hw, hp]

theorem step_of_word {s : State} {w : PortWord} {rest : List PortWord} {i : Instr} (hw : s.waiting = none)
    (hp : s.port = w :: rest) (hd : decode s.cfg w = .ok i) : step s = exec i (takeWord rest (sampleLine s)) := by
  simp [step, fetch, hw, hp, hd]

theorem step_of_unknown {s : State} {w : PortWord} {rest : List PortWord} {e : DecodeError} (hw : s.waiting = none)
    (hp : s.port = w :: rest) (hd : decode s.cfg w = .error e) :
    step s = .next (reject .unknownOp (takeWord rest (sampleLine s))) := by
  simp [step, fetch, hw, hp, hd]

/-- What every step keeps: it is enough that the four steps keep it. -/
theorem step_induction {P : State → State → Prop} {s t : State} (h : step s = .next t)
    (resumed : ∀ w, s.waiting = some w → P s (resumeWait w (sampleLine s)))
    (waited : P s (sampleLine s))
    (ran : ∀ i rest t, exec i (takeWord rest (sampleLine s)) = .next t → P s t)
    (refused : ∀ rest, P s (reject .unknownOp (takeWord rest (sampleLine s)))) : P s t := by
  cases hw : s.waiting with
  | some w =>
    cases (step_of_waiting hw).symm.trans h
    exact resumed w hw
  | none =>
    cases hp : s.port with
    | nil =>
      cases (step_of_nothing hw hp).symm.trans h
      exact waited
    | cons w rest =>
      cases hd : decode s.cfg w with
      | ok i => exact ran i rest t ((step_of_word hw hp hd).symm.trans h)
      | error e =>
        cases (step_of_unknown hw hp hd).symm.trans h
        exact refused rest

/-- Settles O5: the word is what the engine finds. -/
theorem stepRunsTheDecodedOperation : Obligations.StepRunsTheDecodedOperation :=
  fun _ _ _ _ => step_of_word

/-- Settles O6: with a wait running the engine finds it first, and with nothing offered it finds nothing. -/
theorem stepWithoutAWord : Obligations.StepWithoutAWord :=
  ⟨fun _ _ => step_of_waiting, fun _ => step_of_nothing⟩

/-- A refused word is answered with the rejection, taken from the channel, and moves nothing but the signal (R95). -/
theorem step_refuses {s : State} {w : PortWord} {rest : List PortWord} {e : DecodeError} (hw : s.waiting = none)
    (hp : s.port = w :: rest) (hd : decode s.cfg w = .error e) :
    ∃ t, step s = .next t ∧ Effect [] [] [] .rejected .unknownOp s t ∧ t.port = rest ∧ t.waiting = none ∧
      SameConfig s t ∧ t.authed = s.authed ∧ t.gain = s.gain ∧ t.pstate = s.pstate ∧ t.signal = (sampleLine s).signal := by
  obtain ⟨hconfig, hauthed, hgain, hpstate, hwaiting, -, hresults, htrace, hregs, hchip, -⟩ := sampleLine_same s
  exact ⟨_, step_of_unknown hw hp hd, no_traffic htrace hchip hregs (by simp [hresults]), rfl, by simp [hw], hconfig, hauthed, hgain,
    hpstate, rfl⟩

/-- Settles O4: the gaps of the table, then words cut short, then the step of a refused word. -/
theorem wordsOutsideTheTableAreRejected : Obligations.WordsOutsideTheTableAreRejected :=
  ⟨fun _ _ args h => Codec.decodeHost_unassigned args h,
    fun cfg _ _ hwf hl hcut hne => Codec.decode_cut_short cfg hwf hl hcut hne,
    fun _ _ _ _ hw hp hd => step_refuses hw hp hd⟩

end Sys2Proof.Proofs.Stepping
end

section
/-! SUPPORT. The computed fields: aliasing addresses (R51, R89), the gain field (R90), the response bit length (R91), the number of a UID
(R56, R92). -/

namespace Sys2Proof.Proofs.Fields

open Sys2Proof Sys2Proof.Machine Sys2Proof.Laws

/-! ### Addresses -/

theorem and_addressMask_idem (a : Byte) : (a &&& 0x3F) &&& (0x3F : Byte) = a &&& 0x3F := by
  rw [BitVec.and_assoc, BitVec.and_self]

theorem location_and (a : Byte) : location (a &&& 0x3F) = location a := by
  rw [location, and_addressMask_idem, location]

theorem addrByte_and (a : Byte) (r : Bool) : addrByte (a &&& 0x3F) r = addrByte a r := by
  rw [addrByte, Encoding.shiftLeft_and_frameMask, and_addressMask_idem, ← Encoding.shiftLeft_and_frameMask, addrByte]

theorem regWrite_and (a v : Byte) (s : State) : regWrite (a &&& 0x3F) v s = regWrite a v s := by
  simp only [regWrite, addrByte_and, location_and]

theorem regRead_and (a : Byte) (s : State) : regRead (a &&& 0x3F) s = regRead a s := by
  simp only [regRead, addrByte_and]

theorem setBits_and (a m : Byte) (s : State) : setBits (a &&& 0x3F) m s = setBits a m s := by
  simp only [setBits, regRead_and, regWrite_and]

theorem clearBits_and (a m : Byte) (s : State) : clearBits (a &&& 0x3F) m s = clearBits a m s := by
  simp only [clearBits, regRead_and, regWrite_and]

/-- Settles O9: an access depends on its operand through the address byte and the location, and both through its low six bits. -/
theorem addressesAbove3FAlias : Obligations.AddressesAbove3FAlias := by
  refine ⟨fun a v s => ⟨location_lt a, (location_and a).symm, ?_, ?_, ?_, ?_⟩, by decide⟩
  · simp only [exec, execRegWrite, regWrite_and]
  · simp only [exec, execRegRead, regRead_and]
  · simp only [exec, execSetBits, setBits_and]
  · simp only [exec, execClearBits, clearBits_and]

/-! ### The gain field -/

theorem gainField_toNat : ∀ g : BitVec 3, (gainField g).toNat = 16 * g.toNat := by decide

/-- A three-bit gain as an operand is in range. -/
theorem gainInRange_setWidth : ∀ g : BitVec 3, gainInRange (gainOperand (g.setWidth 8)) = true := by decide

theorem setWidth_gain : ∀ g : BitVec 3, (g.setWidth 8).setWidth 3 = g := by decide

/-- SET_ANTENNA_GAIN with an operand in range: the register, one write of the shifted gain, the result (R200). -/
theorem exec_setAntennaGain {gain : Byte} (s : State) (h : gainInRange (gainOperand gain) = true) :
    exec (.setAntennaGain gain) s = .next (complete .done .eNone
      (regWrite s.cfg.aRfCfg (gainField (gain.setWidth 3)) (setGain (gain.setWidth 3) s))) :=
  if_pos h

/-- Settles O10: the field is evaluated over the eight gains, and SET_ANTENNA_GAIN makes the one write of it. -/
theorem gainFieldAssembly : Obligations.GainFieldAssembly := by
  refine ⟨gainField_toNat, by decide, fun _ => rfl, fun g s => ⟨_, exec_setAntennaGain s (gainInRange_setWidth g), ?_⟩, rfl⟩
  rw [setWidth_gain]
  exact (regWrite_ran s.cfg.aRfCfg (gainField g) (setGain g s)).trace

/-! ### The response bit length -/

theorem responseBits_of_ne {level lastBits : Byte} (h : lastBits ≠ 0) :
    responseBits level lastBits = ((level.toNat : Int) - 1) * 8 + lastBits.toNat := if_pos h

theorem responseBits_of_eq {level lastBits : Byte} (h : lastBits = 0) :
    responseBits level lastBits = (level.toNat : Int) * 8 := if_neg (fun hne => hne h)

/-- With a last-bits field of at most 7 the bit length is between -7 and 2040, the ends being level 0 and level 255 (R91). -/
theorem responseBits_range {level lastBits : Byte} (h : lastBits.toNat ≤ 7) :
    -7 ≤ responseBits level lastBits ∧ responseBits level lastBits ≤ 2040 := by
  have hlevel := level.isLt
  by_cases hz : lastBits = 0
  · rw [responseBits_of_eq hz]
    omega
  · have hpos : lastBits.toNat ≠ 0 := fun h0 => hz (BitVec.eq_of_toNat_eq h0)
    rw [responseBits_of_ne hz]
    omega

/-- Settles O11: the two cases of the definition and their range. -/
theorem responseBitLength : Obligations.ResponseBitLength :=
  fun _ _ => ⟨responseBits_of_ne, responseBits_of_eq, responseBits_range, rfl⟩

/-! ### The number of a UID -/

@[simp] theorem number_nil : number [] = 0 := rfl

theorem number_concat (u : List Byte) (b : Byte) : number (u ++ [b]) = number u * 256 + b.toNat := by
  simp [number]

/-- Each byte in front counts 256 to the power of the bytes after it. -/
theorem number_cons (b : Byte) (u : List Byte) : number (b :: u) = b.toNat * 256 ^ u.length + number u := by
  induction u using List.reverseRecOn with
  | nil => simp [number]
  | append_singleton u c ih =>
    rw [← List.cons_append, number_concat, number_concat, ih, List.length_append, List.length_singleton, pow_succ]
    ring

/-- The number of a byte sequence is big-endian (R56). -/
theorem number_eq_sum (u : List Byte) :
    number u = ((List.range u.length).map fun i => (u.getD i 0).toNat * 256 ^ (u.length - 1 - i)).sum := by
  induction u with
  | nil => rfl
  | cons b u ih =>
    rw [number_cons, ih, List.length_cons, List.range_succ_eq_map, List.map_cons, List.sum_cons, List.map_map]
    have htail : ∀ i, u.length - 1 - i = u.length - (i + 1) := by omega
    simp [Function.comp_def, htail]

theorem number_lt (u : List Byte) : number u < 256 ^ u.length := by
  induction u using List.reverseRecOn with
  | nil => simp
  | append_singleton u b ih =>
    have hb := b.isLt
    rw [number_concat, List.length_append, List.length_singleton, pow_succ]
    omega

/-- A field of `m` bytes of a number, high byte first. -/
def bytesOf (m n : Nat) : List Byte := (List.range m).map fun i => BitVec.ofNat 8 (n / 256 ^ (m - 1 - i))

theorem numberField_eq (k n : Nat) : numberField k n = BitVec.ofNat 8 k :: bytesOf 7 n := rfl

/-- The last byte of a field is the number's lowest, and those before it are the field of the rest. -/
theorem bytesOf_succ (m n : Nat) : bytesOf (m + 1) n = bytesOf m (n / 256) ++ [BitVec.ofNat 8 n] := by
  unfold bytesOf
  rw [List.range_succ, List.map_append]
  congr 1
  · apply List.map_congr_left
    intro i hi
    have hlt : i < m := List.mem_range.mp hi
    rw [Nat.div_div_eq_div_mul, ← pow_succ']
    congr 3
    omega
  · simp

/-- A field that is wide enough holds the bytes at its right end, zeros before them. -/
theorem bytesOf_number {m : Nat} {u : List Byte} (h : u.length ≤ m) :
    bytesOf m (number u) = List.replicate (m - u.length) 0x00 ++ u := by
  induction m generalizing u with
  | zero =>
    have hu : u = [] := List.length_eq_zero_iff.mp (Nat.le_zero.mp h)
    rw [hu]
    rfl
  | succ m ih =>
    rw [bytesOf_succ]
    cases u using List.reverseRecOn with
    | nil =>
      have hzero := ih (u := []) (Nat.zero_le m)
      rw [number_nil] at hzero ⊢
      rw [Nat.zero_div, hzero]
      simp [List.replicate_succ']
    | append_singleton u b =>
      rw [List.length_append, List.length_singleton] at h ⊢
      have hb := b.isLt
      have hdiv : number (u ++ [b]) / 256 = number u := by
        rw [number_concat]
        omega
      have hlow : BitVec.ofNat 8 (number (u ++ [b])) = b := by
        apply BitVec.eq_of_toNat_eq
        rw [BitVec.toNat_ofNat, number_concat]
        omega
      rw [hdiv, hlow, ih (by omega), List.append_assoc, Nat.add_sub_add_right]

/-- Settles O13: the field of seven bytes is wide enough. -/
theorem numberFieldHoldsTheUid : Obligations.NumberFieldHoldsTheUid :=
  fun u h => ⟨number_lt u, by rw [numberField_eq, bytesOf_number h]⟩

end Sys2Proof.Proofs.Fields
end

section
/-! SUPPORT. What each operation over the bus leaves, assembled from the runs of Laws/Sequences.lean: its events, its one result and what
it does to `authed` and `pstate` (rules R80 to R82, R112, R113, R130 to R135, R140 to R153, R160 to R166, R180 to R186 of spec/). -/

namespace Sys2Proof.Proofs.Operations

open Sys2Proof Sys2Proof.Machine Sys2Proof.Laws Host

variable {s t u : State} {evs : List Event} {as : List Byte} {locs : List Nat} {N : Nat}

/-! ### How an operation on the tag ends -/

/-- A run, then `pstate` and the result. -/
theorem ran_complete_pstate (h : Ran evs as s u) (w : Within s.csPresent locs evs N) (r : Result) (c : Cause) (p : PState) :
    Effect locs evs as r c s (complete r c (setPState p u)) ∧ SameBesidesTag s (complete r c (setPState p u)) ∧
      (complete r c (setPState p u)).authed = s.authed ∧ (complete r c (setPState p u)).pstate = p := by
  obtain ⟨hconfig, hports, hauthed, hgain, -, hsignal⟩ := h.same
  exact ⟨h.effect w rfl rfl rfl rfl, ⟨hconfig, hports, hgain, hsignal⟩, hauthed, rfl⟩

/-- A run, then both registers that follow the tag, and the result. -/
theorem ran_complete_tag (h : Ran evs as s u) (w : Within s.csPresent locs evs N) (r : Result) (c : Cause) (b : Bool) (p : PState) :
    Effect locs evs as r c s (complete r c (setPState p (setAuthed b u))) ∧
      SameBesidesTag s (complete r c (setPState p (setAuthed b u))) ∧
      (complete r c (setPState p (setAuthed b u))).authed = b ∧ (complete r c (setPState p (setAuthed b u))).pstate = p := by
  obtain ⟨hconfig, hports, -, hgain, -, hsignal⟩ := h.same
  exact ⟨h.effect w rfl rfl rfl rfl, ⟨hconfig, hports, hgain, hsignal⟩, rfl, rfl⟩

/-! ### Register accesses and bus frames -/

/-- The last write frame of a run is what its location then holds (R110). -/
theorem get_of_last_write {xs : List Event} {a v : Byte} (h : Ran (onBus s.csPresent (xs ++ [wr a v])) as s t) :
    Memory.get (location a) t.chipRegs = some v := by
  rw [h.chipRegs, onBus_append, replay_append, replay_write, get_set_same]

/-- A complement in eight bits, as the rule of CLEAR_BITS writes it (R113). -/
theorem clear_eq_not (v mask : Byte) : v &&& (0xFF ^^^ mask) = v &&& ~~~mask :=
  congrArg (v &&& ·) BitVec.allOnes_xor

theorem clearXfers_eq (a mask v : Byte) : clearXfers a mask v = [rd a v, wr a (v &&& ~~~mask)] := by
  rw [clearXfers, clear_eq_not]

/-- A read and then a write of one register, as a whole operation (R112, R113). -/
theorem readThenWrite_complete {a v w : Byte} (h : Ran (onBus s.csPresent [rd a v, wr a w]) [v] s u) :
    Effect [location a] (onBus s.csPresent [rd a v, wr a w]) [v] .done .eNone s (complete .done .eNone u) ∧
      Memory.get (location a) (complete .done .eNone u).chipRegs = some w ∧ SameEngine s (complete .done .eNone u) := by
  obtain ⟨heffect, hsame⟩ := h.complete (two_within ..) .done .eNone
  have hget : Memory.get (location a) u.chipRegs = some w := get_of_last_write (xs := [rd a v]) h
  exact ⟨heffect, hget, hsame⟩

/-- Settles O17: a read and a write, of the byte with the bits set or cleared. -/
theorem setAndClearBitsReadThenWrite : Obligations.SetAndClearBitsReadThenWrite := by
  intro addr mask s
  obtain ⟨v, hset⟩ := setBits_ran addr mask s
  obtain ⟨v', hclear⟩ := clearBits_ran addr mask s
  rw [clearXfers_eq] at hclear
  exact ⟨⟨_, v, rfl, readThenWrite_complete hset⟩, _, v', rfl, readThenWrite_complete hclear⟩

/-- A bus frame's first byte holds the address where an access puts it (R80, R89). -/
theorem frame_of_address : ∀ a : BitVec 6, ((a.setWidth 8 : Byte) <<< 1) &&& 0x7E = 0#1 ++ a ++ 0#1 ∧
    (((a.setWidth 8 : Byte) <<< 1) &&& 0x7E) ||| 0x80 = 1#1 ++ a ++ 0#1 := by decide

theorem wr_of_address (a : BitVec 6) (v : Byte) : wr (a.setWidth 8) v = .xferWrite (0#1 ++ a ++ 0#1) v := by
  rw [wr, (frame_of_address a).1]

theorem rd_of_address (a : BitVec 6) (v : Byte) : rd (a.setWidth 8) v = .xferRead (1#1 ++ a ++ 0#1) 0x00 v := by
  rw [rd, (frame_of_address a).2]

theorem exec_busWriteFrame (address : BitVec 6) (value : Byte) (s : State) :
    ∃ t, exec (.busWriteFrame address value) s = .next t ∧
      Effect [address.toNat] (onBus s.csPresent [.xferWrite (0#1 ++ address ++ 0#1) value]) [] .done .eNone s t ∧
      Memory.get address.toNat t.chipRegs = some value ∧ SameEngine s t ∧ t.env = s.env := by
  obtain ⟨t, ht, heffect, hget, hsame, henv⟩ := RegisterAccess.exec_regWrite (address.setWidth 8) value s
  rw [location_extend, wr_of_address] at heffect
  rw [location_extend] at hget
  exact ⟨t, ht, heffect, hget, hsame, henv⟩

theorem exec_busReadFrame (address : BitVec 6) (s : State) :
    ∃ t v, exec (.busReadFrame address) s = .next t ∧
      Effect [] (onBus s.csPresent [.xferRead (1#1 ++ address ++ 0#1) 0x00 v]) [v] (.value v) .eNone s t ∧ SameEngine s t := by
  obtain ⟨t, v, ht, heffect, hsame⟩ := RegisterAccess.exec_regRead (address.setWidth 8) s
  rw [rd_of_address] at heffect
  exact ⟨t, v, ht, heffect, hsame⟩

/-- Settles O18: a frame is the access to the address it holds. -/
theorem busFramesAreOneTransaction : Obligations.BusFramesAreOneTransaction :=
  fun address value s => ⟨⟨Codec.decodeBus_write address value, exec_busWriteFrame address value s⟩,
    Codec.decodeBus_read address, exec_busReadFrame address s⟩

/-- One write of the command register, as a whole operation (R31). -/
theorem issueCode_effect (code : Byte) (s : State) : ∃ t, issueCode code s = .next t ∧
    Effect [location s.cfg.aCommand] (onBus s.csPresent [wr s.cfg.aCommand code]) [] .done .eNone s t ∧
    Memory.get (location s.cfg.aCommand) t.chipRegs = some code ∧ SameEngine s t ∧ t.env = s.env :=
  RegisterAccess.exec_regWrite s.cfg.aCommand code s

/-- Settles O45: each command is the issue of its code. -/
theorem chipCommandsAreOneWrite : Obligations.ChipCommandsAreOneWrite := by
  intro s i code h
  simp only [List.mem_cons, Prod.mk.injEq, List.not_mem_nil, or_false] at h
  rcases h with ⟨rfl, rfl⟩ | ⟨rfl, rfl⟩ | ⟨rfl, rfl⟩ | ⟨rfl, rfl⟩ | ⟨rfl, rfl⟩ <;> exact issueCode_effect _ s

/-! ### COMPUTE_CRC -/

theorem exec_computeCrc (data : List Byte) (s : State) :
    ∃ t evs answers lo hi, exec (.computeCrc data) s = .next t ∧ CrcRun s.cfg s.csPresent data evs answers lo hi ∧
      Effect (crcLocs s.cfg) evs answers (.crc lo hi) .eNone s t ∧ SameEngine s t := by
  obtain ⟨evs, answers, hrun, hran⟩ := computeCrc_ran data s
  exact ⟨_, evs, answers, _, _, rfl, hrun, hran.complete (crcRun_within hrun) _ _⟩

/-- Settles O19: the word by its row, the operation by its run. -/
theorem computeCrcFollowsItsSteps : Obligations.ComputeCrcFollowsItsSteps :=
  fun data s => ⟨Codec.decode_computeCrc s.cfg, exec_computeCrc data s⟩

/-! ### CARD_WRITE -/

theorem exec_cardWrite (command : Byte) (data : List Byte) (s : State) :
    ∃ t evs answers r, exec (.cardWrite command data) s = .next t ∧
      CardWriteRun s.cfg s.csPresent command data evs answers r ∧
      Effect (executorLocs s.cfg) evs answers (.executed r.error r.resp r.rlen) r.cause s t ∧ SameEngine s t := by
  obtain ⟨evs, answers, hrun, hran⟩ := cardWrite_ran command data s
  exact ⟨_, evs, answers, _, rfl, hrun, hran.complete (cardWriteRun_within hrun) _ _⟩

/-- Settles O20: the word by its row, the operation by its run. -/
theorem cardWriteFollowsItsSteps : Obligations.CardWriteFollowsItsSteps :=
  fun command data s => ⟨Codec.decode_cardWrite s.cfg command, exec_cardWrite command data s⟩

/-- A warning's result: its cause is the E1 test, and a response comes from transceive alone (R150, R151). -/
theorem warnRun_result {c : Config} {cs : Bool} {command n : Byte} {r : Exec} (h : WarnRun c cs command n evs as r) :
    r.cause = (if n &&& chosenIen c command &&& c.e1Mask ≠ 0 then .eSoftE1 else .eNone) ∧
      (r.resp ≠ [] ∨ r.rlen ≠ 0 → command = c.cmdTransceive) := by
  obtain ⟨_, -, herror, hcause, -, hother⟩ := h
  refine ⟨by rw [hcause, herror]; simp, fun hresp => ?_⟩
  by_contra hne
  obtain ⟨-, -, hnil, hzero⟩ := hother hne
  exact hresp.elim (absurd hnil) (absurd hzero)

/-- Settles O21: read off the three ends of the run. -/
theorem executorResult : Obligations.ExecutorResult := by
  intro command data s
  obtain ⟨t, evs, answers, r, ht, hrun, ⟨htrace, -, hresult, -⟩, -⟩ := exec_cardWrite command data s
  have hflag : r.error = true ↔ r.cause ≠ .eNone := by rw [cardWriteRun_consistent hrun, decide_eq_true_iff]
  have hlen := (cardWriteRun_resp hrun).1
  obtain ⟨clr, flush, frm, polls, stop, n, completed, tail, tailAnswers, hpoll, rfl, -, hend⟩ := hrun
  refine ⟨t, clr, flush, frm, polls, stop, n, completed, tail, r.error, r.resp, r.rlen, r.cause, ht, htrace, hpoll, hresult, ?_, ?_,
    hflag, ?_, hlen⟩
  · rintro rfl
    rcases hend with ⟨-, htail, -, rfl⟩ | ⟨hc, -⟩ | ⟨hc, -⟩
    · exact ⟨htail, rfl⟩
    · cases hc
    · cases hc
  · rintro rfl
    rcases hend with ⟨hc, -⟩ | ⟨-, e, he, htail, -, rfl⟩ | ⟨-, e, wevs, wans, he, htail, -, hwarn⟩
    · cases hc
    · exact ⟨e, [], by rw [htail, List.append_nil], fun _ => ⟨rfl, rfl⟩, fun h0 => absurd h0 he⟩
    · exact ⟨e, wevs, htail, fun hne => absurd he hne, fun _ => (warnRun_result hwarn).1⟩
  · intro hresp
    rcases hend with ⟨-, -, -, rfl⟩ | ⟨-, e, -, -, -, rfl⟩ | ⟨hc, e, wevs, wans, -, -, -, hwarn⟩
    · simp at hresp
    · simp at hresp
    · obtain ⟨hcause, hcommand⟩ := warnRun_result hwarn
      refine ⟨hcommand hresp, hc, ?_⟩
      rw [hcause]
      split
      · exact .inr rfl
      · exact .inl rfl

/-- Answers that come before the script ends are among the script's (R15). -/
theorem mem_script_of_answered {pre post : List Byte} (h : Answered (pre ++ post) s t) (hl : pre.length ≤ s.env.chip.length) :
    ∀ b ∈ pre, b ∈ s.env.chip := by
  have hscript : s.env.chip.take pre.length <+: pre ++ post :=
    ((List.take_prefix_take_left (by simp)).trans h.1)
  have heq : s.env.chip.take pre.length = pre := by
    have hpre := List.prefix_of_prefix_length_le hscript (List.prefix_append pre post) (by simp)
    exact hpre.eq_of_length (by simp [hl])
  intro b hb
  rw [← heq] at hb
  exact List.mem_of_mem_take hb

/-- The answers of the executor up to the end of its poll. -/
theorem executorAnswers_eq (c : Config) (command clr flush frm stop : Byte) (polls rest : List Byte) :
    executorAnswers c command clr flush frm polls stop ++ rest =
      ([clr, flush] ++ (if command = c.cmdTransceive then [frm] else []) ++ polls) ++ (stop :: rest) := by
  simp [executorAnswers]

/-- Settles O22: the poll reads at most 2000 of at least 2004 scripted answers, none of which ends it, so the poll is exhausted; the
count is the traffic of that end. -/
theorem exhaustedPollIsATimeout : Obligations.ExhaustedPollIsATimeout := by
  intro command data s hlen hquiet
  obtain ⟨t, evs, answers, r, ht, hrun, ⟨htrace, hanswered, hresult, -⟩, hsame⟩ := exec_cardWrite command data s
  obtain ⟨clr, flush, frm, polls, stop, n, completed, tail, tailAnswers, hpoll, hevs, rfl, hend⟩ := hrun
  obtain ⟨-, hbudget, hexhausted⟩ := pollAnswers_length hpoll
  have hnotDone : completed = false := by
    rw [executorAnswers_eq] at hanswered
    obtain ⟨before, hpolls, -, hstop, -⟩ := hpoll
    have hn := mem_script_of_answered hanswered (by split <;> simp <;> omega) n (by simp [hpolls])
    rw [← hstop, hquiet n hn]
  rcases hend with ⟨-, rfl, -, rfl⟩ | ⟨hc, -⟩ | ⟨hc, -⟩
  · refine ⟨t, evs, ht, htrace, hresult, hsame, ?_⟩
    rw [hevs, List.append_nil, (executorXfers_traffic command data clr flush frm polls stop).count, hexhausted hnotDone]
    split <;> omega
  · cases hnotDone.symm.trans hc
  · cases hnotDone.symm.trans hc

/-- Settles O23: the traffic of the two runs. -/
theorem transactionCountsOfCrcAndExecutor : Obligations.TransactionCountsOfCrcAndExecutor := by
  constructor
  · intro data s
    obtain ⟨t, evs, answers, lo, hi, ht, hrun, ⟨htrace, -⟩, -⟩ := exec_computeCrc data s
    obtain ⟨clr, flush, polls, hevs, hpos, hle, htraffic⟩ := crcRun_traffic hrun
    exact ⟨t, evs, clr, flush, polls, lo, hi, ht, htrace, hevs, hpos, hle, htraffic.count⟩
  · intro command data s
    obtain ⟨t, evs, answers, r, ht, hrun, ⟨htrace, -, hresult, -⟩, -⟩ := exec_cardWrite command data s
    obtain ⟨clr, flush, frm, polls, stop, tail, hevs, hpos, hle, htimeout, htraffic⟩ := cardWriteRun_traffic hrun
    exact ⟨t, evs, clr, flush, frm, polls, stop, tail, r.error, r.resp, r.rlen, r.cause, ht, htrace, hevs, hresult, hpos, hle, htimeout,
      htraffic.count⟩

end Sys2Proof.Proofs.Operations
end

section
/-! SUPPORT. The operations on the tag, each from its run: what it sends, how its answer is judged, and where it leaves `authed` and
`pstate` (rules R160 to R168, R180 to R187, R204 of spec/), and the tag frames by themselves (rules R86 to R88). -/

namespace Sys2Proof.Proofs.TagOperations

open Sys2Proof Sys2Proof.Machine Sys2Proof.Laws Sys2Proof.Proofs.Operations Host

/-! ### The UID sequencer -/

/-- An answer of the right bit length is what success of REQUEST reports (R160). -/
theorem requestRun_rlen {c : Config} {cs : Bool} {mode : Byte} {evs : List Event} {answers : List Byte} {r : Exec} {v : Cause}
    (h : RequestRun c cs mode evs answers r v) (hv : v = .eNone) : r.rlen = 16 := by
  obtain ⟨_, -, hrun, rfl⟩ := h
  exact of_decide_eq_true (judge_eNone (cardWriteRun_consistent hrun) (by decide) hv).2

/-- Settles O24: the judged run, whose bit length is 16 on success. -/
theorem requestFollowsItsSteps : Obligations.RequestFollowsItsSteps := by
  intro mode s
  obtain ⟨evs, answers, r, v, u, hrun, ⟨hcause, herror, -, hrlen⟩, hran, hend⟩ := request_ran mode s
  have hexec : exec (.request mode) s = .next (complete (if v = .eNone then .answered false 16 else .answered true 0) v
      (setPState (if v = .eNone then .requested else s.pstate) u)) := by
    simp only [exec, execRequest, hend, hcause, herror, hrlen]
    by_cases hv : v = .eNone
    · simp [hv, requestRun_rlen hrun hv]
    · simp [hv]
  exact ⟨_, evs, answers, r, v, hexec, hrun, ran_complete_pstate hran (requestRun_within hrun).1 ..⟩

/-- ANTICOLL or ANTICOLL2, by the select code it sends (R161 to R163). -/
theorem anticoll_complete (sel : Byte) (s : State) :
    ∃ t evs answers r v,
      (.next (complete (.bytes (anticollBody sel s).1.error (anticollBody sel s).1.resp) (anticollBody sel s).1.cause
        (anticollBody sel s).2) : Outcome State Fault Refusal) = .next t ∧
      AnticollRun s.cfg s.csPresent sel evs answers r v ∧
      Effect (executorLocs s.cfg) evs answers (.bytes (decide (v ≠ .eNone)) r.resp) v s t ∧
      SameBesidesTag s t ∧ t.authed = s.authed ∧ t.pstate = (if v = .eNone then .uidPartial else s.pstate) := by
  obtain ⟨evs, answers, r, v, u, hrun, ⟨hcause, herror, hresp, -⟩, hran, hend⟩ := anticollBody_ran sel s
  rw [hend, hcause, herror, hresp]
  exact ⟨_, evs, answers, r, v, rfl, hrun, ran_complete_pstate hran (anticollRun_within hrun).1 ..⟩

/-- Settles O25: one body for the two select codes. -/
theorem anticollFollowsItsSteps : Obligations.AnticollFollowsItsSteps :=
  fun s => ⟨anticoll_complete selectCode1 s, anticoll_complete selectCode2 s⟩

theorem exec_selectTag {uid : List Byte} (s : State) (hu : uid.length = anticollLen) :
    ∃ t evs answers v, exec (.selectTag uid) s = .next t ∧ SelectRun s.cfg s.csPresent uid evs answers v ∧
      Effect (crcLocs s.cfg ++ executorLocs s.cfg) evs answers (.flag (decide (v ≠ .eNone))) v s t ∧
      SameBesidesTag s t ∧ t.authed = s.authed ∧ t.pstate = (if v = .eNone then .selected else s.pstate) := by
  obtain ⟨evs, answers, r, v, u, hrun, ⟨hcause, herror, -, -⟩, hran, hend⟩ := selectTag_ran uid s
  have hexec : exec (.selectTag uid) s = .next (complete (.flag (selectTag uid s).1.error) (selectTag uid s).1.cause
      (selectTag uid s).2) := if_pos hu
  rw [hend, hcause, herror] at hexec
  exact ⟨_, evs, answers, v, hexec, hrun, ran_complete_pstate hran (selectRun_within hu hrun).1 ..⟩

/-- Settles O26: five bytes are a uid of the right length. -/
theorem selectTagFollowsItsSteps : Obligations.SelectTagFollowsItsSteps :=
  fun _ _ _ _ _ s => exec_selectTag s rfl

/-- READ_ID gives an identifier of four bytes, or of seven (R165, R166): each stage that succeeded answered five. -/
theorem readIdRun_uid_length {c : Config} {cs : Bool} {p0 p : PState} {evs : List Event} {answers : List Byte}
    {uid : Option (List Byte)} {v : Cause} (h : ReadIdRun c cs p0 evs answers p uid v) :
    ∀ u, uid = some u → u.length = 4 ∨ u.length = 7 := by
  rintro u rfl
  obtain ⟨_, _, _, _, -, ⟨-, -, -, -, hnone, -⟩ | ⟨-, _, _, r2, _, hrun2, h⟩⟩ := h
  · cases hnone
  rcases h with ⟨-, -, -, -, hnone, -⟩ | ⟨hv2, -, -, -, -, huid, -⟩ | ⟨hv2, -, _, _, _, -, h⟩
  · cases hnone
  · cases huid
    have hlen := ((anticollRun_within hrun2).2 hv2).2
    exact .inl (by simp [hlen])
  rcases h with ⟨-, -, -, -, hnone, -⟩ | ⟨-, _, _, r4, _, hrun4, -, -, -, ⟨-, -, hnone⟩ | ⟨hv4, -, huid⟩⟩
  · cases hnone
  · cases hnone
  · cases huid
    have hlen2 := ((anticollRun_within hrun2).2 hv2).2
    have hlen4 := ((anticollRun_within hrun4).2 hv4).2
    exact .inr (by simp [hlen2, hlen4])

/-- READ_ID has an identifier exactly when it has no cause of failure (R165). -/
theorem readIdRun_uid_cause {c : Config} {cs : Bool} {p0 p : PState} {evs : List Event} {answers : List Byte}
    {uid : Option (List Byte)} {v : Cause} (h : ReadIdRun c cs p0 evs answers p uid v) : uid = none ↔ v ≠ .eNone := by
  obtain ⟨_, _, _, _, -, ⟨hv1, -, -, -, huid, hv⟩ | ⟨-, _, _, _, _, -, h⟩⟩ := h
  · simp [huid, hv, hv1]
  rcases h with ⟨hv2, -, -, -, huid, hv⟩ | ⟨-, -, -, -, -, huid, hv⟩ | ⟨-, -, _, _, _, -, h⟩
  · simp [huid, hv, hv2]
  · simp [huid, hv]
  rcases h with ⟨hv3, -, -, -, huid, hv⟩ | ⟨-, _, _, _, _, -, -, -, hv, ⟨hv4, -, huid⟩ | ⟨hv4, -, huid⟩⟩
  · simp [huid, hv, hv3]
  · simp [huid, hv, hv4]
  · simp [huid, hv, hv4]

/-- READ_ID leaves a procedure state that its steps set, or the one before (R168). -/
theorem readIdRun_pstate {c : Config} {cs : Bool} {p0 p : PState} {evs : List Event} {answers : List Byte}
    {uid : Option (List Byte)} {v : Cause} (h : ReadIdRun c cs p0 evs answers p uid v) : p = p0 ∨ p ≠ .authenticated := by
  obtain ⟨_, _, _, _, -, ⟨-, -, -, hp, -⟩ | ⟨-, _, _, _, _, -, h⟩⟩ := h
  · exact .inl hp
  right
  rcases h with ⟨-, -, -, rfl, -⟩ | ⟨-, -, -, -, rfl, -⟩ | ⟨-, -, _, _, _, -, h⟩
  · decide
  · decide
  rcases h with ⟨-, -, -, rfl, -⟩ | ⟨-, _, _, _, _, -, -, -, -, ⟨-, rfl, -⟩ | ⟨-, rfl, -⟩⟩ <;> decide

/-- What READ_ID answers, by the identifier it has (R165, R92). -/
def readIdResult (asNumber : Bool) : Option (List Byte) → Result
  | none => .noUid
  | some u => if asNumber then .number u.length (number u) else .uid u

/-- Settles O27: the run, and the length of the identifier it gives. -/
theorem readIdFollowsItsSteps : Obligations.ReadIdFollowsItsSteps := by
  intro asNumber s
  obtain ⟨evs, answers, p, uid, v, u, hrun, hran, hend⟩ := readId_ran asNumber s
  have hexec : exec (.readId asNumber) s = .next (complete (readIdResult asNumber uid) v (setPState p u)) :=
    congrArg Outcome.next hend
  obtain ⟨heffect, hsame, hauthed, hpstate⟩ := ran_complete_pstate hran (readIdRun_within hrun) (readIdResult asNumber uid) v p
  exact ⟨_, evs, answers, p, uid, v, hexec, hrun, heffect, hsame, hauthed, hpstate, readIdRun_uid_length hrun⟩

/-- Settles O12: the number is the big-endian sum, and READ_ID with `as_number` answers it of the identifier its run gives. -/
theorem uidNumberIsBigEndian : Obligations.UidNumberIsBigEndian := by
  refine ⟨Fields.number_eq_sum, fun s => ?_⟩
  obtain ⟨t, evs, answers, p, uid, v, ht, hrun, ⟨htrace, hanswered, hresult, -⟩, -⟩ := readIdFollowsItsSteps true s
  have hcause := readIdRun_uid_cause hrun
  refine ⟨t, evs, answers, p, uid, v, ht, hrun, htrace, hanswered, ?_, ?_⟩
  · rintro rfl
    exact ⟨hcause.mp rfl, hresult⟩
  · rintro x rfl
    obtain rfl : v = .eNone := by simpa using hcause
    rw [← Fields.number_eq_sum]
    exact ⟨rfl, hresult⟩

/-! ### Authentication and blocks -/

theorem cardAuth_fst {mode block : Byte} {key uid : List Byte} {s : State} :
    (cardAuth mode block key uid s).1 = (sendAuth mode block key uid s).1 := by
  unfold cardAuth
  dsimp only
  split <;> rfl

/-- Settles O28: the judged run of the frame, and on success alone the two registers. -/
theorem cardAuthFollowsItsSteps : Obligations.CardAuthFollowsItsSteps := by
  intro mode block key uid s hk hu
  obtain ⟨evs, answers, r, v, hrun, ⟨hcause, herror, -, -⟩, hran⟩ := sendAuth_ran mode block key uid s
  obtain ⟨N, hwithin⟩ := authRun_within_any hrun
  obtain ⟨-, -, hauthed, -, hpstate, -⟩ := hran.same
  have hexec : exec (.cardAuth mode block key uid) s = .next (complete (.flag (cardAuth mode block key uid s).1.error)
      (cardAuth mode block key uid s).1.cause (cardAuth mode block key uid s).2) := if_pos ⟨hk, hu⟩
  have hflag : (!decide (v ≠ .eNone)) = decide (v = .eNone) := by simp
  rw [cardAuth_fst, cardAuth_snd, hcause, herror, hauthed, hpstate, hflag] at hexec
  simp only [decide_eq_true_eq, ite_not] at hexec
  exact ⟨_, evs, answers, r, v, hexec, hrun, ran_complete_tag hran hwithin ..⟩

/-- Settles O29: the judged run of the frame. -/
theorem readFollowsItsSteps : Obligations.ReadFollowsItsSteps := by
  intro block s
  obtain ⟨evs, answers, r, hrun, ⟨hcause, herror, hresp, -⟩, hran⟩ := readBlock_ran block s
  have hexec : exec (.read block) s = .next (complete (.bytes (readBlock block s).1.error (readBlock block s).1.resp)
      (readBlock block s).1.cause (readBlock block s).2) := rfl
  rw [hcause, herror, hresp] at hexec
  exact ⟨_, evs, answers, r, _, hexec, hrun, rfl, hran.complete (frameRun_within hrun) ..⟩

/-- Settles O30: the run of both phases. -/
theorem writeFollowsItsSteps : Obligations.WriteFollowsItsSteps := by
  intro block data s hd
  obtain ⟨evs, answers, v, hrun, hcause, herror, hran⟩ := writeBlock_ran block data s
  have hexec : exec (.write block data) s = .next (complete (.flag (writeBlock block data s).1.error)
      (writeBlock block data s).1.cause (writeBlock block data s).2) := if_pos hd
  rw [hcause, herror] at hexec
  exact ⟨_, evs, answers, v, hexec, hrun, hran.complete (writeRun_within hd hrun) ..⟩

/-- Settles O31: the run, and then the two registers whatever it gave. -/
theorem haltFollowsItsSteps : Obligations.HaltFollowsItsSteps := by
  intro s
  obtain ⟨evs, answers, u, hrun, hran, hend⟩ := halt_ran s
  have hexec : exec .halt s = .next (complete .done .eNone (halt s)) := rfl
  rw [hend] at hexec
  exact ⟨_, evs, answers, hexec, hrun, ran_complete_tag hran (haltRun_within hrun) ..⟩

/-- STOP_CRYPTO and its result (R185). -/
theorem stopCrypto_complete (s : State) : ∃ st,
    Effect [location s.cfg.aStatus] (onBus s.csPresent [rd s.cfg.aStatus st, wr s.cfg.aStatus (st &&& ~~~0x08#8)]) [st]
      .done .eNone s (complete .done .eNone (stopCrypto s)) ∧
    Memory.get (location s.cfg.aStatus) (stopCrypto s).chipRegs = some (st &&& ~~~0x08#8) ∧
    SameBesidesTag s (complete .done .eNone (stopCrypto s)) ∧ (stopCrypto s).authed = false ∧
    (stopCrypto s).pstate = (if s.pstate = .authenticated then .selected else s.pstate) := by
  obtain ⟨st, u, hran, hend⟩ := stopCrypto_ran s
  rw [clearXfers_eq] at hran
  rw [hend]
  obtain ⟨heffect, hsame, hauthed, hpstate⟩ := ran_complete_tag hran (two_within ..) .done .eNone false
    (if s.pstate = .authenticated then .selected else s.pstate)
  have hget : Memory.get (location s.cfg.aStatus) u.chipRegs = some (st &&& ~~~0x08#8) :=
    get_of_last_write (xs := [rd s.cfg.aStatus st]) hran
  exact ⟨st, heffect, hget, hsame, hauthed, hpstate⟩

/-- Settles O32: the run of STOP_CRYPTO, and the two registers it leaves. -/
theorem stopCryptoClearsTheFlag : Obligations.StopCryptoClearsTheFlag := by
  intro s
  obtain ⟨st, h⟩ := stopCrypto_complete s
  exact ⟨_, st, rfl, h⟩

/-! ### CLEANUP -/

theorem exec_cleanup_authed {s : State} (h : s.authed = true) :
    exec .cleanup s = .next (complete .done .eNone (stopCrypto s)) := by
  simp [exec, execCleanup, h]

theorem exec_cleanup_idle {s : State} (h : s.authed = false) : exec .cleanup s = .next (complete .done .eNone s) := by
  simp [exec, execCleanup, h]

/-- With `authed` clear CLEANUP is its result alone (R204). -/
theorem cleanup_idle_effect (s : State) : Effect [] [] [] .done .eNone s (complete .done .eNone s) ∧
    SameEngine s (complete .done .eNone s) :=
  ⟨no_traffic rfl rfl rfl rfl, same_refl s⟩

/-- CLEANUP leaves `authed` clear (R204). -/
theorem authed_of_cleanup {s t : State} (h : exec .cleanup s = .next t) : t.authed = false := by
  cases hs : s.authed with
  | false =>
    cases (exec_cleanup_idle hs).symm.trans h
    exact hs
  | true =>
    cases (exec_cleanup_authed hs).symm.trans h
    obtain ⟨_, -, -, -, hauthed, -⟩ := stopCrypto_complete s
    exact hauthed

/-- Settles O36: by `authed`, which CLEANUP leaves clear. -/
theorem cleanupDeauthenticatesOnce : Obligations.CleanupDeauthenticatesOnce := by
  refine ⟨fun s hs => ?_, fun s hs => ?_, fun s t ht => ?_⟩
  · obtain ⟨st, heffect, -, hrest⟩ := stopCrypto_complete s
    exact ⟨_, st, exec_cleanup_authed hs, heffect, hrest⟩
  · obtain ⟨heffect, hsame⟩ := cleanup_idle_effect s
    exact ⟨_, exec_cleanup_idle hs, heffect, hsame, rfl⟩
  · obtain ⟨heffect, hsame⟩ := cleanup_idle_effect t
    exact ⟨_, exec_cleanup_idle (authed_of_cleanup ht), heffect, hsame, rfl⟩

/-! ### The tag frames by themselves -/

/-- A judged frame, answered with the executor's triple (R88). -/
theorem answerFrame_judged {s : State} {evs : List Event} {as : List Byte} {locs : List Nat} {N : Nat} {q : Exec × State} {r : Exec}
    {v : Cause} (hran : Ran evs as s q.2) (hwithin : Within s.csPresent locs evs N) (hj : Judged r q.1 v) :
    ∃ t, answerFrame q = .next t ∧ Effect locs evs as (.executed (decide (v ≠ .eNone)) r.resp r.rlen) v s t ∧ SameEngine s t := by
  obtain ⟨hcause, herror, hresp, hrlen⟩ := hj
  refine ⟨_, rfl, ?_⟩
  rw [hcause, herror, hresp, hrlen]
  exact hran.complete hwithin ..

theorem sendRequest_answered (mode : Byte) (s : State) : ∃ t evs answers r v, answerFrame (sendRequest mode s) = .next t ∧
    RequestRun s.cfg s.csPresent mode evs answers r v ∧
    Effect (executorLocs s.cfg) evs answers (.executed (decide (v ≠ .eNone)) r.resp r.rlen) v s t ∧ SameEngine s t := by
  obtain ⟨evs, answers, r, v, hrun, hj, hran⟩ := sendRequest_ran mode s
  obtain ⟨t, ht, heffect⟩ := answerFrame_judged hran (requestRun_within hrun).1 hj
  exact ⟨t, evs, answers, r, v, ht, hrun, heffect⟩

theorem sendAnticoll_answered (sel : Byte) (s : State) : ∃ t evs answers r v, answerFrame (sendAnticoll sel s) = .next t ∧
    AnticollRun s.cfg s.csPresent sel evs answers r v ∧
    Effect (executorLocs s.cfg) evs answers (.executed (decide (v ≠ .eNone)) r.resp r.rlen) v s t ∧ SameEngine s t := by
  obtain ⟨evs, answers, r, v, hrun, hj, hran⟩ := sendAnticoll_ran sel s
  obtain ⟨t, ht, heffect⟩ := answerFrame_judged hran (anticollRun_within hrun).1 hj
  exact ⟨t, evs, answers, r, v, ht, hrun, heffect⟩

theorem sendAuth_answered (mode block : Byte) (key uid : List Byte) (s : State) :
    ∃ t evs answers r v, answerFrame (sendAuth mode block key uid s) = .next t ∧
    AuthRun s.cfg s.csPresent mode block key uid evs answers r v ∧
    Effect (executorLocs s.cfg) evs answers (.executed (decide (v ≠ .eNone)) r.resp r.rlen) v s t ∧ SameEngine s t := by
  obtain ⟨evs, answers, r, v, hrun, hj, hran⟩ := sendAuth_ran mode block key uid s
  obtain ⟨N, hwithin⟩ := authRun_within_any hrun
  obtain ⟨t, ht, heffect⟩ := answerFrame_judged hran hwithin hj
  exact ⟨t, evs, answers, r, v, ht, hrun, heffect⟩

/-- A frame sent by transceive, judged by the test of its row (R87, R88). -/
theorem transceive_answered {test : Exec → Exec} {verdict : Exec → Cause}
    (hj : ∀ r, Consistent r → Judged r (test r) (verdict r)) (frame : List Byte) (s : State) :
    ∃ t evs answers r, answerFrame (test (transceive frame s).1, (transceive frame s).2) = .next t ∧
      CardWriteRun s.cfg s.csPresent s.cfg.cmdTransceive frame evs answers r ∧
      Effect (executorLocs s.cfg) evs answers (.executed (decide (verdict r ≠ .eNone)) r.resp r.rlen) (verdict r) s t ∧
      SameEngine s t := by
  obtain ⟨evs, answers, hrun, hran⟩ := transceive_ran frame s
  obtain ⟨t, ht, heffect⟩ := answerFrame_judged (q := (test (transceive frame s).1, (transceive frame s).2)) hran
    (cardWriteRun_within hrun) (hj _ (cardWriteRun_consistent hrun))
  exact ⟨t, evs, answers, _, ht, hrun, heffect⟩

/-- Settles O42: the senders of the frames, answered. -/
theorem requestAndAnticollFrames : Obligations.RequestAndAnticollFrames :=
  fun mode s => ⟨sendRequest_answered mode s, sendAnticoll_answered selectCode1 s, sendAnticoll_answered selectCode2 s⟩

theorem exec_tagSelect {uid : List Byte} (lo hi : Byte) (s : State) (hu : uid.length = anticollLen) :
    exec (.tagSelect uid lo hi) s = answerFrame (requireBits 24 (transceive (withCrc (selectBody uid) (lo, hi)) s).1,
      (transceive (withCrc (selectBody uid) (lo, hi)) s).2) := if_pos hu

theorem exec_tagWritePhase2 {data : List Byte} (lo hi : Byte) (s : State) (hd : data.length = blockLen) :
    exec (.tagWritePhase2 data lo hi) s = answerFrame (requireAck (transceive (withCrc data (lo, hi)) s).1,
      (transceive (withCrc data (lo, hi)) s).2) := if_pos hd

/-- Settles O43: transceive, answered under the test of each row; the answer to the halt frame is dropped. -/
theorem framesWithAChecksum : Obligations.FramesWithAChecksum := by
  intro s b lo hi
  refine ⟨fun uid hu => ?_, ?_, ?_, fun data hd => ?_, ?_⟩
  · obtain ⟨t, evs, answers, r, ht, hrun, heffect⟩ := transceive_answered (fun _ h => requireBits_judged h 24)
      (withCrc (selectBody uid) (lo, hi)) s
    exact ⟨t, evs, answers, r, _, (exec_tagSelect lo hi s hu).trans ht, hrun, rfl, heffect⟩
  · obtain ⟨t, evs, answers, r, ht, hrun, heffect⟩ := transceive_answered (fun _ h => requireBlock_judged h)
      (withCrc (readBody b) (lo, hi)) s
    exact ⟨t, evs, answers, r, _, ht, hrun, rfl, heffect⟩
  · exact transceive_answered (fun _ h => requireAck_judged h) (withCrc (writeBody b) (lo, hi)) s
  · obtain ⟨t, evs, answers, r, ht, hrest⟩ := transceive_answered (fun _ h => requireAck_judged h) (withCrc data (lo, hi)) s
    exact ⟨t, evs, answers, r, (exec_tagWritePhase2 lo hi s hd).trans ht, hrest⟩
  · obtain ⟨evs, answers, hrun, hran⟩ := transceive_ran (withCrc haltBody (lo, hi)) s
    exact ⟨_, evs, answers, _, rfl, hrun, hran.complete (cardWriteRun_within hrun) ..⟩

theorem exec_tagAuthA {key uid : List Byte} (block : Byte) (s : State) (hl : key.length = keyLen ∧ uid.length = authUidLen) :
    exec (.tagAuthA block key uid) s = answerFrame (sendAuth authKeyA block key uid s) := if_pos hl

theorem exec_tagAuthB {key uid : List Byte} (block : Byte) (s : State) (hl : key.length = keyLen ∧ uid.length = authUidLen) :
    exec (.tagAuthB block key uid) s = answerFrame (sendAuth authKeyB block key uid s) := if_pos hl

/-- Settles O44: one sender for the two mode bytes. -/
theorem authenticationFrames : Obligations.AuthenticationFrames := by
  intro block key uid s hk hu
  rw [exec_tagAuthA block s ⟨hk, hu⟩, exec_tagAuthB block s ⟨hk, hu⟩]
  exact ⟨sendAuth_answered authKeyA block key uid s, sendAuth_answered authKeyB block key uid s⟩

/-! ### Operands of another length -/

/-- The lengths of a key and a uid, as the meanings and as `wellFormed` test them. -/
theorem lengths_of_not_wellFormed {key uid : List Byte}
    (h : (decide (key.length = keyLen) && decide (uid.length = authUidLen)) = false) :
    ¬ (key.length = keyLen ∧ uid.length = authUidLen) := by
  simpa using h

/-- An operand of another length than its layout fixes is the rejection and nothing else (R97, D30). -/
theorem exec_of_not_wellFormed {i : Instr} (s : State) (h : i.wellFormed = false) (hcrc : ∀ data, i ≠ .computeCrc data)
    (hwrite : ∀ command data, i ≠ .cardWrite command data) : exec i s = .next (reject .unknownOp s) := by
  cases i with
  | computeCrc data => exact absurd rfl (hcrc data)
  | cardWrite command data => exact absurd rfl (hwrite command data)
  | selectTag | write | tagSelect | tagWritePhase2 => exact if_neg (of_decide_eq_false h)
  | cardAuth | tagAuthA | tagAuthB => exact if_neg (lengths_of_not_wellFormed h)
  | regWrite | regRead | setBits | clearBits | request | anticoll | anticoll2 | readId | read | halt | stopCrypto
  | setAntennaGain | init | cleanup | waitForTag | busWriteFrame | busReadFrame | tagRequest | tagAnticoll1 | tagAnticoll2 | tagRead
  | tagWritePhase1 | tagHalt | cmdIdle | cmdCalcCrc | cmdTransceive | cmdAuthent | cmdSoftReset => cases h

/-- Settles O46: the rejection of each. -/
theorem wrongOperandLengthsAreRejected : Obligations.WrongOperandLengthsAreRejected :=
  fun _ s h hcrc hwrite => ⟨_, exec_of_not_wellFormed s h hcrc hwrite, InterruptLine.reject_effect .unknownOp s⟩

end Sys2Proof.Proofs.TagOperations
end

section
/-! SUPPORT. Configuration and construction: SET_ANTENNA_GAIN, INIT, and what a session begins with (rules R45, R200 to R203, R228 to
R230, R260 to R264 of spec/). -/

namespace Sys2Proof.Proofs.Configuration

open Sys2Proof Sys2Proof.Machine Sys2Proof.Laws Sys2Proof.Proofs.Operations Host

/-! ### SET_ANTENNA_GAIN -/

/-- An operand in range loses nothing in the three bits of the register (R200). -/
theorem setWidth_toNat_of_le {gain : Byte} (h : gain.toNat ≤ 7) : (gain.setWidth 3).toNat = gain.toNat := by
  rw [BitVec.toNat_setWidth]
  omega

theorem gainField_setWidth {gain : Byte} (h : gain.toNat ≤ 7) : gainField (gain.setWidth 3) = gain <<< 4 := by
  have hsame : (gain.setWidth 3).setWidth 8 = gain := BitVec.eq_of_toNat_eq (by
    rw [BitVec.toNat_setWidth, setWidth_toNat_of_le h]
    omega)
  rw [gainField, hsame]

/-- Settles O33: the register, then the one write of the field. -/
theorem setAntennaGainStoresAndWrites : Obligations.SetAntennaGainStoresAndWrites := by
  intro gain s h
  have hexec := Fields.exec_setAntennaGain s ((Gain.gainInRange_gainOperand_iff gain).mpr h)
  have hran := regWrite_ran s.cfg.aRfCfg (gain <<< 4) (setGain (gain.setWidth 3) s)
  have hget : Memory.get (location s.cfg.aRfCfg) (regWrite s.cfg.aRfCfg (gain <<< 4) (setGain (gain.setWidth 3) s)).chipRegs =
      some (gain <<< 4) := RegisterAccess.regWrite_get_same ..
  rw [gainField_setWidth h] at hexec
  exact ⟨_, hexec, hran.effect (one_write ..) rfl rfl rfl rfl, hget, setWidth_toNat_of_le h, ⟨rfl, rfl, rfl, rfl⟩,
    ⟨rfl, rfl, rfl, rfl⟩, rfl, rfl, rfl, rfl⟩

/-! ### The checks of a construction -/

theorem construct_without_resetLine {p : SessionParams} (env : Env) (h : p.rstCfg = none) :
    construct p env = .rejected .missingResetLine := by
  simp [construct, h]

/-- With a reset line, construction is its other checks in their order, then the registers and one INIT (R262, R263). -/
theorem construct_with_resetLine {p : SessionParams} (env : Env) (h : p.rstCfg ≠ none) :
    construct p env = if ¬ p.pinModeOk then .rejected .pinNamingMode
      else if ¬ gainInRange p.gainInit then .rejected .gainRange
      else if ¬ configValid p.chip then .unusable
      else .session (init (State.beforeInit p env)) := by
  obtain ⟨line, hline⟩ := Option.ne_none_iff_exists'.mp h
  simp only [construct, hline]

theorem gainInRange_of_outside {g : Int} (h : g < 0 ∨ 7 < g) : ¬ gainInRange g = true := by
  rw [Gain.gainInRange_iff]
  omega

/-- Settles O34: the checks in their order, and the test of the operand. -/
theorem configurationErrorsReject : Obligations.ConfigurationErrorsReject := by
  refine ⟨fun p env h => construct_without_resetLine env h, fun p env h hpin => ?_, fun p env h hpin hgain => ?_, fun gain s h => ?_⟩
  · rw [construct_with_resetLine env h]
    simp [hpin]
  · rw [construct_with_resetLine env h]
    simp [hpin, gainInRange_of_outside hgain]
  · exact ⟨_, if_neg (gainInRange_of_outside h), InterruptLine.reject_effect .gainRange s⟩

/-- A construction whose checks pass gives the registers after one INIT (R262, R263). -/
theorem construct_passes {p : SessionParams} (env : Env) (hline : p.rstCfg ≠ none) (hpin : p.pinModeOk = true)
    (hgain : gainInRange p.gainInit = true) (hvalid : configValid p.chip = true) :
    construct p env = .session (init (State.beforeInit p env)) := by
  rw [construct_with_resetLine env hline]
  simp [hpin, hgain, hvalid]

/-! ### INIT -/

/-- INIT as an operation (R201). -/
theorem exec_init (s : State) : ∃ t evs answers, exec .init s = .next t ∧ InitRun s.cfg s.csPresent s.gain evs answers ∧
    Effect (initLocs s.cfg) evs answers .done .eNone s t ∧ SameEngine s t := by
  obtain ⟨evs, answers, hrun, hran⟩ := init_ran s
  exact ⟨_, evs, answers, rfl, hrun, hran.complete ((initRun_traffic hrun).within (Nat.le_refl _)) ..⟩

/-- The configuration of a session is the one its construction accepted (R141, R201). -/
theorem configValid_of_construct {p : SessionParams} {env : Env} {s : State} (h : construct p env = .session s) :
    configValid s.cfg = true := by
  obtain ⟨-, -, -, hvalid, rfl⟩ := Gain.construct_eq_session h
  obtain ⟨_, _, -, hran⟩ := init_ran (State.beforeInit p env)
  rw [hran.cfg]
  exact hvalid

/-- An accepted configuration has the entry that writes the gain (R201). -/
theorem gainEntry_of_configValid {c : Config} (h : configValid c = true) : (⟨.write, c.aRfCfg, .gain⟩ : InitEntry) ∈ c.initSeq :=
  List.contains_iff_mem.mp ((Bool.and_eq_true ..).mp h).2

/-- The default list makes one read, and its run is nine entries with the answer to it (R203). -/
theorem initRun_mfrc522 (cs : Bool) (g : BitVec 3) (evs : List Event) (answers : List Byte) :
    InitRun Config.mfrc522 cs g evs answers ↔ ∃ v, answers = [v] ∧ evs = onBus cs
      [wr 0x01 0x0F, wr 0x2A 0x8D, wr 0x2B 0x3E, wr 0x2D 0x1E, wr 0x2C 0x00, wr 0x15 0x40, wr 0x11 0x3D,
        wr 0x26 (g.setWidth 8 <<< 4), rd 0x14 v, wr 0x14 (v ||| 0x03)] := by
  have hreads : initReads Config.mfrc522.initSeq = 1 := rfl
  constructor
  · rintro ⟨hlen, rfl⟩
    obtain ⟨v, rfl⟩ := List.length_eq_one_iff.mp (hlen.trans hreads)
    exact ⟨v, rfl, rfl⟩
  · rintro ⟨v, rfl, rfl⟩
    exact ⟨rfl, rfl⟩

/-- Settles O35: the run of INIT, the entry every accepted list has, and the default list evaluated. -/
theorem initRunsItsList : Obligations.InitRunsItsList :=
  ⟨exec_init, fun _ _ _ h => gainEntry_of_configValid (configValid_of_construct h), initRun_mfrc522⟩

/-! ### The session a construction gives -/

theorem configValid_mfrc522 : configValid Config.mfrc522 = true := by decide

/-- A construction whose checks pass: its registers, its configuration and the trace of its INIT (R45, R263). -/
theorem construct_session (p : SessionParams) (env : Env) (hline : p.rstCfg ≠ none) (hpin : p.pinModeOk = true) (h0 : 0 ≤ p.gainInit)
    (h7 : p.gainInit ≤ 7) (hvalid : configValid p.chip = true) :
    ∃ t evs answers, construct p env = .session t ∧ InitRun p.chip p.csPresent (BitVec.ofInt 3 p.gainInit) evs answers ∧
      t.trace = evs ∧ t.results = [] ∧ t.port = [] ∧ t.waiting = none ∧ t.chipRegs = replay evs [] ∧
      t.authed = false ∧ (t.gain.toNat : Int) = p.gainInit ∧ t.pstate = .idle ∧ t.signal = false ∧
      t.cfg = p.chip ∧ t.csPresent = p.csPresent ∧ t.irqPresent = p.irqPresent ∧ some t.rstCfg = p.rstCfg := by
  obtain ⟨evs, answers, hrun, hran⟩ := init_ran (State.beforeInit p env)
  obtain ⟨⟨hcfg, hcs, hirq, hrst⟩, ⟨hport, hwaiting, -⟩, hauthed, hgain, hpstate, hsignal⟩ := hran.same
  have hexec := construct_passes env hline hpin ((Gain.gainInRange_iff _).mpr ⟨h0, h7⟩) hvalid
  obtain ⟨line, hline⟩ := Option.ne_none_iff_exists'.mp hline
  refine ⟨_, evs, answers, hexec, hrun, hran.trace, hran.results, hport, hwaiting, hran.chipRegs, hauthed, ?_, hpstate, hsignal, hcfg,
    hcs, hirq, ?_⟩
  · rw [hgain]
    exact Gain.ofInt_gain_toNat h0 h7
  · rw [hrst, hline]
    exact congrArg (fun l => some (Option.getD l 0)) hline

/-- The reset state is the session of the usual parameters, every answer free (R260). -/
theorem construct_usual : construct SessionParams.usual Env.free = .session State.reset := by
  rw [construct_passes Env.free (by decide) rfl rfl configValid_mfrc522, ← constructed_eq]
  rfl

/-- Settles O56: the session of a construction that passes, and the reset state evaluated, its one read answered by a free value. -/
theorem constructionSetsTheRegistersAndInitialises : Obligations.ConstructionSetsTheRegistersAndInitialises :=
  ⟨construct_session, configValid_mfrc522, construct_usual, ⟨Config.freeChip 0, rfl, rfl⟩, rfl, rfl, rfl⟩

end Sys2Proof.Proofs.Configuration
end

section
/-! SUPPORT. WAIT_FOR_TAG from its beginning and while it runs: the three ways its loop can go, and that a timed wait ends (rules R205 to
R209 of spec/45_config_and_wait.md, U10). -/

namespace Sys2Proof.Proofs.WaitForTag

open Sys2Proof Sys2Proof.Machine Sys2Proof.Laws Host

variable {s t u : State} {evs : List Event} {as : List Byte}

/-! ### The three ways the loop can go -/

/-- What a wait leaves alone. -/
theorem waited_same (h : Waited evs as s t) : SameBesidesWait s t := h.2.2.2

/-- The loop was left with its one result, the signal and the rest of the script being these. -/
def Ended (fired signal : Bool) (rest : List SliceDraw) (s t : State) : Prop :=
  t.results = s.results ++ [⟨.fired fired, .eNone⟩] ∧ t.waiting = none ∧ t.signal = signal ∧ t.env.slices = rest

/-- Quiet passes, if any, lead to the same loop on the rest of the script, with the signal as it was. -/
theorem waitLoop_quiet_keeps_signal (timeout : BitVec 16) (left : Nat) (before rest : List SliceDraw) (s : State)
    (hs : before = [] ∨ s.signal = false) (hq : ∀ x ∈ before, quiet timeout x) :
    ∃ evs answers u, PassesRun s.cfg s.csPresent s.gain before.length evs answers ∧ Waited evs answers s u ∧
      u.signal = s.signal ∧ u.results = s.results ∧
      waitLoop timeout left (before ++ rest) s = waitLoop timeout left rest u := by
  rcases hs with rfl | hs
  · exact ⟨[], [], s, ⟨rfl, rfl⟩, .refl s, rfl, rfl, rfl⟩
  · obtain ⟨evs, answers, u, hruns, hwaited, hsignal, hrest⟩ := waitLoop_quiet timeout left before rest s hs hq
    exact ⟨evs, answers, u, hruns, hwaited, hsignal.trans hs.symm, hrest⟩

/-- After quiet passes a deadline that has passed ends the loop before its pass re-arms (R205, R208). -/
theorem waitLoop_times_out {timeout : BitVec 16} {d : SliceDraw} (left : Nat) (before rest : List SliceDraw) (s : State)
    (hs : before = [] ∨ s.signal = false) (hq : ∀ x ∈ before, quiet timeout x) (ht : timeout ≠ 0) (hd : d.deadline = true) :
    ∃ e1 a1 e2 a2, PassesRun s.cfg s.csPresent s.gain before.length e1 a1 ∧ InitRun s.cfg s.csPresent s.gain e2 a2 ∧
      Waited (e1 ++ e2) (a1 ++ a2) s (waitLoop timeout left (before ++ d :: rest) s) ∧
      Ended false s.signal rest s (waitLoop timeout left (before ++ d :: rest) s) := by
  obtain ⟨e1, a1, u, hruns, hquiet, hsignal, hresults, hloop⟩ := waitLoop_quiet_keeps_signal timeout left before (d :: rest) s hs hq
  have hdrawn := hquiet.trans (drawn_waited rest u)
  simp only [List.append_nil] at hdrawn
  obtain ⟨e2, a2, hinit, hfinish, hsig, hres, hslices, hwaiting⟩ := finishWait_waited false (drawn rest u)
  rw [hdrawn.cfg, hdrawn.csPresent, hdrawn.gain] at hinit
  rw [hloop, waitLoop_deadline left rest u ht hd]
  exact ⟨e1, a1, e2, a2, hruns, hinit, hdrawn.trans hfinish, hres.trans (congrArg (· ++ _) hresults), hwaiting, hsig.trans hsignal,
    hslices⟩

/-- After quiet passes a pass with the signal set, before it or in it, re-arms and ends the loop (R205, R207). -/
theorem waitLoop_fires {timeout : BitVec 16} {d : SliceDraw} (left : Nat) (before rest : List SliceDraw) (s : State)
    (hs : before = [] ∨ s.signal = false) (hq : ∀ x ∈ before, quiet timeout x) (hd : timeout = 0 ∨ d.deadline = false)
    (hfires : (s.signal || d.irq) = true) :
    ∃ e1 a1 e2 a2 e3 a3, PassesRun s.cfg s.csPresent s.gain before.length e1 a1 ∧ PassRun s.cfg s.csPresent s.gain true e2 a2 ∧
      InitRun s.cfg s.csPresent s.gain e3 a3 ∧
      Waited (e1 ++ e2 ++ e3) (a1 ++ a2 ++ a3) s (waitLoop timeout left (before ++ d :: rest) s) ∧
      Ended true true rest s (waitLoop timeout left (before ++ d :: rest) s) := by
  obtain ⟨e1, a1, u, hruns, hquiet, hsignal, hresults, hloop⟩ := waitLoop_quiet_keeps_signal timeout left before (d :: rest) s hs hq
  have hdrawn := hquiet.trans (drawn_waited rest u)
  simp only [List.append_nil] at hdrawn
  have hset : ((drawn rest u).signal || d.irq) = true := (congrArg (· || d.irq) hsignal).trans hfires
  obtain ⟨e2, a2, hpass, hpassed, hsig2, hres2, hslices2, -⟩ := pass_waited d.irq (drawn rest u)
  rw [hset] at hpass hsig2
  rw [hdrawn.cfg, hdrawn.csPresent, hdrawn.gain] at hpass
  have hall := hdrawn.trans hpassed
  obtain ⟨e3, a3, hinit, hfinish, hsig3, hres3, hslices3, hwaiting⟩ := finishWait_waited true (signalWait d.irq (rearm (drawn rest u)))
  rw [hall.cfg, hall.csPresent, hall.gain] at hinit
  have hset' : (u.signal || d.irq) = true := hset
  rw [hloop, waitLoop_pass left rest u hd, if_pos hset']
  refine ⟨e1, a1, e2, a2, e3, a3, hruns, hpass, hinit, hall.trans hfinish, ?_, hwaiting, hsig3.trans hsig2, hslices3.trans hslices2⟩
  rw [hres3, hres2]
  exact congrArg (· ++ _) hresults

/-- A script of quiet passes leaves the operation waiting, with no result (R205, R279). -/
theorem waitLoop_goes_on {timeout : BitVec 16} {ds : List SliceDraw} (left : Nat) (s : State) (hs : s.signal = false)
    (hq : ∀ x ∈ ds, quiet timeout x) :
    ∃ e a, PassesRun s.cfg s.csPresent s.gain ds.length e a ∧ Waited e a s (waitLoop timeout left ds s) ∧
      (waitLoop timeout left ds s).waiting = some ⟨timeout, left⟩ ∧ (waitLoop timeout left ds s).signal = false ∧
      (waitLoop timeout left ds s).results = s.results ∧ (waitLoop timeout left ds s).env.slices = [] := by
  obtain ⟨e, a, u, hruns, hquiet, hsignal, hresults, hloop⟩ := waitLoop_quiet timeout left ds [] s hs hq
  rw [List.append_nil] at hloop
  rw [hloop]
  have hheld : Waited [] [] u (waitLoop timeout left [] u) := waited_moved u u.signal (some ⟨timeout, left⟩) [] u.results u.env.asked
  have hall := hquiet.trans hheld
  simp only [List.append_nil] at hall
  exact ⟨e, a, hruns, hall, rfl, hsignal, hresults, rfl⟩

/-! ### A wait from its beginning -/

/-- WAIT_FOR_TAG begins with its prologue, which clears the signal, and then loops over the script (R205). -/
theorem exec_waitForTag (timeout : BitVec 16) (s : State) (h : s.irqPresent = true) :
    ∃ p evs answers left, exec (.waitForTag timeout) s = .next (waitLoop timeout left s.env.slices p) ∧
      WaitPrologueRun s.cfg s.csPresent s.gain evs answers ∧ Waited evs answers s p ∧ p.signal = false ∧ p.results = s.results := by
  obtain ⟨evs, answers, hrun, hwaited, hsignal, hresults, hslices, -⟩ := waitPrologue_waited (asking s)
  have hexec : exec (.waitForTag timeout) s = .next (waitLoop timeout (Config.freePasses s.env.asked)
      (waitPrologue (asking s)).env.slices (waitPrologue (asking s))) := congrArg Outcome.next (if_pos h)
  rw [hslices] at hexec
  exact ⟨_, evs, answers, _, hexec, hrun, (asking_waited s).trans hwaited, hsignal, hresults⟩

/-- A wait's traffic with its one result. -/
theorem waited_effect {n : Nat} {fired : Bool} (h : Waited evs as s t) (hr : t.results = s.results ++ [⟨.fired fired, .eNone⟩])
    (htraffic : Traffic s.csPresent (waitLocs s.cfg) evs n) : Effect (waitLocs s.cfg) evs as (.fired fired) .eNone s t := by
  obtain ⟨htrace, hanswered, hregs, -⟩ := h
  exact ⟨htrace, hanswered, hr, hregs, htraffic.onlyWrites hregs⟩

/-- Settles O38: the prologue, then the loop that fires. -/
theorem waitForTagFires : Obligations.WaitForTagFires := by
  intro timeout s before rest d hline hslices hq hd hirq
  obtain ⟨p, e0, a0, left, hexec, hprologue, hbegun, hsignal, hresults⟩ := exec_waitForTag timeout s hline
  obtain ⟨e1, a1, e2, a2, e3, a3, hpasses, hpass, hinit, hwaited, hres, hwaiting, hsig, hrest⟩ :=
    waitLoop_fires left before rest p (.inr hsignal) hq hd (by simp [hirq])
  rw [hslices] at hexec
  rw [hbegun.cfg, hbegun.csPresent, hbegun.gain] at hpasses hpass hinit
  rw [hresults] at hres
  have hall := hbegun.trans hwaited
  have htraffic := (waitPrologueRun_traffic hprologue).append
    (((passesRun_traffic hpasses).append (passRun_traffic hpass)).append (initRun_wait hinit))
  simp only [← List.append_assoc] at hall htraffic
  exact ⟨_, e0, a0, e1, a1, e2, a2, e3, a3, hexec, hprologue, hpasses, hpass, hinit, waited_effect hall hres htraffic, waited_same hall, hsig,
    hwaiting, hrest⟩

/-- Settles O39: the prologue, then the loop that meets its deadline. -/
theorem waitForTagTimesOut : Obligations.WaitForTagTimesOut := by
  intro timeout s before rest d hline hslices hq ht hd
  obtain ⟨p, e0, a0, left, hexec, hprologue, hbegun, hsignal, hresults⟩ := exec_waitForTag timeout s hline
  obtain ⟨e1, a1, e2, a2, hpasses, hinit, hwaited, hres, hwaiting, hsig, hrest⟩ :=
    waitLoop_times_out left before rest p (.inr hsignal) hq ht hd
  rw [hslices] at hexec
  rw [hbegun.cfg, hbegun.csPresent, hbegun.gain] at hpasses hinit
  rw [hresults] at hres
  have hall := hbegun.trans hwaited
  have htraffic := (waitPrologueRun_traffic hprologue).append ((passesRun_traffic hpasses).append (initRun_wait hinit))
  simp only [← List.append_assoc] at hall htraffic
  exact ⟨_, e0, a0, e1, a1, e2, a2, hexec, hprologue, hpasses, hinit, waited_effect hall hres htraffic, waited_same hall, hsig.trans hsignal,
    hwaiting, hrest⟩

/-- Settles O40: the prologue, then the loop that goes on. -/
theorem waitForTagGoesOn : Obligations.WaitForTagGoesOn := by
  intro timeout s hline hq
  obtain ⟨p, e0, a0, left, hexec, hprologue, hbegun, hsignal, hresults⟩ := exec_waitForTag timeout s hline
  obtain ⟨e1, a1, hpasses, hwaited, hwaiting, hsig, hres, hslices⟩ := waitLoop_goes_on left p hsignal hq
  rw [hbegun.cfg, hbegun.csPresent, hbegun.gain] at hpasses
  obtain ⟨htrace, hanswered, hregs, hsame⟩ := hbegun.trans hwaited
  have htraffic := (waitPrologueRun_traffic hprologue).append (passesRun_traffic hpasses)
  exact ⟨_, e0, a0, e1, a1, hexec, hprologue, hpasses, htrace, hanswered, hres.trans hresults, hregs, htraffic.onlyWrites hregs, hsame,
    hsig, ⟨left, hwaiting⟩, hslices⟩

/-! ### A wait that is running -/

/-- One step of a running wait is the loop over the script, or over one pass of free values (R15, R208). -/
theorem step_of_running {w : Waiting} {ds : List SliceDraw} (hw : s.waiting = some w)
    (hds : (s.env.slices = ds ∧ ds ≠ []) ∨ (s.env.slices = [] ∧
      ds = [⟨decide (w.left = 0), Config.freeIrq (sampleLine s).env.asked⟩])) :
    ∃ p, step s = .next (waitLoop w.timeout (if s.env.slices = [] then w.left - 1 else w.left) ds p) ∧
      Waited [] [] (sampleLine s) p ∧ p.signal = (sampleLine s).signal ∧ p.results = s.results := by
  obtain ⟨-, -, -, -, -, -, hresults, -, -, -, hslices⟩ := sampleLine_same s
  rw [Stepping.step_of_waiting hw]
  rcases hds with ⟨rfl, hne⟩ | ⟨hnil, rfl⟩
  · rw [resumeWait_scripted w _ (by rw [hslices]; exact hne), hslices, if_neg hne]
    exact ⟨_, rfl, .refl _, rfl, hresults⟩
  · rw [resumeWait_free w _ (by rw [hslices]; exact hnil), if_pos hnil]
    exact ⟨_, rfl, asking_waited _, rfl, hresults⟩

theorem sameConfig_trans (h : SameConfig s t) (g : SameConfig t u) : SameConfig s u := by
  obtain ⟨h1, h2, h3, h4⟩ := h
  obtain ⟨g1, g2, g3, g4⟩ := g
  exact ⟨g1.trans h1, g2.trans h2, g3.trans h3, g4.trans h4⟩

/-- The loop's traffic, whatever the script. -/
theorem waitLoop_waited (timeout : BitVec 16) (left : Nat) (ds : List SliceDraw) (s : State) :
    ∃ evs answers, Waited evs answers s (waitLoop timeout left ds s) := by
  induction ds generalizing s with
  | nil => exact ⟨[], [], waited_moved s s.signal (some ⟨timeout, left⟩) [] s.results s.env.asked⟩
  | cons d ds ih =>
    by_cases hd : timeout = 0 ∨ d.deadline = false
    · rw [waitLoop_pass left ds s hd]
      obtain ⟨_, _, -, hpassed, -⟩ := pass_waited d.irq (drawn ds s)
      have hall := (drawn_waited ds s).trans hpassed
      split
      · obtain ⟨_, _, -, hfinish, -⟩ := finishWait_waited true (signalWait d.irq (rearm (drawn ds s)))
        exact ⟨_, _, hall.trans hfinish⟩
      · obtain ⟨_, _, hloop⟩ := ih (signalWait d.irq (rearm (drawn ds s)))
        exact ⟨_, _, hall.trans hloop⟩
    · obtain ⟨ht, hdeadline⟩ := not_or.mp hd
      rw [waitLoop_deadline left ds s ht (Bool.eq_true_of_not_eq_false hdeadline)]
      obtain ⟨_, _, -, hfinish, -⟩ := finishWait_waited false (drawn ds s)
      exact ⟨_, _, (drawn_waited ds s).trans hfinish⟩

section Running

variable {p : State} (hbegun : Waited [] [] (sampleLine s) p)

include hbegun

/-- The state a running wait's loop begins in has the configuration and the gain of the state before the step. -/
theorem running_config : p.cfg = s.cfg ∧ p.csPresent = s.csPresent ∧ p.gain = s.gain := by
  obtain ⟨⟨hcfg, hcs, -⟩, -, hgain, -⟩ := sampleLine_same s
  exact ⟨hbegun.cfg.trans hcfg, hbegun.csPresent.trans hcs, hbegun.gain.trans hgain⟩

/-- What a step of a running wait leaves alone. -/
theorem running_same (h : Waited evs as p t) :
    SameConfig s t ∧ t.port = s.port ∧ t.authed = s.authed ∧ t.gain = s.gain ∧ t.pstate = s.pstate := by
  obtain ⟨hconfig, hauthed, hgain, hpstate, -, hport, -⟩ := sampleLine_same s
  obtain ⟨-, -, -, hconfig', hport', -, hauthed', hgain', hpstate'⟩ := hbegun.trans h
  exact ⟨sameConfig_trans hconfig hconfig', hport'.trans hport, hauthed'.trans hauthed, hgain'.trans hgain, hpstate'.trans hpstate⟩

/-- What a step of a running wait puts on the bus, seen from before the edge. -/
theorem running_traffic (h : Waited evs as p t) :
    t.trace = s.trace ++ evs ∧ Answered as s t ∧ t.chipRegs = replay evs s.chipRegs := by
  obtain ⟨-, -, -, -, -, -, -, htrace, hregs, hchip, -⟩ := sampleLine_same s
  obtain ⟨htrace', hanswered, hregs', -⟩ := hbegun.trans h
  exact ⟨by rw [htrace', htrace, List.nil_append], ⟨hchip ▸ hanswered.1, hchip ▸ hanswered.2⟩,
    by rw [hregs', hregs, List.nil_append]⟩

/-- The same with the wait's one result. -/
theorem running_effect {n : Nat} {fired : Bool} (h : Waited evs as p t) (hr : t.results = s.results ++ [⟨.fired fired, .eNone⟩])
    (htraffic : Traffic s.csPresent (waitLocs s.cfg) evs n) : Effect (waitLocs s.cfg) evs as (.fired fired) .eNone s t := by
  obtain ⟨htrace, hanswered, hregs⟩ := running_traffic hbegun h
  exact ⟨htrace, hanswered, hr, hregs, htraffic.onlyWrites hregs⟩

end Running

/-- Settles O41: the three ways of the loop, from the state after the edge. -/
theorem runningWaitMakesAPass : Obligations.RunningWaitMakesAPass := by
  intro s w ds hw hds
  obtain ⟨p, hstep, hbegun, hsignal, hresults⟩ := step_of_running hw hds
  obtain ⟨hcfg, hcs, hgain⟩ := running_config hbegun
  obtain ⟨_, _, hloop⟩ := waitLoop_waited w.timeout (if s.env.slices = [] then w.left - 1 else w.left) ds p
  obtain ⟨hconfig, hport, hauthed, hgain', hpstate⟩ := running_same hbegun hloop
  refine ⟨_, hstep, hconfig, hport, hauthed, hgain', hpstate, ?_, ?_⟩
  · rintro before d rest rfl hq hs
    rw [← hsignal] at hs ⊢
    constructor
    · intro ht hd
      obtain ⟨e1, a1, e2, a2, hpasses, hinit, hwaited, hres, hwaiting, hsig, hrest⟩ :=
        waitLoop_times_out (if s.env.slices = [] then w.left - 1 else w.left) before rest p hs hq ht hd
      rw [hcfg, hcs, hgain] at hpasses hinit
      rw [hresults] at hres
      exact ⟨hwaiting, hsig, hrest, e1, a1, e2, a2, hpasses, hinit,
        running_effect hbegun hwaited hres ((passesRun_traffic hpasses).append (initRun_wait hinit))⟩
    · intro hd hfires
      obtain ⟨e1, a1, e2, a2, e3, a3, hpasses, hpass, hinit, hwaited, hres, hwaiting, hsig, hrest⟩ :=
        waitLoop_fires (if s.env.slices = [] then w.left - 1 else w.left) before rest p hs hq hd hfires
      rw [hcfg, hcs, hgain] at hpasses hpass hinit
      rw [hresults] at hres
      exact ⟨hwaiting, hsig, hrest, e1, a1, e2, a2, e3, a3, hpasses, hpass, hinit, running_effect hbegun hwaited hres
        (((passesRun_traffic hpasses).append (passRun_traffic hpass)).append (initRun_wait hinit))⟩
  · intro hq hs
    rw [← hsignal] at hs
    obtain ⟨e, a, hpasses, hwaited, hwaiting, hsig, hres, hslices⟩ :=
      waitLoop_goes_on (if s.env.slices = [] then w.left - 1 else w.left) p hs hq
    rw [hcfg, hcs, hgain] at hpasses
    obtain ⟨htrace, hanswered, hregs⟩ := running_traffic hbegun hwaited
    exact ⟨hwaiting, hsig, hres.trans hresults, hslices, e, a, hpasses, htrace, hanswered, hregs,
      (passesRun_traffic hpasses).onlyWrites hregs⟩

/-! ### A timed wait ends -/

/-- From `t` the wait ends within `n` steps; then it has given the one result `s` had not, and the channel of `s` is untouched. -/
def EndsWithin (n : Nat) (s t : State) : Prop :=
  ∃ k u fired, k ≤ n ∧ afterSteps k t = some u ∧ u.waiting = none ∧ u.port = s.port ∧ Delivers (.fired fired) .eNone s u

theorem EndsWithin.mono {n m : Nat} (h : EndsWithin n s t) (hnm : n ≤ m) : EndsWithin m s t := by
  obtain ⟨k, u, fired, hk, hrest⟩ := h
  exact ⟨k, u, fired, hk.trans hnm, hrest⟩

theorem EndsWithin.of_step {n : Nat} (h : EndsWithin n s t) (hstep : step s = .next t) : EndsWithin (n + 1) s s := by
  obtain ⟨k, u, fired, hk, hsteps, hrest⟩ := h
  refine ⟨k + 1, u, fired, Nat.succ_le_succ hk, ?_, hrest⟩
  rw [afterSteps, hstep]
  exact hsteps

/-- Only the channel and the results of the first state matter. -/
theorem EndsWithin.congr {n : Nat} {p : State} (h : EndsWithin n p t) (hport : p.port = s.port) (hresults : p.results = s.results) :
    EndsWithin n s t := by
  obtain ⟨k, u, fired, hk, hsteps, hwaiting, hport', hdelivers⟩ := h
  exact ⟨k, u, fired, hk, hsteps, hwaiting, hport'.trans hport, by rw [Delivers, ← hresults]; exact hdelivers⟩

/-- A loop has ended, or the wait it holds, its script used up and no deadline met in it, ends. -/
theorem endsWithin_of_waitLoop {timeout : BitVec 16} {left n : Nat} {ds : List SliceDraw}
    (held : (waitLoop timeout left ds s).waiting = some ⟨timeout, left⟩ → (waitLoop timeout left ds s).env.slices = [] →
      (∀ d ∈ ds, timeout = 0 ∨ d.deadline = false) →
      EndsWithin n (waitLoop timeout left ds s) (waitLoop timeout left ds s)) :
    EndsWithin n s (waitLoop timeout left ds s) := by
  have hport := waitLoop_port timeout left ds s
  rcases waitLoop_settles timeout left ds s with ⟨hwaiting, fired, hresults⟩ | ⟨hwaiting, hresults, hslices, hquiet⟩
  · exact ⟨0, _, fired, Nat.zero_le n, rfl, hwaiting, hport, hresults⟩
  · exact (held hwaiting hslices hquiet).congr hport hresults

/-- A running wait makes one step, which ends it or leaves it held with its script used up. -/
theorem endsWithin_of_running {w : Waiting} {ds : List SliceDraw} {n : Nat} (hw : s.waiting = some w)
    (hds : (s.env.slices = ds ∧ ds ≠ []) ∨ (s.env.slices = [] ∧
      ds = [⟨decide (w.left = 0), Config.freeIrq (sampleLine s).env.asked⟩]))
    (held : ∀ t : State, t.waiting = some ⟨w.timeout, if s.env.slices = [] then w.left - 1 else w.left⟩ → t.env.slices = [] →
      (∀ d ∈ ds, w.timeout = 0 ∨ d.deadline = false) → EndsWithin n t t) : EndsWithin (n + 1) s s := by
  obtain ⟨p, hstep, hbegun, -, hresults⟩ := step_of_running hw hds
  obtain ⟨-, hport, -⟩ := running_same hbegun (.refl p)
  exact ((endsWithin_of_waitLoop (held _)).congr hport hresults).of_step hstep

/-- With no script, one pass more than are left before the deadline (R208). -/
theorem endsWithin_unscripted {timeout : BitVec 16} (ht : timeout ≠ 0) (left : Nat) (s : State)
    (hw : s.waiting = some ⟨timeout, left⟩) (hslices : s.env.slices = []) : EndsWithin (left + 1) s s := by
  induction left generalizing s with
  | zero =>
    refine endsWithin_of_running hw (.inr ⟨hslices, rfl⟩) fun t _ _ hquiet => ?_
    have hdeadline := (hquiet _ List.mem_cons_self).resolve_left ht
    cases hdeadline
  | succ left ih =>
    refine endsWithin_of_running hw (.inr ⟨hslices, rfl⟩) fun t hwaiting hnil _ => ih t ?_ hnil
    rw [hwaiting, if_pos hslices, Nat.add_sub_cancel]

/-- With a script, one step for it before that. -/
theorem endsWithin_running {w : Waiting} (hw : s.waiting = some w) (ht : w.timeout ≠ 0) : EndsWithin (w.left + 2) s s := by
  by_cases hslices : s.env.slices = []
  · exact (endsWithin_unscripted ht w.left s hw hslices).mono (Nat.le_succ _)
  · refine endsWithin_of_running hw (.inl ⟨rfl, hslices⟩) fun t hwaiting hnil _ => endsWithin_unscripted ht w.left t ?_ hnil
    rw [hwaiting, if_neg hslices]

/-- Settles O60: a running wait by induction on the passes left before its deadline, and a wait from its beginning by its loop. -/
theorem timedWaitEnds : Obligations.TimedWaitEnds := by
  refine ⟨fun s w hw ht => endsWithin_running hw ht, fun timeout s hline ht => ?_⟩
  obtain ⟨p, _, _, left, hexec, -, ⟨-, -, -, -, hport, -⟩, -, hresults⟩ := exec_waitForTag timeout s hline
  have hloop : EndsWithin (left + 1) p (waitLoop timeout left s.env.slices p) :=
    endsWithin_of_waitLoop fun hwaiting hnil _ => endsWithin_unscripted ht left _ hwaiting hnil
  obtain ⟨k, u, fired, -, hends⟩ := hloop.congr hport hresults
  exact ⟨_, k, u, fired, hexec, hends⟩

end Sys2Proof.Proofs.WaitForTag
end

section
/-! SUPPORT. How every operation ends, said once for every constructor: a next state with one result, `authed` and `pstate` by their tables,
or a WAIT_FOR_TAG that goes on (rules R20, R84, R168, R187, R240, R279 of spec/). -/

namespace Sys2Proof.Proofs.Outcomes

open Sys2Proof Sys2Proof.Machine Sys2Proof.Laws Host
open Sys2Proof.Proofs.Operations Sys2Proof.Proofs.TagOperations

variable {s t : State} {i : Instr} {r : Result} {c : Cause} {evs : List Event} {as : List Byte} {locs : List Nat}

/-- The new `authed`, from whether the operation failed and from the old one (R20, R187): the counterpart of `pstateTable`. -/
def authedTable (i : Instr) (failed authed : Bool) : Bool :=
  match i with
  | .cardAuth _ _ _ _ => authed || !failed
  | .halt             => false
  | .stopCrypto       => false
  | .cleanup          => false
  | _                 => authed

/-- The operation handed back this result, and the registers that follow the tag are what their tables give; READ_ID, which has no row,
leaves no new Authenticated. -/
def Settled (i : Instr) (r : Result) (c : Cause) (s t : State) : Prop :=
  Delivers r c s t ∧ t.authed = authedTable i (resultFailed r) s.authed ∧
    match pstateTable i (resultFailed r) s.authed s.pstate with
    | some p => t.pstate = p
    | none   => t.pstate = s.pstate ∨ t.pstate ≠ .authenticated

/-- The wait goes on, with no result yet (R279). -/
def Held (i : Instr) (s t : State) : Prop :=
  (∃ timeout, i = .waitForTag timeout) ∧ t.results = s.results ∧ t.waiting ≠ none ∧ t.authed = s.authed ∧ t.pstate = s.pstate

/-- How an operation can end. -/
def Ends (i : Instr) (s : State) : Prop := ∃ t, exec i s = .next t ∧ ((∃ r c, Settled i r c s t) ∨ Held i s t)

/-- An operation that leaves every engine register, in a row that says so. -/
theorem ends_of_same (hexec : exec i s = .next t) (heffect : Effect locs evs as r c s t) (hsame : SameEngine s t)
    (hauthed : authedTable i (resultFailed r) s.authed = s.authed)
    (hpstate : pstateTable i (resultFailed r) s.authed s.pstate = some s.pstate) : Ends i s := by
  obtain ⟨-, -, hresult, -⟩ := heffect
  obtain ⟨-, -, hauthed', -, hpstate', -⟩ := hsame
  refine ⟨t, hexec, .inl ⟨r, c, hresult, hauthed'.trans hauthed.symm, ?_⟩⟩
  rw [hpstate]
  exact hpstate'

/-- An operation that moves the registers that follow the tag as its row says. -/
theorem ends_of_moved {p : PState} (hexec : exec i s = .next t) (heffect : Effect locs evs as r c s t)
    (hauthed : t.authed = authedTable i (resultFailed r) s.authed) (hpstate : t.pstate = p)
    (hrow : pstateTable i (resultFailed r) s.authed s.pstate = some p) : Ends i s := by
  obtain ⟨-, -, hresult, -⟩ := heffect
  refine ⟨t, hexec, .inl ⟨r, c, hresult, hauthed, ?_⟩⟩
  rw [hrow]
  exact hpstate

/-- A rejected operation, in a row that keeps both registers on failure. -/
theorem ends_of_reject (hexec : exec i s = .next (reject c s)) (hauthed : authedTable i true s.authed = s.authed)
    (hpstate : pstateTable i true s.authed s.pstate = some s.pstate) : Ends i s := by
  obtain ⟨heffect, hsame, -⟩ := InterruptLine.reject_effect c s
  exact ends_of_same hexec heffect hsame hauthed hpstate

/-- The failure flag of a verdict. -/
theorem ite_verdict (v : Cause) (p q : PState) :
    (if decide (v ≠ .eNone) then p else q) = if v = .eNone then q else p := by
  by_cases h : v = .eNone <;> simp [h]

theorem ends_readId (asNumber : Bool) (s : State) : Ends (.readId asNumber) s := by
  obtain ⟨t, _, _, p, _, _, hexec, hrun, ⟨-, -, hresult, -⟩, -, hauthed, hpstate, -⟩ := readIdFollowsItsSteps asNumber s
  refine ⟨t, hexec, .inl ⟨_, _, hresult, hauthed, ?_⟩⟩
  change t.pstate = s.pstate ∨ t.pstate ≠ .authenticated
  rw [hpstate]
  exact readIdRun_pstate hrun

theorem ends_cleanup (s : State) : Ends .cleanup s := by
  cases ha : s.authed with
  | true =>
    obtain ⟨_, heffect, -, -, hauthed, hpstate⟩ := stopCrypto_complete s
    exact ends_of_moved (exec_cleanup_authed ha) heffect hauthed hpstate (by simp [pstateTable, ha])
  | false =>
    obtain ⟨heffect, hsame⟩ := cleanup_idle_effect s
    exact ends_of_same (exec_cleanup_idle ha) heffect hsame ha.symm (by simp [pstateTable, ha])

theorem ends_setAntennaGain (gain : Byte) (s : State) : Ends (.setAntennaGain gain) s := by
  by_cases hg : gain.toNat ≤ 7
  · obtain ⟨t, hexec, heffect, -, -, -, -, -, hauthed, hpstate, -⟩ := Configuration.setAntennaGainStoresAndWrites gain s hg
    exact ends_of_moved hexec heffect hauthed hpstate rfl
  · exact ends_of_reject (Gain.exec_setAntennaGain_of_lt s (Nat.lt_of_not_le hg)) rfl rfl

theorem ends_waitForTag (timeout : BitVec 16) (s : State) : Ends (.waitForTag timeout) s := by
  cases hline : s.irqPresent with
  | false => exact ends_of_reject (InterruptLine.exec_waitForTag_of_noLine timeout hline) rfl rfl
  | true =>
    obtain ⟨p, _, _, left, hexec, -, hbegun, -, hresults⟩ := WaitForTag.exec_waitForTag timeout s hline
    obtain ⟨_, _, hloop⟩ := WaitForTag.waitLoop_waited timeout left s.env.slices p
    obtain ⟨-, -, -, -, -, -, hauthed, -, hpstate⟩ := hbegun.trans hloop
    refine ⟨_, hexec, ?_⟩
    rcases waitLoop_settles timeout left s.env.slices p with ⟨-, fired, hres⟩ | ⟨hwaiting, hres, -⟩
    · rw [hresults] at hres
      exact .inl ⟨.fired fired, .eNone, hres, hauthed, hpstate⟩
    · exact .inr ⟨⟨timeout, rfl⟩, hres.trans hresults, by simp [hwaiting], hauthed, hpstate⟩

/-- An operation whose operand has another length than its layout fixes. -/
theorem ends_of_not_wellFormed (h : i.wellFormed = false) (hcrc : ∀ data, i ≠ .computeCrc data)
    (hwrite : ∀ command data, i ≠ .cardWrite command data) (hauthed : authedTable i true s.authed = s.authed)
    (hpstate : pstateTable i true s.authed s.pstate = some s.pstate) : Ends i s :=
  ends_of_reject (exec_of_not_wellFormed s h hcrc hwrite) hauthed hpstate

/-- Every operation ends so (R84, R168, R187, R240). -/
theorem exec_ends (i : Instr) (s : State) : Ends i s := by
  cases i with
  | regWrite addr value =>
    obtain ⟨t, hexec, heffect, -, hsame, -⟩ := RegisterAccess.exec_regWrite addr value s
    exact ends_of_same hexec heffect hsame rfl rfl
  | regRead addr =>
    obtain ⟨t, _, hexec, heffect, hsame⟩ := RegisterAccess.exec_regRead addr s
    exact ends_of_same hexec heffect hsame rfl rfl
  | setBits addr mask =>
    obtain ⟨⟨t, _, hexec, heffect, -, hsame⟩, -⟩ := setAndClearBitsReadThenWrite addr mask s
    exact ends_of_same hexec heffect hsame rfl rfl
  | clearBits addr mask =>
    obtain ⟨-, t, _, hexec, heffect, -, hsame⟩ := setAndClearBitsReadThenWrite addr mask s
    exact ends_of_same hexec heffect hsame rfl rfl
  | computeCrc data =>
    obtain ⟨t, _, _, _, _, hexec, -, heffect, hsame⟩ := exec_computeCrc data s
    exact ends_of_same hexec heffect hsame rfl rfl
  | cardWrite command data =>
    obtain ⟨t, _, _, _, hexec, -, heffect, hsame⟩ := exec_cardWrite command data s
    exact ends_of_same hexec heffect hsame rfl rfl
  | request mode =>
    obtain ⟨t, _, _, _, v, hexec, -, heffect, -, hauthed, hpstate⟩ := requestFollowsItsSteps mode s
    refine ends_of_moved hexec heffect hauthed hpstate ?_
    by_cases hv : v = .eNone <;> simp [hv, pstateTable, resultFailed]
  | anticoll =>
    obtain ⟨⟨t, _, _, _, v, hexec, -, heffect, -, hauthed, hpstate⟩, -⟩ := anticollFollowsItsSteps s
    exact ends_of_moved hexec heffect hauthed hpstate (congrArg some (ite_verdict ..))
  | anticoll2 =>
    obtain ⟨-, t, _, _, _, v, hexec, -, heffect, -, hauthed, hpstate⟩ := anticollFollowsItsSteps s
    exact ends_of_moved hexec heffect hauthed hpstate (congrArg some (ite_verdict ..))
  | selectTag uid =>
    by_cases hu : uid.length = anticollLen
    · obtain ⟨t, _, _, v, hexec, -, heffect, -, hauthed, hpstate⟩ := exec_selectTag s hu
      exact ends_of_moved hexec heffect hauthed hpstate (congrArg some (ite_verdict ..))
    · exact ends_of_not_wellFormed (decide_eq_false hu) nofun nofun rfl rfl
  | readId asNumber => exact ends_readId asNumber s
  | cardAuth mode block key uid =>
    cases hwf : Instr.wellFormed (.cardAuth mode block key uid) with
    | false => exact ends_of_not_wellFormed hwf nofun nofun (Bool.or_false _) rfl
    | true =>
      obtain ⟨hk, hu⟩ := (Bool.and_eq_true ..).mp hwf
      obtain ⟨t, _, _, _, v, hexec, -, heffect, -, hauthed, hpstate⟩ :=
        cardAuthFollowsItsSteps mode block key uid s (of_decide_eq_true hk) (of_decide_eq_true hu)
      refine ends_of_moved hexec heffect ?_ hpstate (congrArg some (ite_verdict ..))
      simp [hauthed, authedTable, resultFailed]
  | read block =>
    obtain ⟨t, _, _, _, _, hexec, -, -, heffect, hsame⟩ := readFollowsItsSteps block s
    exact ends_of_same hexec heffect hsame rfl rfl
  | write block data =>
    by_cases hd : data.length = blockLen
    · obtain ⟨t, _, _, _, hexec, -, heffect, hsame⟩ := writeFollowsItsSteps block data s hd
      exact ends_of_same hexec heffect hsame rfl rfl
    · exact ends_of_not_wellFormed (decide_eq_false hd) nofun nofun rfl rfl
  | halt =>
    obtain ⟨t, _, _, hexec, -, heffect, -, hauthed, hpstate⟩ := haltFollowsItsSteps s
    exact ends_of_moved hexec heffect hauthed hpstate rfl
  | stopCrypto =>
    obtain ⟨_, heffect, -, -, hauthed, hpstate⟩ := stopCrypto_complete s
    exact ends_of_moved rfl heffect hauthed hpstate rfl
  | setAntennaGain gain => exact ends_setAntennaGain gain s
  | init =>
    obtain ⟨t, _, _, hexec, -, heffect, hsame⟩ := Configuration.exec_init s
    exact ends_of_same hexec heffect hsame rfl rfl
  | cleanup => exact ends_cleanup s
  | waitForTag timeout => exact ends_waitForTag timeout s
  | busWriteFrame address value =>
    obtain ⟨t, hexec, heffect, -, hsame, -⟩ := exec_busWriteFrame address value s
    exact ends_of_same hexec heffect hsame rfl rfl
  | busReadFrame address =>
    obtain ⟨t, _, hexec, heffect, hsame⟩ := exec_busReadFrame address s
    exact ends_of_same hexec heffect hsame rfl rfl
  | tagRequest mode =>
    obtain ⟨t, _, _, _, _, hexec, -, heffect, hsame⟩ := sendRequest_answered mode s
    exact ends_of_same hexec heffect hsame rfl rfl
  | tagAnticoll1 =>
    obtain ⟨t, _, _, _, _, hexec, -, heffect, hsame⟩ := sendAnticoll_answered selectCode1 s
    exact ends_of_same hexec heffect hsame rfl rfl
  | tagAnticoll2 =>
    obtain ⟨t, _, _, _, _, hexec, -, heffect, hsame⟩ := sendAnticoll_answered selectCode2 s
    exact ends_of_same hexec heffect hsame rfl rfl
  | tagSelect uid lo hi =>
    by_cases hu : uid.length = anticollLen
    · obtain ⟨select, -⟩ := framesWithAChecksum s 0 lo hi
      obtain ⟨t, _, _, _, _, hexec, -, -, heffect, hsame⟩ := select uid hu
      exact ends_of_same hexec heffect hsame rfl rfl
    · exact ends_of_not_wellFormed (decide_eq_false hu) nofun nofun rfl rfl
  | tagAuthA block key uid =>
    by_cases hl : key.length = keyLen ∧ uid.length = authUidLen
    · obtain ⟨t, _, _, _, _, hexec, -, heffect, hsame⟩ := sendAuth_answered authKeyA block key uid s
      exact ends_of_same ((exec_tagAuthA block s hl).trans hexec) heffect hsame rfl rfl
    · exact ends_of_reject (if_neg hl) rfl rfl
  | tagAuthB block key uid =>
    by_cases hl : key.length = keyLen ∧ uid.length = authUidLen
    · obtain ⟨t, _, _, _, _, hexec, -, heffect, hsame⟩ := sendAuth_answered authKeyB block key uid s
      exact ends_of_same ((exec_tagAuthB block s hl).trans hexec) heffect hsame rfl rfl
    · exact ends_of_reject (if_neg hl) rfl rfl
  | tagRead block lo hi =>
    obtain ⟨-, ⟨t, _, _, _, _, hexec, -, -, heffect, hsame⟩, -⟩ := framesWithAChecksum s block lo hi
    exact ends_of_same hexec heffect hsame rfl rfl
  | tagWritePhase1 block lo hi =>
    obtain ⟨-, -, ⟨t, _, _, _, hexec, -, heffect, hsame⟩, -⟩ := framesWithAChecksum s block lo hi
    exact ends_of_same hexec heffect hsame rfl rfl
  | tagWritePhase2 data lo hi =>
    by_cases hd : data.length = blockLen
    · obtain ⟨-, -, -, phase2, -⟩ := framesWithAChecksum s 0 lo hi
      obtain ⟨t, _, _, _, hexec, -, heffect, hsame⟩ := phase2 data hd
      exact ends_of_same hexec heffect hsame rfl rfl
    · exact ends_of_not_wellFormed (decide_eq_false hd) nofun nofun rfl rfl
  | tagHalt lo hi =>
    obtain ⟨-, -, -, -, t, _, _, _, hexec, -, heffect, hsame⟩ := framesWithAChecksum s 0 lo hi
    exact ends_of_same hexec heffect hsame rfl rfl
  | cmdIdle | cmdCalcCrc | cmdTransceive | cmdAuthent | cmdSoftReset =>
    obtain ⟨t, hexec, heffect, -, hsame, -⟩ := issueCode_effect _ s
    exact ends_of_same hexec heffect hsame rfl rfl

/-- The same of a given next state. -/
theorem ends_of_exec (h : exec i s = .next t) : (∃ r c, Settled i r c s t) ∨ Held i s t := by
  obtain ⟨u, hexec, hends⟩ := exec_ends i s
  cases hexec.symm.trans h
  exact hends

/-- An operation that goes on has delivered nothing. -/
theorem not_delivers_of_held (h : Held i s t) : ¬ Delivers r c s t := by
  obtain ⟨-, hresults, -⟩ := h
  intro hdelivers
  simp [Delivers, hresults] at hdelivers

/-! ### The obligations -/

/-- Settles O57: each operation ends with its one result, or is a wait that goes on. -/
theorem everyOperationEndsInAState : Obligations.EveryOperationEndsInAState := by
  intro i s
  obtain ⟨t, hexec, ⟨r, c, hresult, -⟩ | ⟨hwait, hresults, hwaiting, -⟩⟩ := exec_ends i s
  · exact ⟨t, hexec, .inl ⟨r, c, hresult⟩⟩
  · exact ⟨t, hexec, .inr ⟨hwait, hresults, hwaiting⟩⟩

/-- Settles O47: the result delivered is the one the operation settled with. -/
theorem procedureStateTable : Obligations.ProcedureStateTable := by
  intro i s t r c p hexec hdelivers hrow
  rcases ends_of_exec hexec with ⟨r', c', hresult, -, hpstate⟩ | hheld
  · obtain ⟨rfl, rfl⟩ := delivers_unique hresult hdelivers
    rw [hrow] at hpstate
    exact hpstate
  · exact absurd hdelivers (not_delivers_of_held hheld)

/-- The rows that turn `authed` on, and those that turn it off (R20). -/
theorem authedTable_on {failed : Bool} (h : authedTable i failed false = true) :
    ∃ mode block key uid, i = .cardAuth mode block key uid := by
  cases i
  case cardAuth mode block key uid => exact ⟨mode, block, key, uid, rfl⟩
  all_goals cases h

theorem authedTable_off {failed : Bool} (h : authedTable i failed true = false) : i = .halt ∨ i = .stopCrypto ∨ i = .cleanup := by
  cases i
  case halt => exact .inl rfl
  case stopCrypto => exact .inr (.inl rfl)
  case cleanup => exact .inr (.inr rfl)
  all_goals cases h

/-- A CARD_AUTH that turned `authed` on delivered success (R180). -/
theorem cardAuth_success {mode block : Byte} {key uid : List Byte} (hexec : exec (.cardAuth mode block key uid) s = .next t)
    (hs : s.authed = false) (ht : t.authed = true) : Delivers (.flag false) .eNone s t := by
  by_cases hl : key.length = keyLen ∧ uid.length = authUidLen
  · obtain ⟨u, _, _, _, v, hexec', -, ⟨-, -, hresult, -⟩, -, hauthed, -⟩ := cardAuthFollowsItsSteps mode block key uid s hl.1 hl.2
    cases hexec'.symm.trans hexec
    obtain rfl : v = .eNone := by simpa [hs, ht] using hauthed
    exact hresult
  · have hrejected : exec (.cardAuth mode block key uid) s = .next (reject .unknownOp s) := if_neg hl
    cases hrejected.symm.trans hexec
    cases hs.symm.trans ht

/-- Settles O48: by the table of `authed`; a wait that goes on keeps it. -/
theorem authedIsSetAndClearedOnlyAsStated : Obligations.AuthedIsSetAndClearedOnlyAsStated := by
  intro i s t hexec
  have htable : (∃ failed, t.authed = authedTable i failed s.authed) ∨ t.authed = s.authed := by
    rcases ends_of_exec hexec with ⟨r, c, -, hauthed, -⟩ | ⟨-, -, -, hauthed, -⟩
    · exact .inl ⟨resultFailed r, hauthed⟩
    · exact .inr hauthed
  constructor <;> intro hs ht <;> rw [hs, ht] at htable
  · obtain ⟨failed, hon⟩ := htable.resolve_right (by simp)
    obtain ⟨mode, block, key, uid, rfl⟩ := authedTable_on hon.symm
    exact ⟨⟨mode, block, key, uid, rfl⟩, cardAuth_success hexec hs ht⟩
  · obtain ⟨failed, hoff⟩ := htable.resolve_right (by simp)
    exact authedTable_off hoff.symm

end Sys2Proof.Proofs.Outcomes
end

section
/-! SUPPORT. What every step of the whole machine keeps and adds: the configuration, whole windows, the register space as the replay of the
trace, the columns of R53, the bounds of R284, and the invariant (rules R23, R46, R53, R64, R114, R284 of spec/). -/

namespace Sys2Proof.Proofs.WholeMachine

open Sys2Proof Sys2Proof.Machine Sys2Proof.Laws Host

variable {s t : State} {c : Config} {cs : Bool} {evs : List Event} {locs : List Nat}

/-! ### Every location written is one of the 64 -/

theorem forall_map_location_lt (addrs : List Byte) : ∀ a ∈ addrs.map location, a < 64 := by
  simp only [List.forall_mem_map]
  exact fun a _ => location_lt a

theorem initLocs_lt (c : Config) : ∀ a ∈ initLocs c, a < 64 := by
  simp only [initLocs, List.forall_mem_map]
  exact fun e _ => location_lt e.addr

theorem waitLocs_lt (c : Config) : ∀ a ∈ waitLocs c, a < 64 :=
  List.forall_mem_append.mpr ⟨initLocs_lt c, forall_map_location_lt _⟩

/-- Every column of R53 names locations of the register space (R51). -/
theorem mayWrite_lt (c : Config) (i : Instr) : ∀ a ∈ mayWrite c i, a < 64 := by
  have both : ∀ a ∈ crcLocs c ++ executorLocs c, a < 64 :=
    List.forall_mem_append.mpr ⟨forall_map_location_lt _, forall_map_location_lt _⟩
  cases i with
  | init => exact initLocs_lt c
  | waitForTag => exact waitLocs_lt c
  | busWriteFrame address => exact fun a ha => List.mem_singleton.mp ha ▸ address.isLt
  | regRead | busReadFrame => exact fun _ ha => nomatch ha
  | halt => exact List.forall_mem_append.mpr ⟨both, forall_map_location_lt [c.aStatus]⟩
  | selectTag | readId | read | write => exact both
  | regWrite addr | setBits addr | clearBits addr => exact forall_map_location_lt [addr]
  | stopCrypto | cleanup => exact forall_map_location_lt [c.aStatus]
  | setAntennaGain => exact forall_map_location_lt [c.aRfCfg]
  | cmdIdle | cmdCalcCrc | cmdTransceive | cmdAuthent | cmdSoftReset => exact forall_map_location_lt [c.aCommand]
  | computeCrc | cardWrite | request | anticoll | anticoll2 | cardAuth | tagRequest | tagAnticoll1 | tagAnticoll2 | tagSelect | tagAuthA
  | tagAuthB | tagRead | tagWritePhase1 | tagWritePhase2 | tagHalt => exact forall_map_location_lt _

/-- The replay of traffic within the register space keeps the canonical form. -/
theorem replay_wf {evs : List Event} (hlocs : ∀ a ∈ locs, a < 64) (h : ∀ e ∈ evs, WritesIn locs e) {m : Memory}
    (hm : Memory.wf m = true) : Memory.wf (replay evs m) = true := by
  induction evs generalizing m with
  | nil => exact hm
  | cons e evs ih =>
    have hwritten : Memory.wf (written m e) = true := by
      cases e with
      | xferWrite tx0 tx1 => exact set_wf tx1 (hlocs _ (h _ List.mem_cons_self tx0 tx1 rfl)) hm
      | _ => exact hm
    exact ih (fun e he => h e (List.mem_cons_of_mem _ he)) hwritten

/-! ### The account of a step -/

/-- The account of what was done after changes that no bus shows. -/
theorem account_after_idle {u : State} (hconfig : SameConfig s u) (htrace : u.trace = s.trace) (hchip : u.env.chip = s.env.chip)
    (hregs : u.chipRegs = s.chipRegs) (h : Account locs none u t) : Account locs none s t :=
  account_then (account_idle none hconfig htrace hchip hregs) h

theorem account_of_exec {i : Instr} (h : exec i s = .next t) : Account (mayWrite s.cfg i) none s t := by
  obtain ⟨u, hexec, haccount, -⟩ := exec_account i s
  cases hexec.symm.trans h
  exact haccount

/-- Every step has its account, at locations of the register space. -/
theorem step_account (h : step s = .next t) : ∃ locs, (∀ a ∈ locs, a < 64) ∧ Account locs none s t := by
  obtain ⟨hconfig, -, -, -, -, -, -, htrace, hregs, hchip, -⟩ := sampleLine_same s
  refine Stepping.step_induction (P := fun s t => ∃ locs, (∀ a ∈ locs, a < 64) ∧ Account locs none s t) h
    (fun w _ => ?_) ?_ (fun i rest t hexec => ?_) (fun rest => ?_)
  · exact ⟨_, waitLocs_lt _, account_after_idle hconfig htrace hchip hregs (resumeWait_account w (sampleLine s))⟩
  · exact ⟨[], by simp, account_idle none hconfig htrace hchip hregs⟩
  · exact ⟨_, mayWrite_lt _ i, account_after_idle (u := takeWord rest (sampleLine s)) hconfig htrace hchip hregs (account_of_exec hexec)⟩
  · exact ⟨[], by simp, account_idle none hconfig htrace hchip hregs⟩

/-- Settles O49: the configuration is part of the account. -/
theorem configurationNeverChanges : Obligations.ConfigurationNeverChanges := by
  intro s t h
  obtain ⟨_, -, hconfig, -⟩ := step_account h
  exact hconfig

/-- Settles O54: so are the windows and the replay. -/
theorem everyTransferHasItsWindow : Obligations.EveryTransferHasItsWindow := by
  intro s t h
  obtain ⟨_, -, -, evs, _, _, htrace, -, hregs, htraffic, -⟩ := step_account h
  exact ⟨evs, htrace, htraffic.windows, hregs⟩

/-- Settles O53: an operation's account is at the locations of its column. -/
theorem registerMapOfWrites : Obligations.RegisterMapOfWrites := by
  intro i s t h
  obtain ⟨-, _, _, _, -, -, hregs, htraffic, -⟩ := account_of_exec h
  exact htraffic.onlyWrites hregs

/-- Settles O55: an operation's account has at most the transactions of its row. -/
theorem transactionBounds : Obligations.TransactionBounds := by
  intro i s t n hcommands hwf hmax hexec
  obtain ⟨u, hexec', -, hbounded⟩ := exec_account i s
  cases hexec'.symm.trans hexec
  obtain ⟨-, evs, _, m, htrace, -, -, htraffic, hbound⟩ := hbounded hcommands hwf
  exact ⟨evs, htrace, by rw [htraffic.count]; exact hbound n hmax⟩

/-! ### The invariant -/

/-- No row of the table makes a new Authenticated but beside `authed` (R46 (b)). -/
theorem authed_of_pstateTable {i : Instr} {failed authed : Bool} {p : PState} (hp : p = .authenticated → authed = true)
    (h : pstateTable i failed authed p = some .authenticated) : Outcomes.authedTable i failed authed = true := by
  cases i with
  | request | anticoll | anticoll2 | selectTag =>
    cases failed with
    | true => exact hp (Option.some.inj h)
    | false => cases h
  | cardAuth =>
    cases failed with
    | true =>
      rw [Outcomes.authedTable, hp (Option.some.inj h)]
      rfl
    | false => exact Bool.or_true authed
  | halt => cases h
  | stopCrypto =>
    have hrow : (if p = .authenticated then .selected else p) = PState.authenticated := Option.some.inj h
    split at hrow
    · cases hrow
    next hne => exact absurd hrow hne
  | cleanup =>
    have hrow : (if authed = true ∧ p = .authenticated then .selected else p) = PState.authenticated := Option.some.inj h
    split at hrow
    · cases hrow
    next hne => exact absurd ⟨hp hrow, hrow⟩ hne
  | readId => cases h
  | regWrite | regRead | setBits | clearBits | computeCrc | cardWrite | read | write | setAntennaGain | init | waitForTag | busWriteFrame
  | busReadFrame | tagRequest | tagAnticoll1 | tagAnticoll2 | tagSelect | tagAuthA | tagAuthB | tagRead | tagWritePhase1 | tagWritePhase2
  | tagHalt | cmdIdle | cmdCalcCrc | cmdTransceive | cmdAuthent | cmdSoftReset => exact hp (Option.some.inj h)

/-- Every operation keeps "Authenticated implies `authed`" (R46 (b)). -/
theorem exec_keeps_authed {i : Instr} (h : exec i s = .next t) (hs : s.pstate = .authenticated → s.authed = true)
    (ht : t.pstate = .authenticated) : t.authed = true := by
  rcases Outcomes.ends_of_exec h with ⟨r, c, -, hauthed, hpstate⟩ | ⟨-, -, -, hauthed, hpstate⟩
  · rw [hauthed]
    cases hrow : pstateTable i (resultFailed r) s.authed s.pstate with
    | some p =>
      rw [hrow] at hpstate
      rw [← hpstate, ht] at hrow
      exact authed_of_pstateTable hs hrow
    | none =>
      rw [hrow] at hpstate
      have hold : s.pstate = .authenticated := (hpstate.resolve_right (fun hne => hne ht)).symm.trans ht
      cases i with
      | readId => exact hs hold
      | _ => cases hrow
  · rw [hauthed]
    exact hs (hpstate.symm.trans ht)

/-- A step of a running wait leaves the registers that follow the tag. -/
theorem resumeWait_tag (w : Waiting) (s : State) : (resumeWait w s).authed = s.authed ∧ (resumeWait w s).pstate = s.pstate := by
  unfold resumeWait
  split
  · obtain ⟨_, _, -, -, -, -, -, -, hauthed, -, hpstate⟩ := WaitForTag.waitLoop_waited w.timeout (w.left - 1) [nextPass w s] (asking s)
    exact ⟨hauthed, hpstate⟩
  · obtain ⟨_, _, -, -, -, -, -, -, hauthed, -, hpstate⟩ := WaitForTag.waitLoop_waited w.timeout w.left s.env.slices s
    exact ⟨hauthed, hpstate⟩

/-- Every step keeps "Authenticated implies `authed`" (R46 (b)). -/
theorem step_keeps_authed (h : step s = .next t) (hs : s.pstate = .authenticated → s.authed = true) :
    t.pstate = .authenticated → t.authed = true := by
  obtain ⟨-, hauthed, -, hpstate, -⟩ := sampleLine_same s
  rw [← hpstate, ← hauthed] at hs
  refine Stepping.step_induction (P := fun _ t => t.pstate = .authenticated → t.authed = true) h (fun w _ => ?_) hs
    (fun i rest t hexec => exec_keeps_authed hexec hs) (fun rest => hs)
  obtain ⟨ha, hp⟩ := resumeWait_tag w (sampleLine s)
  rw [ha, hp]
  exact hs

/-- Settles O51: the first half by what operations leave of `authed` and `pstate`, the second by the replay of the account. -/
theorem everyStepKeepsTheInvariant : Obligations.EveryStepKeepsTheInvariant := by
  rintro s t ⟨hauthed, hwf⟩ h
  obtain ⟨locs, hlocs, -, evs, _, _, -, -, hregs, htraffic, -⟩ := step_account h
  refine ⟨step_keeps_authed h hauthed, ?_⟩
  rw [hregs]
  exact replay_wf hlocs htraffic.writes hwf

/-- The registers of construction and then one INIT have the invariant (R45, R263). -/
theorem inv_init_beforeInit (p : SessionParams) (env : Env) : Inv (init (State.beforeInit p env)) := by
  obtain ⟨evs, answers, hrun, hran⟩ := init_ran (State.beforeInit p env)
  obtain ⟨-, -, -, -, hpstate, -⟩ := hran.same
  refine ⟨fun hauthenticated => ?_, ?_⟩
  · rw [hpstate] at hauthenticated
    cases hauthenticated
  · rw [hran.chipRegs]
    exact replay_wf (initLocs_lt _) (initRun_traffic hrun).writes rfl

theorem inv_constructed (p : SessionParams) : Inv (State.constructed p) := by
  rw [constructed_eq]
  exact inv_init_beforeInit p Env.free

/-- Settles O52: the reset state is constructed, and a session is the registers after one INIT. -/
theorem resetHasTheInvariant : Obligations.ResetHasTheInvariant := by
  refine ⟨inv_constructed SessionParams.usual, inv_constructed, fun p env s h => ?_⟩
  obtain ⟨-, -, -, -, rfl⟩ := Gain.construct_eq_session h
  exact inv_init_beforeInit p env

end Sys2Proof.Proofs.WholeMachine
end

section
/-! SUPPORT. What operations do not read (rules R20, R22 to R24, R52, R233 of spec/): the procedure state, the reset-line configuration and
the FIFO capacity by any of them, `authed` by any but CLEANUP, the signal by any but WAIT_FOR_TAG. -/

namespace Sys2Proof.Proofs.Noninterference

open Sys2Proof Sys2Proof.Machine Sys2Proof.Laws Host

/-! ### The wait

WAIT_FOR_TAG reads the signal and whether the line is there, and so moves the other unread pieces alone. -/

/-- `s` with the unread pieces of `x` but the signal and the line's presence, which stay its own. -/
def besides (x : Unread) (s : State) : State := { x with signal := s.signal, irqPresent := s.irqPresent }.into s

/-- A procedure that reads none of the pieces and keeps the signal and the line does not read those. -/
theorem besides_of_blind {f : State → State} (x : Unread) (s : State) (hblind : ∀ y : Unread, f (y.into s) = y.into (f s))
    (hsame : SameEngine s (f s)) : f (besides x s) = besides x (f s) := by
  obtain ⟨⟨-, -, hline, -⟩, -, -, -, -, hsignal⟩ := hsame
  rw [besides, besides, hline, hsignal]
  exact hblind _

theorem init_besides (x : Unread) (s : State) : init (besides x s) = besides x (init s) := by
  obtain ⟨_, _, -, hran⟩ := init_ran s
  exact besides_of_blind x s (fun y => init_blind y s) hran.same

theorem rearm_besides (x : Unread) (s : State) : rearm (besides x s) = besides x (rearm s) := by
  obtain ⟨_, _, -, hran⟩ := rearm_ran s
  exact besides_of_blind x s (fun y => rearm_blind y s) hran.same

theorem waitPrologue_besides (x : Unread) (s : State) : waitPrologue (besides x s) = besides x (waitPrologue s) := by
  simp only [waitPrologue, init_besides]
  rfl

theorem pass_besides (x : Unread) (irq : Bool) (s : State) :
    signalWait irq (rearm (besides x s)) = besides x (signalWait irq (rearm s)) := by
  rw [rearm_besides]
  rfl

theorem finishWait_besides (x : Unread) (fired : Bool) (s : State) :
    finishWait fired (besides x s) = besides x (finishWait fired s) := by
  simp only [finishWait, init_besides]
  rfl

theorem waitLoop_besides (x : Unread) (timeout : BitVec 16) (left : Nat) (ds : List SliceDraw) (s : State) :
    waitLoop timeout left ds (besides x s) = besides x (waitLoop timeout left ds s) := by
  induction ds generalizing s with
  | nil => rfl
  | cons d ds ih =>
    have hdrawn : drawn ds (besides x s) = besides x (drawn ds s) := rfl
    have hsignal : (besides x s).signal = s.signal := rfl
    by_cases hd : timeout = 0 ∨ d.deadline = false
    · rw [waitLoop_pass left ds _ hd, waitLoop_pass left ds _ hd, hdrawn, hsignal, pass_besides, finishWait_besides, ih]
      split <;> rfl
    · obtain ⟨ht, hdeadline⟩ := not_or.mp hd
      have hdeadline := Bool.eq_true_of_not_eq_false hdeadline
      rw [waitLoop_deadline left ds _ ht hdeadline, waitLoop_deadline left ds _ ht hdeadline, hdrawn, finishWait_besides]

theorem beginWait_besides (x : Unread) (timeout : BitVec 16) (s : State) :
    beginWait timeout (besides x s) = besides x (beginWait timeout s) := by
  have hasking : asking (besides x s) = besides x (asking s) := rfl
  change waitLoop timeout (Config.freePasses s.env.asked) (waitPrologue (asking (besides x s))).env.slices
    (waitPrologue (asking (besides x s))) = _
  rw [hasking, waitPrologue_besides, waitLoop_besides]
  rfl

theorem exec_waitForTag_besides (x : Unread) (timeout : BitVec 16) {s t : State} (h : exec (.waitForTag timeout) s = .next t) :
    exec (.waitForTag timeout) (besides x s) = .next (besides x t) := by
  cases hline : s.irqPresent with
  | false =>
    cases (InterruptLine.exec_waitForTag_of_noLine timeout hline).symm.trans h
    exact InterruptLine.exec_waitForTag_of_noLine timeout hline
  | true =>
    have hexec : exec (.waitForTag timeout) s = .next (beginWait timeout s) := congrArg Outcome.next (if_pos hline)
    cases hexec.symm.trans h
    rw [← beginWait_besides]
    exact congrArg Outcome.next (if_pos hline)

/-! ### The other operations -/

/-- The pieces of a state that no access reads. -/
def unreadOf (s : State) : Unread := ⟨s.pstate, s.authed, s.signal, s.irqPresent, s.rstCfg, s.cfg.fifoCapacity⟩

/-- A state with its own unread pieces is itself. -/
theorem next_of_unreadOf {i : Instr} {s t v : State} (hown : exec i ((unreadOf s).into s) = .next v) (h : exec i s = .next t) :
    t = v := by
  rw [unreadOf, into_self, h] at hown
  exact Outcome.next.inj hown

/-- An operation other than WAIT_FOR_TAG, in another procedure state, reset-line configuration and FIFO capacity (R22, R23, R52). -/
theorem exec_with_pstate {i : Instr} {s t : State} (p : PState) (rst capacity : Nat) (hi : ∀ timeout, i ≠ .waitForTag timeout)
    (h : exec i s = .next t) :
    ∃ p', exec i { s with pstate := p, rstCfg := rst, cfg := { s.cfg with fifoCapacity := capacity } } =
      .next { t with pstate := p', rstCfg := rst, cfg := { t.cfg with fifoCapacity := capacity } } := by
  obtain ⟨u, fp, fa, hexec⟩ := InterruptLine.exec_moves_of_authed s s.authed hi
  obtain rfl := next_of_unreadOf (hexec (unreadOf s) rfl) h
  exact ⟨fp p, hexec { unreadOf s with pstate := p, rstCfg := rst, capacity := capacity } rfl⟩

/-- An operation other than WAIT_FOR_TAG, with another signal (R24). -/
theorem exec_with_signal {i : Instr} {s t : State} (b : Bool) (hi : ∀ timeout, i ≠ .waitForTag timeout) (h : exec i s = .next t) :
    exec i { s with signal := b } = .next { t with signal := b } := by
  obtain ⟨u, fp, fa, hexec⟩ := InterruptLine.exec_moves_of_authed s s.authed hi
  obtain rfl := next_of_unreadOf (hexec (unreadOf s) rfl) h
  exact hexec { unreadOf s with signal := b } rfl

/-- An operation other than WAIT_FOR_TAG and CLEANUP, with another `authed` (R20). -/
theorem exec_with_authed {i : Instr} {s t : State} (b : Bool) (hcleanup : i ≠ .cleanup) (hi : ∀ timeout, i ≠ .waitForTag timeout)
    (h : exec i s = .next t) : ∃ b', exec i { s with authed := b } = .next { t with authed := b' } := by
  obtain ⟨u, fp, fa, hexec⟩ := exec_moves i s hcleanup hi
  obtain rfl := next_of_unreadOf (hexec (unreadOf s)) h
  exact ⟨fa b, hexec { unreadOf s with authed := b }⟩

/-! ### WAIT_FOR_TAG among them -/

/-- WAIT_FOR_TAG leaves the registers that follow the tag, and the configuration. -/
theorem waitForTag_keeps {timeout : BitVec 16} {s t : State} (h : exec (.waitForTag timeout) s = .next t) :
    SameConfig s t ∧ t.authed = s.authed ∧ t.pstate = s.pstate := by
  obtain ⟨hconfig, -⟩ := WholeMachine.account_of_exec h
  rcases Outcomes.ends_of_exec h with ⟨_, _, -, hauthed, hpstate⟩ | ⟨-, -, -, hauthed, hpstate⟩
  · exact ⟨hconfig, hauthed, hpstate⟩
  · exact ⟨hconfig, hauthed, hpstate⟩

theorem exec_waitForTag_with_pstate {timeout : BitVec 16} {s t : State} (p : PState) (rst capacity : Nat)
    (h : exec (.waitForTag timeout) s = .next t) :
    exec (.waitForTag timeout) { s with pstate := p, rstCfg := rst, cfg := { s.cfg with fifoCapacity := capacity } } =
      .next { t with pstate := p, rstCfg := rst, cfg := { t.cfg with fifoCapacity := capacity } } := by
  obtain ⟨-, hauthed, -⟩ := waitForTag_keeps h
  refine (exec_waitForTag_besides { unreadOf s with pstate := p, rstCfg := rst, capacity := capacity } timeout h).trans
    (congrArg Outcome.next ?_)
  simp only [besides, Unread.into, unreadOf, ← hauthed]

theorem exec_waitForTag_with_authed {timeout : BitVec 16} {s t : State} (b : Bool) (h : exec (.waitForTag timeout) s = .next t) :
    exec (.waitForTag timeout) { s with authed := b } = .next { t with authed := b } := by
  obtain ⟨⟨hcfg, -, -, hrst⟩, -, hpstate⟩ := waitForTag_keeps h
  refine (exec_waitForTag_besides { unreadOf s with authed := b } timeout h).trans (congrArg Outcome.next ?_)
  simp only [besides, Unread.into, unreadOf, ← hpstate, ← hrst, ← hcfg]

/-! ### The obligations -/

/-- Settles O58: WAIT_FOR_TAG by what its loop does not read, every other operation by the unread pieces. -/
theorem procedureStateGatesNothing : Obligations.ProcedureStateGatesNothing := by
  intro i s t p rst capacity h
  by_cases hi : ∃ timeout, i = .waitForTag timeout
  · obtain ⟨timeout, rfl⟩ := hi
    exact ⟨p, exec_waitForTag_with_pstate p rst capacity h⟩
  · exact exec_with_pstate p rst capacity (not_exists.mp hi) h

/-- Settles O59: the same two cases for `authed`, and the unread pieces for the signal. -/
theorem onlyCleanupReadsAuthedAndOnlyTheWaitReadsTheSignal :
    Obligations.OnlyCleanupReadsAuthedAndOnlyTheWaitReadsTheSignal := by
  refine ⟨fun i s t b hcleanup h => ?_, fun _ _ _ b => exec_with_signal b⟩
  by_cases hi : ∃ timeout, i = .waitForTag timeout
  · obtain ⟨timeout, rfl⟩ := hi
    exact ⟨b, exec_waitForTag_with_authed b h⟩
  · exact exec_with_authed b hcleanup (not_exists.mp hi) h

end Sys2Proof.Proofs.Noninterference
end
